-- ==== Sys2Proof/Word.lean ====
section
/-! DEFINITION. The widths of the hardware: bytes, double-registers and packet words, register addresses, counters. -/

namespace Sys2Proof

/-- One byte of the register bank or of a bus frame. -/
abbrev Byte := BitVec 8

/-- A double-register value (R70) and a word of a command or response packet (R80, R90). -/
abbrev Word := BitVec 16

/-- A register address: "an 8-bit value" (R6, R33). -/
abbrev Address := BitVec 8

/-- A 12-bit counter (R6, R70). -/
abbrev Counter := BitVec 12

/-- The default of the parameter `E` of R7, the type of the transport's error values: a 16-bit code, never interpreted
(R50, R182). State and every meaning take `E` as an argument; this is what they are taken at (log 16). -/
abbrev ErrorCode := BitVec 16

end Sys2Proof
end

