-- ==== Sys2Proof/Config.lean ====
section
/-! DEFINITION. The constants of R6, the open parameters of R7 and the free values the spec leaves open. -/

namespace Sys2Proof

/-- NCH of R6: channels, numbered 0 to 15. -/
abbrev nch : Nat := 16

/-- NDR of R6: double-registers in the channel window. -/
abbrev ndr : Nat := 32

/-- NBULK of R6: bytes in one bulk transfer, and the size of the channel window. -/
abbrev nbulk : Nat := 64

/-- The size of the broadcast window (R23, R102). -/
abbrev nslot : Nat := 4

/-- CMAX of R6: the largest counter value a setter accepts. -/
abbrev cmax : Nat := 4095

/-- FULLON of R6: the pulse length reported for full-on. -/
abbrev fullOnLength : Nat := 4095

/-- The size of `BUF` in bytes (R27): a register pointer and 64 data bytes. -/
abbrev bufSize : Nat := 65

/-- The parameters of R7 that change what a step does. R29: "These are not state. They are parameters of the step
relation"; the model holds them in one field of State that no step changes (log 1). -/
structure Config where
  /-- `CH_BASE`: register address of channel 0's ON low byte. -/
  chBase : Address
  /-- `ALL_BASE`: register address of the broadcast slot's ON low byte. -/
  allBase : Address
  /-- `RSVD_STORED`: whether the bank stores bits 15:13 of a double-register as written (R46). -/
  rsvdStored : Bool
deriving DecidableEq, Repr

/-- The parameters at State.reset. PRESUMED (log 1, log 2): the defaults of R7 for the bases and the family's value
for `RSVD_STORED` (G5), which the spec leaves OPEN. -/
def Config.default : Config := { chBase := 0x06, allBase := 0xFA, rsvdStored := false }

/-- `DEV_ADDR` of R7: the device's address on the serial bus, "passed through, never interpreted" (R41; log 15). -/
opaque Config.devAddr : Nat

/-- The bus target's answer to a transaction, or to EnableAutoIncrement, when the state supplies none (R10, R50 to R52:
"a draw"): `none` for ok, else the error value and the number of bytes stored; free, by the number of the draw
(log 7). -/
opaque Config.freeFailure (E : Type) : Nat → Option (E × Nat)

/-- The byte a read of the broadcast window returns when the state supplies none (R48: "a draw, any 8-bit value,
fresh at every byte read"): free, by the number of the draw (log 8). -/
opaque Config.freeByte : Nat → Byte

/-- Byte `i` of what `BUF` holds after a command or a reset (R27: "its contents between commands are unspecified"):
free, by the number of the draw (log 4). -/
opaque Config.freeBuffer : Nat → Nat → Byte

end Sys2Proof
end

