-- ==== Sys2Proof/Syntax.lean ====
section
/-! DEFINITION. The commands of R83 as one inductive, one constructor a row of spec/opcode_table.json, and the packet
of R80 that carries one. -/

namespace Sys2Proof

/-- Register kind (R81, R101): which of a channel's two double-registers. -/
inductive Kind where
  | on
  | off
deriving DecidableEq, Repr

/-- A channel identifier (R82): one of 16 channels, or the broadcast pseudo-channel All. The bound on the number is
checked in WellFormed. -/
inductive Channel where
  | one (n : Nat)
  | all
deriving DecidableEq, Repr

/-- The eleven commands, in the order of R83, with the operands that R83 and R84 give each. -/
inductive Instr where
  /-- R100 -/
  | addr (ch : Channel) (k : Kind)
  /-- R112 -/
  | getc (ch : Channel) (k : Kind)
  /-- R113 -/
  | setc (ch : Channel) (k : Kind) (value : Word)
  /-- R115 -/
  | setf (ch : Channel) (k : Kind) (f : Bool)
  /-- R116 -/
  | setonoff (ch : Channel) (onV offV : Word)
  /-- R117 -/
  | getonoff (ch : Channel)
  /-- R141 -/
  | rdall
  /-- R142; any number of operand words is a legal packet (R89) -/
  | wrall (values : List Word)
  /-- R161 -/
  | plen (onT offT : Word)
  /-- R162 -/
  | plenplain (onV offV : Word)
  /-- R164 -/
  | getpulse (ch : Channel)
deriving DecidableEq, Repr

/-- A command packet (R80): "a non-empty finite list of 16-bit words": a header word and operand words. The port
delimits it, so the number of operand words is known. -/
structure Packet where
  header   : Word
  operands : List Word
deriving DecidableEq, Repr

end Sys2Proof
end

