-- ==== Sys2Proof/WellFormed.lean ====
section
/-! DEFINITION. Which commands can be spelled (R82), and which parameters R7 admits. -/

namespace Sys2Proof

/-- R82: channels 0 to 15 and All. -/
def Channel.wf : Channel → Bool
  | .one n => n < nch
  | .all => true

/-- R82, R83: a command that names a channel names one of the 17. Operand words are any 16-bit values (R84), and a
WRALL may carry any number of them (R89). -/
def Instr.wf : Instr → Bool
  | .addr ch _ => ch.wf
  | .getc ch _ => ch.wf
  | .setc ch _ _ => ch.wf
  | .setf ch _ _ => ch.wf
  | .setonoff ch _ _ => ch.wf
  | .getonoff ch => ch.wf
  | .rdall => true
  | .wrall _ => true
  | .plen _ _ => true
  | .plenplain _ _ => true
  | .getpulse ch => ch.wf

/-- The constraints R7 puts on the bases: both windows end at or below 255 and they do not overlap. -/
abbrev Config.wf (c : Config) : Prop :=
  c.chBase.toNat + 63 ≤ 255 ∧ c.allBase.toNat + 3 ≤ 255 ∧
    (c.chBase.toNat + 63 < c.allBase.toNat ∨ c.allBase.toNat + 3 < c.chBase.toNat)

end Sys2Proof
end

