-- ==== Sys2Proof/Decode.lean ====
section
/-! DEFINITION. The packet decoder of R81 to R86, total on every packet and rejecting by name, and after it the
encoder. -/

namespace Sys2Proof

/-- The operations of R83, before their operands are attached. -/
inductive Op where
  | addr | getc | setc | setf | setonoff | getonoff | rdall | wrall | plen | plenplain | getpulse
deriving DecidableEq, Repr

/-- Why a packet is illegal: the seven causes of R86, in its order. -/
inductive IllegalCause where
  /-- cause 1: `OP` is 0xB to 0xF -/
  | reservedOpcode
  /-- cause 2: `RSV` is not 0 -/
  | reservedBits
  /-- cause 3: `F` is 1 and the operation is not SETF -/
  | flagUnused
  /-- cause 4: `K` is 1 and the operation does not use `K` -/
  | kindUnused
  /-- cause 5: the operation uses `CH` and `CH` is 17 to 31 -/
  | noSuchChannel
  /-- cause 6: the operation does not use `CH` and `CH` is not 0 -/
  | channelUnused
  /-- cause 7: the operation is not WRALL and the number of operand words is wrong -/
  | operandCount
deriving DecidableEq, Repr

/-- `OP` of R81: bits 15:12. -/
def Packet.op (p : Packet) : BitVec 4 := p.header.extractLsb' 12 4

/-- `K` of R81: bit 11. -/
def Packet.k (p : Packet) : Bool := p.header.getLsbD 11

/-- `F` of R81: bit 10. -/
def Packet.f (p : Packet) : Bool := p.header.getLsbD 10

/-- `RSV` of R81: bits 9:5. -/
def Packet.rsv (p : Packet) : BitVec 5 := p.header.extractLsb' 5 5

/-- `CH` of R81: bits 4:0. -/
def Packet.ch (p : Packet) : BitVec 5 := p.header.extractLsb' 0 5

/-- The column `OP` of R83's map. -/
def Op.code : Op → BitVec 4
  | .addr => 0x0
  | .getc => 0x1
  | .setc => 0x2
  | .setf => 0x3
  | .setonoff => 0x4
  | .getonoff => 0x5
  | .rdall => 0x6
  | .wrall => 0x7
  | .plen => 0x8
  | .plenplain => 0x9
  | .getpulse => 0xA

/-- R83's map read from the code: 0xB to 0xF are reserved. -/
def Op.ofCode (c : BitVec 4) : Option Op :=
  match c.toNat with
  | 0x0 => some .addr
  | 0x1 => some .getc
  | 0x2 => some .setc
  | 0x3 => some .setf
  | 0x4 => some .setonoff
  | 0x5 => some .getonoff
  | 0x6 => some .rdall
  | 0x7 => some .wrall
  | 0x8 => some .plen
  | 0x9 => some .plenplain
  | 0xA => some .getpulse
  | _ => none

/-- Whether the operation reads `K` (column "uses" of R83). -/
def Op.usesKind : Op → Bool
  | .addr => true
  | .getc => true
  | .setc => true
  | .setf => true
  | .setonoff => false
  | .getonoff => false
  | .rdall => false
  | .wrall => false
  | .plen => false
  | .plenplain => false
  | .getpulse => false

/-- Whether the operation reads `F` (column "uses" of R83). -/
def Op.usesFlag : Op → Bool
  | .setf => true
  | .addr => false
  | .getc => false
  | .setc => false
  | .setonoff => false
  | .getonoff => false
  | .rdall => false
  | .wrall => false
  | .plen => false
  | .plenplain => false
  | .getpulse => false

/-- Whether the operation reads `CH` (column "uses" of R83). -/
def Op.usesChannel : Op → Bool
  | .addr => true
  | .getc => true
  | .setc => true
  | .setf => true
  | .setonoff => true
  | .getonoff => true
  | .getpulse => true
  | .rdall => false
  | .wrall => false
  | .plen => false
  | .plenplain => false

/-- Column "operand words" of R83; `none` for WRALL, which takes any number. -/
def Op.operandWords : Op → Option Nat
  | .addr => some 0
  | .getc => some 0
  | .setc => some 1
  | .setf => some 0
  | .setonoff => some 2
  | .getonoff => some 0
  | .rdall => some 0
  | .wrall => none
  | .plen => some 2
  | .plenplain => some 2
  | .getpulse => some 0

/-- Column "match" of R83. -/
def Op.matchWord : Op → Word
  | .addr => 0x0000
  | .getc => 0x1000
  | .setc => 0x2000
  | .setf => 0x3000
  | .setonoff => 0x4000
  | .getonoff => 0x5000
  | .rdall => 0x6000
  | .wrall => 0x7000
  | .plen => 0x8000
  | .plenplain => 0x9000
  | .getpulse => 0xA000

/-- Column "mask" of R83. -/
def Op.maskWord : Op → Word
  | .addr => 0xF7E0
  | .getc => 0xF7E0
  | .setc => 0xF7E0
  | .setf => 0xF3E0
  | .setonoff => 0xFFE0
  | .getonoff => 0xFFE0
  | .rdall => 0xFFFF
  | .wrall => 0xFFFF
  | .plen => 0xFFFF
  | .plenplain => 0xFFFF
  | .getpulse => 0xFFE0

/-- The rows of R83's map, in its order. -/
def Op.rows : List Op :=
  [.addr, .getc, .setc, .setf, .setonoff, .getonoff, .rdall, .wrall, .plen, .plenplain, .getpulse]

/-- R81: `K` = 0 is ON, 1 is OFF. -/
def Kind.ofBit : Bool → Kind
  | false => .on
  | true => .off

/-- R82: the channel field; 17 to 31 spell no channel (checked before this is used). -/
def Channel.ofField (c : BitVec 5) : Channel := if c.toNat = 16 then .all else .one c.toNat

/-- A command without operand words; R86 cause 7 where there are any. -/
def withNoOperand (i : Instr) : List Word → Except IllegalCause Instr
  | [] => .ok i
  | _ :: _ => .error .operandCount

/-- A command of one operand word; R86 cause 7 where their number is another. -/
def withOneOperand (i : Word → Instr) : List Word → Except IllegalCause Instr
  | [w] => .ok (i w)
  | [] => .error .operandCount
  | _ :: _ :: _ => .error .operandCount

/-- A command of two operand words, in order; R86 cause 7 where their number is another. -/
def withTwoOperands (i : Word → Word → Instr) : List Word → Except IllegalCause Instr
  | [w1, w2] => .ok (i w1 w2)
  | [] => .error .operandCount
  | [_] => .error .operandCount
  | _ :: _ :: _ :: _ => .error .operandCount

/-- R84: attach the operand words, in the order of R83; a WRALL takes any number of them (R89). -/
def decodeOperands (op : Op) (ch : Channel) (k : Kind) (f : Bool) (ws : List Word) : Except IllegalCause Instr :=
  match op with
  | .addr => withNoOperand (.addr ch k) ws
  | .getc => withNoOperand (.getc ch k) ws
  | .setc => withOneOperand (.setc ch k) ws
  | .setf => withNoOperand (.setf ch k f) ws
  | .setonoff => withTwoOperands (.setonoff ch) ws
  | .getonoff => withNoOperand (.getonoff ch) ws
  | .rdall => withNoOperand .rdall ws
  | .wrall => .ok (.wrall ws)
  | .plen => withTwoOperands .plen ws
  | .plenplain => withTwoOperands .plenplain ws
  | .getpulse => withNoOperand (.getpulse ch) ws

/-- Decoding (R80 to R86): "every non-empty list of 16-bit words is either exactly one legal command or illegal". -/
def decode (p : Packet) : Except IllegalCause Instr :=
  match Op.ofCode p.op with
  | none => .error .reservedOpcode
  | some op =>
    if p.rsv ≠ 0 then .error .reservedBits
    else if p.f = true ∧ op.usesFlag = false then .error .flagUnused
    else if p.k = true ∧ op.usesKind = false then .error .kindUnused
    else if op.usesChannel = true ∧ 16 < p.ch.toNat then .error .noSuchChannel
    else if op.usesChannel = false ∧ p.ch ≠ 0 then .error .channelUnused
    else decodeOperands op (Channel.ofField p.ch) (Kind.ofBit p.k) p.f p.operands

/-! ### The encoder -/

/-- R81, R101: ON = 0, OFF = 1. -/
def Kind.bit : Kind → Bool
  | .on => false
  | .off => true

/-- R82: the channel number, 16 for All. -/
def Channel.field : Channel → BitVec 5
  | .one n => BitVec.ofNat 5 n
  | .all => 16

/-- R81: `H = (OP << 12) | (K << 11) | (F << 10) | CH`. -/
def headerWord (op : Op) (k f : Bool) (ch : BitVec 5) : Word :=
  (op.code.setWidth 16 <<< 12) ||| ((BitVec.ofBool k).setWidth 16 <<< 11) |||
    ((BitVec.ofBool f).setWidth 16 <<< 10) ||| ch.setWidth 16

/-- The packet of a command (R81 to R84): a field the operation does not use is 0. -/
def encode : Instr → Packet
  | .addr ch k => { header := headerWord .addr k.bit false ch.field, operands := [] }
  | .getc ch k => { header := headerWord .getc k.bit false ch.field, operands := [] }
  | .setc ch k v => { header := headerWord .setc k.bit false ch.field, operands := [v] }
  | .setf ch k f => { header := headerWord .setf k.bit f ch.field, operands := [] }
  | .setonoff ch v1 v2 => { header := headerWord .setonoff false false ch.field, operands := [v1, v2] }
  | .getonoff ch => { header := headerWord .getonoff false false ch.field, operands := [] }
  | .rdall => { header := headerWord .rdall false false 0, operands := [] }
  | .wrall vs => { header := headerWord .wrall false false 0, operands := vs }
  | .plen v1 v2 => { header := headerWord .plen false false 0, operands := [v1, v2] }
  | .plenplain v1 v2 => { header := headerWord .plenplain false false 0, operands := [v1, v2] }
  | .getpulse ch => { header := headerWord .getpulse false false ch.field, operands := [] }

/-- The operation a command belongs to. -/
def Instr.op : Instr → Op
  | .addr _ _ => .addr
  | .getc _ _ => .getc
  | .setc _ _ _ => .setc
  | .setf _ _ _ => .setf
  | .setonoff _ _ _ => .setonoff
  | .getonoff _ => .getonoff
  | .rdall => .rdall
  | .wrall _ => .wrall
  | .plen _ _ => .plen
  | .plenplain _ _ => .plenplain
  | .getpulse _ => .getpulse

/-! ### Packets numbered as spec/opcode_table.json numbers an instruction's bits -/

/-- How many operand words a header's operation takes: R83's count, and for WRALL the 32 of R142. -/
def tableOperandWords (header : Word) : Nat :=
  match Op.ofCode (header.extractLsb' 12 4) with
  | none => 0
  | some op => op.operandWords.getD 32

/-- `n` words of a number, bit 0 the least significant bit of the first. -/
def wordsOf : Nat → Nat → List Word
  | 0, _ => []
  | n + 1, bits => BitVec.ofNat 16 bits :: wordsOf n (bits / 65536)

/-- The packet whose bits are `w`: word `j` is bits `16*j + 15` down to `16*j`, and every bit from `nbits` up is 0. The
table gives a row the 16 bits of its header only, so the operand words the row needs are words of zeros, 32 of them for
a WRALL (log 11). -/
def tablePacket (nbits w : Nat) : Packet :=
  let bits := w % 2 ^ nbits
  let header : Word := BitVec.ofNat 16 bits
  { header := header, operands := wordsOf (max (nbits / 16 - 1) (tableOperandWords header)) (bits / 65536) }

/-- What the decoder reads from the packet whose bits are `w`; `none` where it refuses it. -/
def decodeTableWord (nbits w : Nat) : Option Instr :=
  match decode (tablePacket nbits w) with
  | .ok i => some i
  | .error _ => none

end Sys2Proof
end

