-- ==== Sys2Proof/Machine/State.lean ====
section
/-! DEFINITION. The machine's state as plain data: the block (R27, R21), the bus target (R22, R26, R28, R44), the
observations of a run (R9), the host's inputs (R8) and the bus target's draws (R10). -/

namespace Sys2Proof.Machine

/-- `PHASE` of R27. -/
inductive Phase where
  /-- no command in progress, a command can be accepted -/
  | idle
  /-- a command is being executed -/
  | busy
deriving DecidableEq, Repr

/-- One bus transaction as the bus trace records it (R9, R41): "kind, register pointer, data bytes, read length". -/
inductive Transaction where
  /-- `BusWrite(p, [d0 .. d(k-1)])`, R42 -/
  | write (p : Address) (data : List Byte)
  /-- `BusWriteRead(p, n)`, R43 -/
  | writeRead (p : Address) (n : Nat)
deriving DecidableEq, Repr

/-- A response (R90, R180): how a command ended and its data words. `E` is the type of error values, R7. -/
inductive Response (E : Type := ErrorCode) where
  | ok (data : List Word)
  | invalidInput
  | transport (e : E)
  | illegalCommand
deriving DecidableEq, Repr

/-- The errors of R180: what a command can raise. -/
inductive CommandError (E : Type := ErrorCode) where
  /-- R181 -/
  | invalidInput
  /-- R182 -/
  | transport (e : E)
  /-- R183 -/
  | illegalCommand
deriving DecidableEq, Repr

/-- The bus target's answer to one transaction, a draw (R50, R51). -/
inductive BusAnswer (E : Type := ErrorCode) where
  | ok
  /-- `fail(e)`; of a failed write the first `stored` data bytes were stored, all of them if there are fewer -/
  | fail (e : E) (stored : Nat)
deriving DecidableEq, Repr

/-- What the host does next (R8): the inputs of the machine. -/
inductive HostAction where
  /-- presents a command packet (R80); with `some n` the host resets the block in the middle of that command, after `n`
  of its transactions, the last of which may have failed or been cut short (R32; log 9) -/
  | command (p : Packet) (resetAfter : Option Nat)
  /-- performs the environment action `EnableAutoIncrement` (R52) -/
  | enableAutoIncrement
  /-- resets the block between commands (R32, R210) -/
  | resetBlock
deriving DecidableEq, Repr

/-- The register bank's channel window: (register address, byte) pairs in canonical form (log 3). -/
abbrev Memory := List Host.Cell

/-- Why the machine stops with a fault. -/
inductive Fault where
  /-- Raised by a bus transaction that leaves the two windows of R104. R53 proves that none does while the bases meet
  the constraints of R7, so it is raised only under parameters the spec excludes (log 13). Safe. -/
  | unmappedRegister (p : Address)
deriving DecidableEq, Repr

/-- Why the model gives no meaning. -/
inductive Refusal where
  /-- An instruction that has no meaning yet. No arm of exec uses it. Safe. -/
  | notModelled (mnemonic : String)
  /-- Raised by a transaction of more than one data byte while `AI` = 0: "the model refuses: it gives the run no
  meaning" (R49, R11, R213; log 12). Safe. -/
  | autoIncrementOff
deriving DecidableEq, Repr

/-- The state. `E` is the type of the transport's error values, a parameter of the model (R7, R29; log 16). -/
structure State (E : Type := ErrorCode) where
  /-- the parameters of R7 and R29; no step changes them -/
  config     : Config
  /-- `PHASE`, R27 -/
  phase      : Phase
  /-- `BUF`, R27: 65 bytes -/
  buf        : List Byte
  /-- the sequencer position, R21 -/
  position   : Nat
  /-- a reset of the block on its way in the command in progress: how many more of its transactions go out before it
  arrives, R32 -/
  resetAfter : Option Nat
  /-- the 32 double-registers of R22, as bytes -/
  bank       : Memory
  /-- the auto-increment mode bit `AI`, R26 -/
  ai         : Bool
  /-- the chip's register pointer, R28: the pointer the latest transaction wrote -/
  pointer    : Address
  /-- the responses emitted, oldest first, R9 -/
  responses  : List (Response E)
  /-- the bus trace, oldest first, R9 -/
  trace      : List Transaction
  /-- the host's actions not yet taken, next first, R8 -/
  inbox      : List HostAction
  /-- the bus target's answers to come, next first, R10; then free values (log 7) -/
  answers    : List (BusAnswer E)
  /-- the bytes reads of the broadcast window will return, next first, R48; then free values (log 8) -/
  slotDraws  : List Byte
  /-- how many free values have been taken (log 4, log 7, log 8) -/
  freeCount  : Nat
deriving DecidableEq, Repr

/-- The start of the model with the parameters R7 leaves open as arguments: `E`, `CH_BASE`, `ALL_BASE`, `RSVD_STORED`,
`AI_RESET` and, as listed bytes, `bank0` (R30, R31, R32, R34). -/
def State.start {E : Type} (c : Config) (bank0 : Memory) (aiReset : Bool) : State E :=
  { config := c, phase := .idle, buf := List.replicate bufSize 0, position := 0, resetAfter := none, bank := bank0,
    ai := aiReset, pointer := 0, responses := [], trace := [], inbox := [], answers := [], slotDraws := [],
    freeCount := 0 }

/-- The machine right after reset (R34). PRESUMED where the spec leaves it open: the parameters at their defaults, the
bank at the family's power-up bytes (nothing listed) and auto-increment off (log 1, log 2, log 3). -/
def State.reset : State := State.start Config.default [] false

end Sys2Proof.Machine
end

