-- ==== Sys2Proof/Machine/Flags.lean ====
section
/-! DEFINITION. The fields of a double-register and every computation on the full flags and counters: R70 to R72,
R114, R115, R160 to R165. -/

namespace Sys2Proof.Machine

/-- `counter(v) = v[11:0]`, R72. -/
def counter (v : Word) : Counter := v.extractLsb' 0 12

/-- `full(v) = v[12]`, R72: in an ON register full-on, in an OFF register full-off (R25). -/
def full (v : Word) : Bool := v.getLsbD 12

/-- `rsvd(v) = v[15:13]`, R72. -/
def rsvd (v : Word) : BitVec 3 := v.extractLsb' 13 3

/-- `pack(r, f, c) = (r << 13) | (f << 12) | c`, R72. -/
def pack (r : BitVec 3) (f : Bool) (c : Counter) : Word :=
  (r.setWidth 16 <<< 13) ||| ((BitVec.ofBool f).setWidth 16 <<< 12) ||| c.setWidth 16

/-- The flag in a high byte: `h[4]`, mask 0x10 (R71). -/
def highFlag (h : Byte) : Bool := h.getLsbD 4

/-- R114: `merge(h, v) = ((h & 0xF0) << 8) | v`: the flag and the reserved bits of the high byte read, the counter
given. -/
def merge (h : Byte) (v : Word) : Word := ((h &&& 0xF0).setWidth 16 <<< 8) ||| v

/-- R115: `h' = (h & 0xEF) | (F << 4)`: only bit 4 changes. -/
def withHighFlag (h : Byte) (f : Bool) : Byte := (h &&& 0xEF) ||| ((BitVec.ofBool f).setWidth 8 <<< 4)

/-- R162: the counted pulse length, from the 12-bit counters alone, on natural numbers (R12, R163). The wrap term is
4095, not 4096 (C1). -/
def plain (onV offV : Word) : Nat :=
  let n := (counter onV).toNat
  let f := (counter offV).toNat
  if n ≤ f then f - n else 4095 - n + f

/-- R161, R165: full-off beats full-on beats the counted pulse. -/
def pulse (onT offT : Word) : Nat :=
  if full offT then 0 else if full onT then fullOnLength else plain onT offT

end Sys2Proof.Machine
end

