-- ==== Sys2Proof/Machine/Operands.lean ====
section
/-! DEFINITION. Operand forms: byte order (R40), the address mapper (R101, R102), the three addressing modes (R66), the
range check of a counter operand (R85) and the bulk frames (R73, R74, R76). -/

namespace Sys2Proof.Machine

/-- `lo8(v) = v[7:0]`, R12. -/
def lo8 (v : Word) : Byte := v.extractLsb' 0 8

/-- `hi8(v) = v[15:8]`, R12. -/
def hi8 (v : Word) : Byte := v.extractLsb' 8 8

/-- `le16(b0, b1) = {b1, b0}`, R12, R40: the first byte on the wire is the low byte. -/
def le16 (b0 b1 : Byte) : Word := b1 ++ b0

/-- ON = 0, OFF = 1 (R101). -/
def kindIndex : Kind → Nat
  | .on => 0
  | .off => 1

/-- The address mapper: `addr(c, K) = CH_BASE + 4*c + 2*K` (R101) and `addr(All, K) = ALL_BASE + 2*K` (R102), in 8
bits. -/
def addrOf (c : Config) : Channel → Kind → Address
  | .one n, k => c.chBase + BitVec.ofNat 8 (4 * n + 2 * kindIndex k)
  | .all, k => c.allBase + BitVec.ofNat 8 (2 * kindIndex k)

/-- R66, channel high byte mode: `addr(ch, K) + 1`. -/
def highAddrOf (c : Config) (ch : Channel) (k : Kind) : Address := addrOf c ch k + 1

/-- R85: a counter operand is accepted when the whole 16-bit word is at most 4095, as an unsigned number. -/
def counterInRange (w : Word) : Bool := w.toNat ≤ cmax

/-- Word `i` of bytes received: `le16(b(2i), b(2i+1))` (R65, R74). -/
def wordAt (bytes : List Byte) (i : Nat) : Word := le16 (bytes.getD (2 * i) 0) (bytes.getD (2 * i + 1) 0)

/-- The data bytes of words written: `lo8(v0), hi8(v0), lo8(v1), ..` (R65, R73). -/
def wordBytes (vs : List Word) : List Byte := vs.flatMap fun v => [lo8 v, hi8 v]

/-- Slot order of R76: slot `i = 2*c + K` is channel `c`, kind `K`. -/
def slotOf (n : Nat) (k : Kind) : Nat := 2 * n + kindIndex k

/-- `zext_16` of a register address (R100). -/
def addressWord (a : Address) : Word := a.setWidth 16

/-- `zext_16` of a counter (R112). -/
def counterWord (c : Counter) : Word := c.setWidth 16

/-- `zext_16` of a pulse length, which fits in 12 bits (R163). -/
def lengthWord (n : Nat) : Word := BitVec.ofNat 16 n

end Sys2Proof.Machine
end

