-- ==== Sys2Proof/Machine/Ops.lean ====
section
/-! DEFINITION. The named operations over the register bank and the bus: the bank's canonical form, store and load
(R45 to R48), the two bus transactions (R42, R43, R49 to R51), the response and the ONE error entry (R184), the reset
of the block (R32) and EnableAutoIncrement (R52). -/

namespace Sys2Proof.Machine

variable {E : Type}

/-! ### The two windows -/

/-- Where a register address lies (R33, R64). -/
inductive Window where
  /-- byte `offset` of the channel window, 0 to 63 -/
  | channel (offset : Nat)
  /-- byte `j` of the broadcast slot, 0 to 3 -/
  | broadcast (j : Nat)
  /-- one of the 188 locations out of scope (R64) -/
  | outside
deriving DecidableEq, Repr

/-- The window of a register address. -/
def windowOf (c : Config) (a : Address) : Window :=
  if c.chBase.toNat ≤ a.toNat ∧ a.toNat < c.chBase.toNat + nbulk then .channel (a.toNat - c.chBase.toNat)
  else if c.allBase.toNat ≤ a.toNat ∧ a.toNat < c.allBase.toNat + nslot then .broadcast (a.toNat - c.allBase.toNat)
  else .outside

/-- Whether `n` bytes from `p` on lie in one window (R53). -/
def reaches (c : Config) (p : Address) (n : Nat) : Bool :=
  (c.chBase.toNat ≤ p.toNat && p.toNat + n ≤ c.chBase.toNat + nbulk) ||
    (c.allBase.toNat ≤ p.toNat && p.toNat + n ≤ c.allBase.toNat + nslot)

/-! ### The bank as a canonical list -/

/-- What an address not listed reads as: the family's power-up byte, 0x10 in an OFF high byte (full-off set) and 0
elsewhere. PRESUMED (G3; log 2, log 3). -/
def unlistedByte (c : Config) (a : Nat) : Byte :=
  if c.chBase.toNat ≤ a ∧ a < c.chBase.toNat + nbulk ∧ (a - c.chBase.toNat) % 4 = 3 then 0x10 else 0

/-- The byte listed at an address. -/
def Memory.lookup : Memory → Nat → Option Byte
  | [], _ => none
  | (k, v) :: m, a => if k = a then some v else Memory.lookup m a

/-- The byte of the bank at a register address. -/
def Memory.read (c : Config) (m : Memory) (a : Nat) : Byte := (Memory.lookup m a).getD (unlistedByte c a)

/-- Put an entry in its place by address. -/
def Memory.insertCell : Memory → Nat → Byte → Memory
  | [], a, b => [(a, b)]
  | (k, v) :: m, a, b => if a < k then (a, b) :: (k, v) :: m else (k, v) :: Memory.insertCell m a b

/-- Take out the entries of an address. -/
def Memory.removeCell (m : Memory) (a : Nat) : Memory := m.filter fun x => x.1 != a

/-- Write one byte, keeping the canonical form: the byte an unlisted address reads as is not listed. -/
def Memory.write (c : Config) (m : Memory) (a : Nat) (b : Byte) : Memory :=
  if b = unlistedByte c a then Memory.removeCell m a else Memory.insertCell (Memory.removeCell m a) a b

/-- The canonical form: addresses strictly rising, no entry equal to what an unlisted address reads as. -/
abbrev Memory.wf (c : Config) (m : Memory) : Prop :=
  (m.map Prod.fst).Pairwise (· < ·) ∧ ∀ x ∈ m, x.2 ≠ unlistedByte c x.1

/-! ### store and load -/

/-- `keep(a, d)` of R46, by the byte's place in the channel window: a low byte is stored whole; of a high byte the
reserved bits 7:5 are kept only if `RSVD_STORED`. -/
def keep (c : Config) (offset : Nat) (d : Byte) : Byte :=
  if offset % 2 = 0 then d else if c.rsvdStored then d else d &&& 0x1F

/-- R45: `bank[a] <- keep(a, d)` in the channel window. -/
def storeChannel (c : Config) (m : Memory) (offset : Nat) (d : Byte) : Memory :=
  Memory.write c m (c.chBase.toNat + offset) (keep c offset d)

/-- R47: a byte written to byte `j` of the broadcast slot goes to byte `j` of every channel. -/
def storeBroadcast (c : Config) (m : Memory) (j : Nat) (d : Byte) : Memory :=
  (List.range nch).foldl (fun m n => storeChannel c m (4 * n + j) d) m

/-- `store(a, d)`, R45 and R47. No transaction reaches an address outside the windows (`reaches`). -/
def storeByte (c : Config) (m : Memory) (a : Address) (d : Byte) : Memory :=
  match windowOf c a with
  | .channel o => storeChannel c m o d
  | .broadcast j => storeBroadcast c m j d
  | .outside => m

/-- R42: `store(p+i, d_i)` for each data byte, in order. -/
def storeBytes (c : Config) : Memory → Address → List Byte → Memory
  | m, _, [] => m
  | m, a, d :: ds => storeBytes c (storeByte c m a d) (a + 1) ds

/-- One draw of R48: the next byte the state supplies, else a free value (log 8). -/
def drawSlotByte (s : State E) : Byte × State E :=
  match s.slotDraws with
  | d :: ds => (d, { s with slotDraws := ds })
  | [] => (Config.freeByte s.freeCount, { s with freeCount := s.freeCount + 1 })

/-- `load(a)`, R48: the bank's byte in the channel window, a fresh draw in the broadcast window. -/
def loadByte (a : Address) (s : State E) : Byte × State E :=
  match windowOf s.config a with
  | .channel _ => (Memory.read s.config s.bank a.toNat, s)
  | .broadcast _ => drawSlotByte s
  | .outside => drawSlotByte s

/-- R43: `[load(p), load(p+1), .., load(p+n-1)]`, in that order. -/
def loadBytes : Nat → Address → State E → List Byte × State E
  | 0, _, s => ([], s)
  | n + 1, a, s =>
    let r := loadByte a s
    let rs := loadBytes n (a + 1) r.2
    (r.1 :: rs.1, rs.2)

/-! ### Views of the bank -/

/-- `bank[a]`: the byte the register bank holds at a register address (R13). -/
def State.byteAt (s : State E) (a : Address) : Byte := Memory.read s.config s.bank a.toNat

/-- `CHn_ON` and `CHn_OFF` (R22): `{bank[addr(n,K)+1], bank[addr(n,K)]}`. -/
def State.reg (s : State E) (n : Nat) (k : Kind) : Word :=
  le16 (s.byteAt (addrOf s.config (.one n) k)) (s.byteAt (highAddrOf s.config (.one n) k))

/-! ### Ending a command -/

/-- What every end of a command does: the block is idle again (R27), a reset still to come is past, and `BUF` holds
bytes nobody specifies (R27; log 4). -/
def release (s : State E) : State E :=
  { s with
    phase := .idle
    resetAfter := none
    buf := (List.range bufSize).map (Config.freeBuffer s.freeCount)
    freeCount := s.freeCount + 1 }

/-- The reset of the block (R32, R210): `PHASE` idle, `BUF` unspecified; no bus transaction, no response; the bank and
`AI` are not touched. -/
def resetBlock (s : State E) : State E := { release s with position := 0 }

/-- Whether the reset the host chose for this command arrives now (R32; log 9). -/
def resetDue (s : State E) : Bool := s.resetAfter == some 0

/-- End the command with a response (R90), unless the block is reset first: then the command is abandoned and no
response is emitted (R32). -/
def respond (r : Response E) (s : State E) : State E :=
  if resetDue s then resetBlock s else release { s with responses := s.responses ++ [r] }

/-- `respond OK(w0, .., wk)` of R13. -/
def respondOk (data : List Word) (s : State E) : Host.Outcome (State E) Fault Refusal := .next (respond (.ok data) s)

/-- The response of an error (R90, R180). -/
def CommandError.response : CommandError E → Response E
  | .invalidInput => .invalidInput
  | .transport e => .transport e
  | .illegalCommand => .illegalCommand

/-- Error entry, one for all errors (R184): no further transaction, the response with the status and for Transport the
word `e`, back to idle; nothing is saved and control goes nowhere. There is nothing to return from (R187): the block
takes the next command exactly as after an OK. -/
def raise (err : CommandError E) (s : State E) : Host.Outcome (State E) Fault Refusal := .next (respond err.response s)

/-- The status code of R90: bits 1:0 of the status word. -/
def statusCode : Response E → Word
  | .ok _ => 0
  | .invalidInput => 1
  | .transport _ => 2
  | .illegalCommand => 3

/-- The response packet of R90: the status word, then the data words; for Transport the one word `e` (`E` at its
default). -/
def responseWords : Response → List Word
  | .ok data => 0 :: data
  | .invalidInput => [1]
  | .transport e => [2, e]
  | .illegalCommand => [3]

/-! ### Bus transactions -/

/-- How a transaction ends, for the command that issued it. -/
inductive BusResult (E α : Type) where
  /-- answered ok -/
  | done (a : α) (s : State E)
  /-- answered `fail(e)`, R50 -/
  | failed (e : E) (s : State E)
  /-- the block was reset before the transaction was issued, R32 -/
  | abandoned (s : State E)
  /-- outside the windows -/
  | faulted (r : Fault)
  /-- given no meaning, R49 -/
  | refused (r : Refusal)

/-- The frame on the wire of a transaction's write phase: the register pointer first (R41, R42, R73, R74). -/
def wireFrame : Transaction → List Byte
  | .write p data => p :: data
  | .writeRead p _ => [p]

/-- `BUF` with new bytes at its front (R27). -/
def fillBuffer (bytes old : List Byte) : List Byte := bytes ++ old.drop bytes.length

/-- A transaction goes out: it enters the bus trace, its frame is assembled in `BUF`, its write phase sets the chip's
register pointer (R9, R27, R28), and a reset on its way is one transaction nearer (R32; log 9). -/
def issue (t : Transaction) (s : State E) : State E :=
  { s with
    trace := s.trace ++ [t]
    buf := fillBuffer (wireFrame t) s.buf
    pointer := (match t with | .write p _ => p | .writeRead p _ => p)
    resetAfter := s.resetAfter.map (· - 1) }

/-- The bus target's answer where the state supplies none: a free value (log 7). -/
def freeAnswer (E : Type) (n : Nat) : BusAnswer E :=
  match Config.freeFailure E n with
  | none => .ok
  | some (e, m) => .fail e m

/-- The bus target's next answer (R10, R50): the next the state supplies, else a free value. -/
def takeAnswer (s : State E) : BusAnswer E × State E :=
  match s.answers with
  | a :: as => (a, { s with answers := as })
  | [] => (freeAnswer E s.freeCount, { s with freeCount := s.freeCount + 1 })

/-- R21: the sequencer position "advances by one at each transaction that succeeds". -/
def advance (s : State E) : State E := { s with position := s.position + 1 }

/-- What stops a transaction from being issued, if anything: a reset of the block (R32), an address outside the windows
(R53), more than one data byte while `AI` = 0 (R49). -/
def checked {α : Type} (p : Address) (n : Nat) (s : State E) (go : BusResult E α) : BusResult E α :=
  if resetDue s then .abandoned (resetBlock s)
  else if reaches s.config p n = false then .faulted (.unmappedRegister p)
  else if 1 < n ∧ s.ai = false then .refused .autoIncrementOff
  else go

/-- `BusWrite(p, data)`: R42 when it is answered ok; when it fails, a prefix of the data was stored (R51). -/
def busWrite (p : Address) (data : List Byte) (s : State E) : BusResult E Unit :=
  checked p data.length s <|
    match takeAnswer (issue (.write p data) s) with
    | (.ok, s1) => .done () (advance { s1 with bank := storeBytes s1.config s1.bank p data })
    | (.fail e m, s1) => .failed e { s1 with bank := storeBytes s1.config s1.bank p (data.take m) }

/-- `BusWriteRead(p, n)`: R43. Whatever the answer, the bank does not change. -/
def busWriteRead (p : Address) (n : Nat) (s : State E) : BusResult E (List Byte) :=
  checked p n s <|
    match takeAnswer (issue (.writeRead p n) s) with
    | (.ok, s1) =>
      let r := loadBytes n p s1
      .done r.1 (advance { r.2 with buf := fillBuffer r.1 r.2.buf })
    | (.fail e _, s1) => .failed e s1

/-- `try X` of R13: the first failure ends the command with Transport(e) and nothing more is issued (R110). -/
def tryBus {α : Type} (r : BusResult E α) (go : α → State E → Host.Outcome (State E) Fault Refusal) :
    Host.Outcome (State E) Fault Refusal :=
  match r with
  | .done a s => go a s
  | .failed e s => raise (.transport e) s
  | .abandoned s => .next s
  | .faulted f => .fault f
  | .refused x => .refused x

/-- The transport's two entry points (R41): what a transaction is on the serial bus, with the device's address. -/
inductive TransportCall where
  /-- `write(address, bytes)` -/
  | write (address : Nat) (bytes : List Byte)
  /-- `write_then_read(address, write_bytes, read_buffer)`, the buffer by its length -/
  | writeThenRead (address : Nat) (bytes : List Byte) (length : Nat)
deriving DecidableEq, Repr

/-- R41: `BusWrite` is `write(DEV_ADDR, [p, d0, ..])`, `BusWriteRead` is `write_then_read(DEV_ADDR, [p], n bytes)`. -/
def transportCall : Transaction → TransportCall
  | .write p data => .write Config.devAddr (wireFrame (.write p data))
  | .writeRead p n => .writeThenRead Config.devAddr (wireFrame (.writeRead p n)) n

/-! ### The host's actions -/

/-- R52: `EnableAutoIncrement`: on ok `AI <- 1`, on failure `AI` is unchanged; no byte of the window is touched, no
response (R94) and no transaction of the block. -/
def enableAutoIncrement (s : State E) : State E :=
  match takeAnswer s with
  | (.ok, s1) => { s1 with ai := true }
  | (.fail _ _, s1) => s1

/-- R27: accepting a command sets BUSY; R21: the sequencer position is 0 when a command starts. -/
def accept (resetAfter : Option Nat) (rest : List HostAction) (s : State E) : State E :=
  { s with phase := .busy, position := 0, resetAfter := resetAfter, inbox := rest }

/-- The next command of the host's queue: a packet, presented while the block is idle. AI on and, where the state
supplies no answers, a bus that answers the command's transactions are the boot requirements of R212 (log 10). -/
def present (p : Packet) (s : State E) : State E :=
  { s with
    phase := .idle
    ai := true
    inbox := .command p none :: s.inbox
    answers := (match s.answers with | [] => [.ok, .ok] | a :: as => a :: as) }

end Sys2Proof.Machine
end

