-- ==== Sys2Proof/Machine/AddressMapper.lean ====
section
/-! DEFINITION. channel_address_mapper: the command ADDR (R100). -/

namespace Sys2Proof.Machine

variable {E : Type}

/-- ADDR, R100: `respond OK(zext_16(addr(ch, K)))`. No bus transaction. -/
def execAddr (ch : Channel) (k : Kind) (s : State E) : Host.Outcome (State E) Fault Refusal :=
  respondOk [addressWord (addrOf s.config ch k)] s

end Sys2Proof.Machine
end

