-- ==== Sys2Proof/Machine/Bulk.lean ====
section
/-! DEFINITION. bulk_transfer_framer: RDALL and WRALL (R140 to R142), each one transaction of 64 data bytes at
`CH_BASE`. -/

namespace Sys2Proof.Machine

variable {E : Type}

/-- RDALL, R141: read 64 bytes, answer the 32 values, little-endian, nothing masked. -/
def execRdall (s : State E) : Host.Outcome (State E) Fault Refusal :=
  tryBus (busWriteRead s.config.chBase nbulk s) fun bs s1 =>
    respondOk ((List.range ndr).map (wordAt bs)) s1

/-- WRALL, R142: reject a count other than 32 before any bus access; one raw write of the 64 bytes. -/
def execWrall (values : List Word) (s : State E) : Host.Outcome (State E) Fault Refusal :=
  if values.length = ndr then
    tryBus (busWrite s.config.chBase (wordBytes values) s) fun _ s1 => respondOk [] s1
  else raise .invalidInput s

end Sys2Proof.Machine
end

