-- ==== Sys2Proof/Machine/Codec.lean ====
section
/-! DEFINITION. The channel codec: GETC, SETC, SETF, SETONOFF, GETONOFF (R110 to R117). Each is decode (done before),
validate, act, respond, in the order of R110. -/

namespace Sys2Proof.Machine

variable {E : Type}

/-- GETC, R112: read two bytes, answer the counter; the flag and the reserved bits are discarded. -/
def execGetc (ch : Channel) (k : Kind) (s : State E) : Host.Outcome (State E) Fault Refusal :=
  tryBus (busWriteRead (addrOf s.config ch k) 2 s) fun bs s1 =>
    respondOk [counterWord (counter (wordAt bs 0))] s1

/-- SETC, R113: reject a value above 4095 before any bus access; read the high byte, write both bytes merged. -/
def execSetc (ch : Channel) (k : Kind) (value : Word) (s : State E) : Host.Outcome (State E) Fault Refusal :=
  if counterInRange value then
    tryBus (busWriteRead (highAddrOf s.config ch k) 1 s) fun bs s1 =>
      tryBus (busWrite (addrOf s1.config ch k) (wordBytes [merge (bs.getD 0 0) value]) s1) fun _ s2 =>
        respondOk [] s2
  else raise .invalidInput s

/-- SETF, R115: read the high byte; write it back with bit 4 changed only if the flag differs. -/
def execSetf (ch : Channel) (k : Kind) (f : Bool) (s : State E) : Host.Outcome (State E) Fault Refusal :=
  tryBus (busWriteRead (highAddrOf s.config ch k) 1 s) fun bs s1 =>
    if highFlag (bs.getD 0 0) = f then respondOk [] s1
    else
      tryBus (busWrite (highAddrOf s1.config ch k) [withHighFlag (bs.getD 0 0) f] s1) fun _ s2 =>
        respondOk [] s2

/-- SETONOFF, R116: reject if either value is above 4095; one blind write of four bytes, which clears both flags. -/
def execSetonoff (ch : Channel) (onV offV : Word) (s : State E) : Host.Outcome (State E) Fault Refusal :=
  if counterInRange onV && counterInRange offV then
    tryBus (busWrite (addrOf s.config ch .on) (wordBytes [onV, offV]) s) fun _ s1 => respondOk [] s1
  else raise .invalidInput s

/-- GETONOFF, R117: one read of four bytes, both words answered as read. -/
def execGetonoff (ch : Channel) (s : State E) : Host.Outcome (State E) Fault Refusal :=
  tryBus (busWriteRead (addrOf s.config ch .on) 4 s) fun bs s1 => respondOk [wordAt bs 0, wordAt bs 1] s1

end Sys2Proof.Machine
end

