-- ==== Sys2Proof/Machine/Pulse.lean ====
section
/-! DEFINITION. pulse_width_calculator: PLEN, PLENPLAIN, GETPULSE (R161, R162, R164). -/

namespace Sys2Proof.Machine

variable {E : Type}

/-- PLEN, R161: the effective pulse length of two raw words. No bus transaction. -/
def execPlen (onT offT : Word) (s : State E) : Host.Outcome (State E) Fault Refusal :=
  respondOk [lengthWord (pulse onT offT)] s

/-- PLENPLAIN, R162: the counted pulse length alone; bits 15:12 of both operands are ignored. No bus transaction. -/
def execPlenplain (onV offV : Word) (s : State E) : Host.Outcome (State E) Fault Refusal :=
  respondOk [lengthWord (plain onV offV)] s

/-- GETPULSE, R164: the read of GETONOFF, then PLEN of what was read. -/
def execGetpulse (ch : Channel) (s : State E) : Host.Outcome (State E) Fault Refusal :=
  tryBus (busWriteRead (addrOf s.config ch .on) 4 s) fun bs s1 =>
    respondOk [lengthWord (pulse (wordAt bs 0) (wordAt bs 1))] s1

end Sys2Proof.Machine
end

