-- ==== Sys2Proof/Machine/Dispatch.lean ====
section
/-! DEFINITION. The meaning of each command: one arm per constructor of Instr. -/

namespace Sys2Proof.Machine

def exec (i : Instr) (s : State) : Host.Outcome State Fault Refusal :=
  match i with
  | .addr ch k => Sys2Proof.Machine.execAddr ch k s
  | .getc ch k => Sys2Proof.Machine.execGetc ch k s
  | .setc ch k value => Sys2Proof.Machine.execSetc ch k value s
  | .setf ch k f => Sys2Proof.Machine.execSetf ch k f s
  | .setonoff ch onV offV => Sys2Proof.Machine.execSetonoff ch onV offV s
  | .getonoff ch => Sys2Proof.Machine.execGetonoff ch s
  | .rdall => Sys2Proof.Machine.execRdall s
  | .wrall values => Sys2Proof.Machine.execWrall values s
  | .plen onT offT => Sys2Proof.Machine.execPlen onT offT s
  | .plenplain onV offV => Sys2Proof.Machine.execPlenplain onV offV s
  | .getpulse ch => Sys2Proof.Machine.execGetpulse ch s

end Sys2Proof.Machine
end

