-- ==== Sys2Proof/Machine/Sequencer.lean ====
section
/-! DEFINITION. What a step does around a command: it takes the next action of the host (R8, R9), decodes a packet and
runs it from IDLE to IDLE (R27). The running of a decoded command is an argument, so that this is said once for every
type of error values (R7). -/

namespace Sys2Proof.Machine

variable {E : Type}

/-- An accepted packet: a legal one is executed; an illegal one ends in IllegalCommand before any validation and any
bus access (R86, R110, R183). -/
def runPacket (run : Instr → State E → Host.Outcome (State E) Fault Refusal) (p : Packet) (s : State E) :
    Host.Outcome (State E) Fault Refusal :=
  match decode p with
  | .ok i => run i s
  | .error _ => raise .illegalCommand s

/-- The step, given how a decoded command runs. A busy block accepts nothing (R27, D24); an idle block with nothing
presented waits (R8, R210; log 6). -/
def stepWith (run : Instr → State E → Host.Outcome (State E) Fault Refusal) (s : State E) :
    Host.Outcome (State E) Fault Refusal :=
  match s.phase with
  | .busy => .next s
  | .idle =>
    match s.inbox with
    | [] => .next s
    | .command p r :: rest => runPacket run p (accept r rest s)
    | .enableAutoIncrement :: rest => .next (enableAutoIncrement { s with inbox := rest })
    | .resetBlock :: rest => .next (resetBlock { s with inbox := rest })

end Sys2Proof.Machine
end

