-- ==== Sys2Proof/Machine/Step.lean ====
section
/-! DEFINITION. One step, and the presenting of one command. -/

namespace Sys2Proof.Machine

/-- The step: the next action of the host, a command from IDLE to IDLE. -/
def step : State → Host.Outcome State Fault Refusal := stepWith exec

/-- The state with the command whose bits are `w` presented next (log 10, log 11). -/
def State.withFetchWord (s : State) (nbits w : Nat) : State := present (tablePacket nbits w) s

end Sys2Proof.Machine
end

