-- ==== Sys2Proof/Machine/AnyError.lean ====
section
/-! DEFINITION. The same machine for every type `E` of error values (R7, R29: a parameter of the step relation). -/

namespace Sys2Proof.Machine

variable {E : Type}

/-- The meaning of a command, with `E` an argument; `exec` is this at the default of R7. -/
def execFor (i : Instr) (s : State E) : Host.Outcome (State E) Fault Refusal :=
  match i with
  | .addr ch k => Sys2Proof.Machine.execAddr ch k s
  | .getc ch k => Sys2Proof.Machine.execGetc ch k s
  | .setc ch k value => Sys2Proof.Machine.execSetc ch k value s
  | .setf ch k f => Sys2Proof.Machine.execSetf ch k f s
  | .setonoff ch onV offV => Sys2Proof.Machine.execSetonoff ch onV offV s
  | .getonoff ch => Sys2Proof.Machine.execGetonoff ch s
  | .rdall => Sys2Proof.Machine.execRdall s
  | .wrall values => Sys2Proof.Machine.execWrall values s
  | .plen onT offT => Sys2Proof.Machine.execPlen onT offT s
  | .plenplain onV offV => Sys2Proof.Machine.execPlenplain onV offV s
  | .getpulse ch => Sys2Proof.Machine.execGetpulse ch s

/-- The step with `E` an argument; `step` is this at the default of R7. -/
def stepFor (s : State E) : Host.Outcome (State E) Fault Refusal := stepWith execFor s

/-- An answer with its error value renamed. -/
def BusAnswer.mapError {F : Type} (f : E → F) : BusAnswer E → BusAnswer F
  | .ok => .ok
  | .fail e m => .fail (f e) m

/-- A response with its error value renamed. -/
def Response.mapError {F : Type} (f : E → F) : Response E → Response F
  | .ok data => .ok data
  | .invalidInput => .invalidInput
  | .transport e => .transport (f e)
  | .illegalCommand => .illegalCommand

/-- The state with every error value in it renamed. -/
def State.mapError {F : Type} (f : E → F) (s : State E) : State F :=
  { config := s.config, phase := s.phase, buf := s.buf, position := s.position, resetAfter := s.resetAfter,
    bank := s.bank, ai := s.ai, pointer := s.pointer, responses := s.responses.map (Response.mapError f),
    trace := s.trace, inbox := s.inbox, answers := s.answers.map (BusAnswer.mapError f), slotDraws := s.slotDraws,
    freeCount := s.freeCount }

/-- An outcome with every error value in its state renamed. -/
def mapErrorOutcome {F : Type} (f : E → F) :
    Host.Outcome (State E) Fault Refusal → Host.Outcome (State F) Fault Refusal
  | .next s => .next (s.mapError f)
  | .fault r => .fault r
  | .refused r => .refused r

end Sys2Proof.Machine
end

