-- ==== Sys2Proof/Machine/Assembler.lean ====
section
/-! DEFINITION. The assembler syntax of R93 and the pseudo-instructions of R94. -/

namespace Sys2Proof.Machine

/-- The pseudo-instructions of R94. -/
inductive Pseudo where
  | seton (ch : Channel) (v : Word)
  | setoff (ch : Channel) (v : Word)
  | geton (ch : Channel)
  | getoff (ch : Channel)
  | fullon (ch : Channel) (f : Bool)
  | fulloff (ch : Channel) (f : Bool)
  | eai
deriving DecidableEq, Repr

/-- What a pseudo-instruction expands to (R94): a command of the host, or for `EAI` the environment action. -/
def expandPseudo : Pseudo → HostAction
  | .seton ch v => .command (encode (.setc ch .on v)) none
  | .setoff ch v => .command (encode (.setc ch .off v)) none
  | .geton ch => .command (encode (.getc ch .on)) none
  | .getoff ch => .command (encode (.getc ch .off)) none
  | .fullon ch f => .command (encode (.setf ch .on f)) none
  | .fulloff ch f => .command (encode (.setf ch .off f)) none
  | .eai => .enableAutoIncrement

/-- `ch0` .. `ch15` or `all` (R93). -/
def channelText : Channel → String
  | .one n => "ch" ++ toString n
  | .all => "all"

/-- The suffix of a kind (R93). -/
def kindText : Kind → String
  | .on => ".ON"
  | .off => ".OFF"

/-- A value in decimal (R93 allows decimal and hex; log 25). -/
def valueText (w : Word) : String := toString w.toNat

/-- A flag value: 0 or 1 (R93). -/
def flagText : Bool → String
  | false => "0"
  | true => "1"

/-- The source line of a command (R93). -/
def commandText : Instr → String
  | .addr ch k => "ADDR" ++ kindText k ++ " " ++ channelText ch
  | .getc ch k => "GETC" ++ kindText k ++ " " ++ channelText ch
  | .setc ch k v => "SETC" ++ kindText k ++ " " ++ channelText ch ++ ", " ++ valueText v
  | .setf ch k f => "SETF" ++ kindText k ++ " " ++ channelText ch ++ ", " ++ flagText f
  | .setonoff ch v1 v2 => "SETONOFF " ++ channelText ch ++ ", " ++ valueText v1 ++ ", " ++ valueText v2
  | .getonoff ch => "GETONOFF " ++ channelText ch
  | .rdall => "RDALL"
  | .wrall [] => "WRALL"
  | .wrall (v :: vs) => "WRALL " ++ ", ".intercalate ((v :: vs).map valueText)
  | .plen v1 v2 => "PLEN " ++ valueText v1 ++ ", " ++ valueText v2
  | .plenplain v1 v2 => "PLENPLAIN " ++ valueText v1 ++ ", " ++ valueText v2
  | .getpulse ch => "GETPULSE " ++ channelText ch

end Sys2Proof.Machine
end

