-- ==== Sys2Proof/Safety.lean ====
section
/-! DEFINITION. What claims are stated in: the invariant of the machine, when nothing outside interferes with a
command, and how an outcome is read. -/

namespace Sys2Proof.Machine

/-- Every listed byte is in the channel window and is one the bank can hold: with `RSVD_STORED` false the reserved bits
of a high byte read as 0 (R44, R46). -/
abbrev bankLegal (c : Config) (m : Memory) : Prop :=
  ∀ x ∈ m, c.chBase.toNat ≤ x.1 ∧ x.1 < c.chBase.toNat + nbulk ∧ keep c (x.1 - c.chBase.toNat) x.2 = x.2

/-- The register pointer of a transaction. -/
def Transaction.pointer : Transaction → Address
  | .write p _ => p
  | .writeRead p _ => p

/-- How many data bytes a transaction moves. -/
def Transaction.size : Transaction → Nat
  | .write _ data => data.length
  | .writeRead _ n => n

/-- R104: every byte of a transaction is at one of the 68 addresses. -/
abbrev inWindows (c : Config) (t : Transaction) : Prop := reaches c t.pointer t.size = true

/-- Which data byte of a write of `data` at pointer `p` goes to register address `a`, if any (R42, R45, R47): in the
channel window byte `a - p`; from the broadcast window byte `j` goes to byte `j` of every channel. -/
def storedAt (c : Config) (p : Address) (data : List Byte) (a : Address) : Option Byte :=
  match windowOf c p, windowOf c a with
  | .channel q, .channel o => if q ≤ o then data[o - q]? else none
  | .broadcast j, .channel o => if j ≤ o % 4 then data[o % 4 - j]? else none
  | _, _ => none

/-- The place of an address in the channel window, for `keep` (R46). -/
def offsetOf (c : Config) (a : Address) : Nat := a.toNat - c.chBase.toNat

/-- What holds between commands: the parameters meet R7, the bank is canonical and holds only what it can hold, the
block is idle with no reset pending, `BUF` is 65 bytes (R27), and every transaction ever issued stayed in the windows
(R104). -/
abbrev Inv (s : State) : Prop :=
  s.config.wf ∧ Memory.wf s.config s.bank ∧ bankLegal s.config s.bank ∧ s.phase = .idle ∧ s.resetAfter = none ∧
    s.buf.length = bufSize ∧ ∀ t ∈ s.trace, inWindows s.config t

/-- The next `n` transactions are answered ok (R50): the premise "no transaction fails" of R118 and of the vectors. The
answers are all in the list, so nothing said under this premise rests on what an exhausted list answers (log 7). -/
abbrev AnswersOk (n : Nat) (s : State) : Prop := s.answers.take n = List.replicate n .ok

/-- Nothing interferes with the command: the parameters meet R7, no reset of the block arrives (R32) and the next `n`
transactions succeed. Other agents have no move in the model at all (R61, D23; log 17). -/
abbrev Undisturbed (n : Nat) (s : State) : Prop := s.config.wf ∧ s.resetAfter = none ∧ AnswersOk n s

/-- The command completes: it answers a next state, and what is said of that state holds. -/
def Completes (o : Host.Outcome State Fault Refusal) (P : State → Prop) : Prop := ∃ t, o = .next t ∧ P t

/-- The channels a write to `ch` reaches: the one, or all sixteen (R47). -/
def channelsOf : Channel → List Nat
  | .one n => [n]
  | .all => List.range nch

/-- What every command leaves as it was and ends in: the parameters, auto-increment (R26) and the host's queue are
untouched, the block is idle with no reset pending (R27, R184). -/
abbrev Frame (s t : State) : Prop :=
  t.config = s.config ∧ t.ai = s.ai ∧ t.inbox = s.inbox ∧ t.phase = .idle ∧ t.resetAfter = none

/-- A command that issued no transaction and answered `r`: beyond the response nothing of the bus target, of the trace
or of the draws to come has moved. -/
abbrev AnsweredAlone (r : Response) (s t : State) : Prop :=
  t.responses = s.responses ++ [r] ∧ t.trace = s.trace ∧ t.bank = s.bank ∧ t.pointer = s.pointer ∧
    t.position = s.position ∧ t.answers = s.answers ∧ t.slotDraws = s.slotDraws ∧ Frame s t

/-- A command whose first transaction was a read of `n` bytes at `p` that failed with `e` (R50, R182): no data, nothing
stored, nothing more issued; the one answer is used up and no byte is drawn. -/
abbrev FailedAtRead (p : Address) (n : Nat) (e : ErrorCode) (s t : State) : Prop :=
  t.responses = s.responses ++ [.transport e] ∧ t.trace = s.trace ++ [.writeRead p n] ∧ t.bank = s.bank ∧
    t.answers = s.answers.tail ∧ t.slotDraws = s.slotDraws ∧ Frame s t

/-- Every byte but the pair of register `k` of the channels of `ch` reads as before. -/
abbrev OnlyPair (ch : Channel) (k : Kind) (s t : State) : Prop :=
  ∀ x : Address, (∀ n ∈ channelsOf ch, x ≠ addrOf s.config (.one n) k ∧ x ≠ highAddrOf s.config (.one n) k) →
    t.byteAt x = s.byteAt x

/-- Every byte but the high byte of register `k` of the channels of `ch` reads as before. -/
abbrev OnlyHighByte (ch : Channel) (k : Kind) (s t : State) : Prop :=
  ∀ x : Address, (∀ n ∈ channelsOf ch, x ≠ highAddrOf s.config (.one n) k) → t.byteAt x = s.byteAt x

/-- Every byte but the four of the channels of `ch` reads as before. -/
abbrev OnlyChannel (ch : Channel) (s t : State) : Prop :=
  ∀ x : Address, (∀ n ∈ channelsOf ch, ∀ k, x ≠ addrOf s.config (.one n) k ∧ x ≠ highAddrOf s.config (.one n) k) →
    t.byteAt x = s.byteAt x

/-- Every byte outside the channel window reads as before. -/
abbrev OnlyWindow (s t : State) : Prop :=
  ∀ x : Address, (x.toNat < s.config.chBase.toNat ∨ s.config.chBase.toNat + 64 ≤ x.toNat) → t.byteAt x = s.byteAt x

/-- The state after an outcome, if there is one. -/
def nextState : Host.Outcome State Fault Refusal → Option State
  | .next s => some s
  | .fault _ => none
  | .refused _ => none

/-- A safe run of `n` steps ends in a state: no fault and no refusal on the way. -/
def safeRun : Nat → State → Bool
  | 0, _ => true
  | n + 1, s =>
    match step s with
    | .next t => safeRun n t
    | .fault _ => false
    | .refused _ => false

end Sys2Proof.Machine
end

