-- ==== Sys2Proof/Certificates/Slice0/Obligations.lean ====
section
/-! DEFINITION. The statements for the provers. Each says in its docstring which rules of spec/ it formalises. -/

open Sys2Proof Sys2Proof.Machine

/-! ### Encoding -/

/-- Every command that can be spelled is read back from its packet, whatever its operands (R80 to R86). -/
def Obligations.DecodeOfEncodeReturnsTheInstruction : Prop :=
  ∀ i : Instr, i.wf = true → decode (encode i) = .ok i

/-- Every legal packet is the one encoding of the command it spells (R81 to R84, R86). -/
def Obligations.EncodeOfDecodeReturnsThePacket : Prop :=
  ∀ (p : Packet) (i : Instr), decode p = .ok i → i.wf = true ∧ encode i = p

/-- R83: "A header `H` selects the row whose `H & mask = match`; at most one row matches": no two rows overlap, and the
row a legal packet selects is its command's. -/
def Obligations.HeaderSelectsAtMostOneRow : Prop :=
  (∀ (h : Word) (op op' : Op), h &&& op.maskWord = op.matchWord → h &&& op'.maskWord = op'.matchWord → op = op') ∧
    ∀ (p : Packet) (i : Instr), decode p = .ok i →
      ∀ op : Op, p.header &&& op.maskWord = op.matchWord ↔ op = i.op

/-- R86: the seven causes, in numbers of the header word; and R183: a packet that is illegal ends in IllegalCommand with
nothing touched, from every idle state in which it is next (no reset of the block arriving). -/
def Obligations.PacketIsIllegalExactlyForTheSevenCauses : Prop :=
  ∀ p : Packet,
    ((∃ c, decode p = .error c) ↔
      (let op := p.header.toNat / 4096
       let k := p.header.toNat / 2048 % 2
       let f := p.header.toNat / 1024 % 2
       let rsv := p.header.toNat / 32 % 32
       let ch := p.header.toNat % 32
       let count := if op = 2 then 1 else if op = 4 ∨ op = 8 ∨ op = 9 then 2 else 0
       11 ≤ op ∨ rsv ≠ 0 ∨ (f = 1 ∧ op ≠ 3) ∨ (k = 1 ∧ 4 ≤ op) ∨ ((op ≤ 5 ∨ op = 10) ∧ 17 ≤ ch) ∨
         (6 ≤ op ∧ op ≤ 9 ∧ ch ≠ 0) ∨ (op ≠ 7 ∧ p.operands.length ≠ count))) ∧
    ∀ (s : State) (rest : List HostAction), s.phase = .idle → s.inbox = .command p none :: rest →
      (∃ c, decode p = .error c) →
      Completes (step s) fun t =>
        t.responses = s.responses ++ [.illegalCommand] ∧ t.trace = s.trace ∧ t.bank = s.bank ∧ t.ai = s.ai ∧
          t.pointer = s.pointer ∧ t.config = s.config ∧ t.answers = s.answers ∧ t.slotDraws = s.slotDraws ∧
          t.inbox = rest ∧ t.phase = .idle ∧ responseWords .illegalCommand = [3]

/-- Words of 30_encoding.md and 95_test_vectors.md decode to the commands they stand for (a sanity statement). -/
def Obligations.WordsOfTheSpecDecodeToTheirCommands : Prop :=
  decode { header := 0x0803, operands := [] } = .ok (.addr (.one 3) .off) ∧
  decode { header := 0x2003, operands := [0x03E8] } = .ok (.setc (.one 3) .on 1000) ∧
  decode { header := 0x3C0F, operands := [] } = .ok (.setf (.one 15) .off true) ∧
  decode { header := 0x4010, operands := [0x0000, 0x0800] } = .ok (.setonoff .all 0 2048) ∧
  decode { header := 0x8000, operands := [0x0FA0, 0x0064] } = .ok (.plen 4000 100) ∧
  decode { header := 0x6001, operands := [] } = .error .channelUnused

/-- R94: each pseudo-instruction is another spelling of one command; EAI is the environment action. -/
def Obligations.PseudoInstructionsSpellTheirCommands : Prop :=
  ∀ (ch : Channel) (v : Word) (f : Bool), ch.wf = true →
    (∃ p, expandPseudo (.seton ch v) = .command p none ∧ decode p = .ok (.setc ch .on v)) ∧
    (∃ p, expandPseudo (.setoff ch v) = .command p none ∧ decode p = .ok (.setc ch .off v)) ∧
    (∃ p, expandPseudo (.geton ch) = .command p none ∧ decode p = .ok (.getc ch .on)) ∧
    (∃ p, expandPseudo (.getoff ch) = .command p none ∧ decode p = .ok (.getc ch .off)) ∧
    (∃ p, expandPseudo (.fullon ch f) = .command p none ∧ decode p = .ok (.setf ch .on f)) ∧
    (∃ p, expandPseudo (.fulloff ch f) = .command p none ∧ decode p = .ok (.setf ch .off f)) ∧
    expandPseudo .eai = .enableAutoIncrement

/-! ### The step -/

/-- When the packet the host presents next decodes to `i`, the step of an idle block is `exec i` at the state that has
accepted it: the packet taken, `PHASE` busy, the sequencer position 0 (R9, R21, R27), and nothing else moved. The reset
the host may have chosen for this command is the model's input of log 9. -/
def Obligations.StepRunsTheDecodedInstruction : Prop :=
  ∀ (s : State) (p : Packet) (r : Option Nat) (rest : List HostAction) (i : Instr),
    s.phase = .idle → s.inbox = .command p r :: rest → decode p = .ok i →
    i.wf = true ∧
      step s = exec i { s with phase := .busy, position := 0, resetAfter := r, inbox := rest }

/-- R27, D24: a busy block accepts nothing; R8, R210: an idle block with nothing presented waits. That a step then leaves
the state as it was is the model's choice (log 6). -/
def Obligations.BlockWithNothingToAcceptWaits : Prop :=
  ∀ s : State, (s.phase = .busy ∨ s.inbox = []) → step s = .next s

/-- R52: `EnableAutoIncrement`: on ok `AI` is 1, on failure it is unchanged; no byte of the bank; on when it is on
already; only between commands. That it takes the bus target's next answer and leaves the trace and the responses as
they were is the model's reading (log 20), and that a step of a busy block answers the same state its choice (log 6). -/
def Obligations.EnableAutoIncrementSetsTheModeBitUnlessItFails : Prop :=
  ∀ (s : State) (rest : List HostAction), s.inbox = .enableAutoIncrement :: rest →
    (s.phase = .busy → step s = .next s) ∧
    (s.phase = .idle → Completes (step s) fun t =>
      (∀ as, s.answers = .ok :: as → t.ai = true ∧ t.answers = as) ∧
      (∀ e m as, s.answers = .fail e m :: as → t.ai = s.ai ∧ t.answers = as) ∧
      (s.ai = true → t.ai = true) ∧
      t.bank = s.bank ∧ t.trace = s.trace ∧ t.responses = s.responses ∧ t.config = s.config ∧ t.phase = .idle ∧
      t.buf = s.buf ∧ t.pointer = s.pointer ∧ t.slotDraws = s.slotDraws ∧ t.inbox = rest)

/-- R210: a reset of the block between commands: idle; no bus transaction, no response; the bank and `AI` untouched. -/
def Obligations.BlockResetTouchesNothingOfTheBusTarget : Prop :=
  ∀ (s : State) (rest : List HostAction), s.phase = .idle → s.inbox = .resetBlock :: rest →
    Completes (step s) fun t =>
      t.phase = .idle ∧ t.resetAfter = none ∧ t.bank = s.bank ∧ t.ai = s.ai ∧ t.trace = s.trace ∧
        t.responses = s.responses ∧ t.pointer = s.pointer ∧ t.config = s.config ∧ t.answers = s.answers ∧
        t.slotDraws = s.slotDraws ∧ t.inbox = rest

/-- R32: a reset of the block after `n` transactions of any command (where it arrives is an input of the model's own,
log 9) abandons it, whatever those transactions were answered: what they did stays applied, a prefix of a write that
failed included (R51, R216), no more are issued, no response is emitted, the block is idle; a command that ends before
the reset arrives is as without it. Compared with the same command without the reset, whose transactions are `new`. -/
def Obligations.ResetInMidCommandAbandonsTheRest : Prop :=
  ∀ (i : Instr) (s : State) (n : Nat), i.wf = true → s.config.wf → s.ai = true → s.resetAfter = some n →
    ∃ t t0 new, exec i s = .next t ∧ exec i { s with resetAfter := none } = .next t0 ∧
      t0.trace = s.trace ++ new ∧ t0.answers = s.answers.drop new.length ∧
      t.phase = .idle ∧ t.resetAfter = none ∧ t.ai = s.ai ∧ t.config = s.config ∧
      (n ≤ new.length →
        t.responses = s.responses ∧ t.trace = s.trace ++ new.take n ∧ t.answers = s.answers.drop n ∧
          t.bank = (if n < new.length then s.bank else t0.bank)) ∧
      (new.length < n →
        t.responses = t0.responses ∧ t.trace = t0.trace ∧ t.bank = t0.bank ∧ t.answers = t0.answers ∧
          t.slotDraws = t0.slotDraws)

/-! ### Whole-machine rules -/

/-- The invariant at every start of the model: the parameters and the start bank are what R7 and R46 admit, the rest is
as R32 and R34 say. The values of State.reset itself are the model's choice (log 1, log 2, log 3). -/
def Obligations.InvariantHoldsAtEveryStart : Prop :=
  Inv State.reset ∧
    ∀ (c : Config) (bank0 : Memory) (aiReset : Bool), c.wf → Memory.wf c bank0 → bankLegal c bank0 →
      let s0 : State := State.start c bank0 aiReset
      Inv s0 ∧ s0.responses = [] ∧ s0.trace = [] ∧ s0.ai = aiReset ∧ s0.bank = bank0

/-- From every state that meets the invariant, a step gives a state that meets it: the bank stays canonical and holds
only what it can hold (R46), the block is idle between commands (R27), `BUF` is 65 bytes, every transaction ever issued
is at the 68 addresses (R104). -/
def Obligations.EveryStepKeepsTheInvariant : Prop :=
  ∀ s t : State, Inv s → step s = .next t → Inv t

/-- R11, R53: the machine never faults, and the only run the model refuses is a multi-byte transaction without
auto-increment. So with auto-increment on every step answers a next state. -/
def Obligations.StepStopsOnlyForWantOfAutoIncrement : Prop :=
  ∀ s : State, Inv s →
    (∃ t, step s = .next t) ∨ (s.ai = false ∧ step s = .refused .autoIncrementOff)

/-- R213: with auto-increment off the commands with a multi-byte transaction are refused when they come to it (SETC
after its one-byte read), and SETF, ADDR, PLEN and PLENPLAIN complete. -/
def Obligations.MultiByteCommandsNeedAutoIncrement : Prop :=
  ∀ (s : State) (ch : Channel) (k : Kind), ch.wf = true → Undisturbed 2 s → s.ai = false →
    exec (.getc ch k) s = .refused .autoIncrementOff ∧
    exec (.getonoff ch) s = .refused .autoIncrementOff ∧
    exec (.getpulse ch) s = .refused .autoIncrementOff ∧
    exec .rdall s = .refused .autoIncrementOff ∧
    (∀ v : Word, v.toNat ≤ 4095 → exec (.setc ch k v) s = .refused .autoIncrementOff) ∧
    (∀ v w : Word, v.toNat ≤ 4095 → w.toNat ≤ 4095 → exec (.setonoff ch v w) s = .refused .autoIncrementOff) ∧
    (∀ vs : List Word, vs.length = 32 → exec (.wrall vs) s = .refused .autoIncrementOff) ∧
    (∀ f, ∃ t, exec (.setf ch k f) s = .next t ∧ t.responses = s.responses ++ [.ok []]) ∧
    (∃ t, exec (.addr ch k) s = .next t) ∧
    (∀ v w : Word, (∃ t, exec (.plen v w) s = .next t) ∧ ∃ t, exec (.plenplain v w) s = .next t)

/-- R26, D6: only EnableAutoIncrement changes `AI`, and nothing clears it; no step changes a parameter (R29). -/
def Obligations.NothingClearsAutoIncrement : Prop :=
  ∀ s t : State, step s = .next t →
    (s.ai = true → t.ai = true) ∧ t.config = s.config ∧
      (t.ai ≠ s.ai → ∃ rest, s.inbox = .enableAutoIncrement :: rest)

/-- R53: the full list of transactions a command issues: one byte at `addr(ch,K)+1`, two at `addr(ch,K)`, four at
`addr(ch,ON)`, 64 at `CH_BASE`, at most two in all; none crosses a window's end and no address wraps. -/
def Obligations.EveryTransactionIsOneOfTheFourAndStaysInItsWindow : Prop :=
  ∀ (i : Instr) (s t : State), i.wf = true → s.config.wf → exec i s = .next t →
    ∃ new, t.trace = s.trace ++ new ∧ new.length ≤ 2 ∧ ∀ x ∈ new,
      ((x.size = 1 ∧ ∃ ch k, ch.wf = true ∧ x.pointer = highAddrOf s.config ch k) ∨
        (x.size = 2 ∧ ∃ ch k, ch.wf = true ∧ x.pointer = addrOf s.config ch k) ∨
        (x.size = 4 ∧ ∃ ch, ch.wf = true ∧ x.pointer = addrOf s.config ch .on) ∨
        (x.size = 64 ∧ x.pointer = s.config.chBase)) ∧
      ((s.config.chBase.toNat ≤ x.pointer.toNat ∧ x.pointer.toNat + x.size ≤ s.config.chBase.toNat + 64) ∨
        (s.config.allBase.toNat ≤ x.pointer.toNat ∧ x.pointer.toNat + x.size ≤ s.config.allBase.toNat + 4)) ∧
      x.pointer.toNat + x.size ≤ 256

/-- R21: the sequencer position advances by one at each transaction that succeeds; that it is left, between commands, at
the count reached is the model's choice (log 5). R28: each transaction writes the chip's register pointer; that it is
left at what the latest transaction wrote is the model's choice (log 14). -/
def Obligations.SequencerAndPointerFollowTheTransactions : Prop :=
  ∀ (i : Instr) (s t : State), i.wf = true → s.config.wf → s.resetAfter = none → exec i s = .next t →
    ∃ new, t.trace = s.trace ++ new ∧
      (AnswersOk 2 s → t.position = s.position + new.length) ∧
      (∀ e m as, s.answers = .fail e m :: as → t.position = s.position) ∧
      (∀ e m as, s.answers = .ok :: .fail e m :: as → t.position = s.position + min 1 new.length) ∧
      (new = [] → t.pointer = s.pointer) ∧
      ∀ x, new.getLast? = some x → t.pointer = x.pointer

/-- R181: the complete list of causes of InvalidInput; when it is raised no transaction has been issued, reads
included, and the bank, `AI` and the bus trace are as before. -/
def Obligations.InvalidInputHasExactlyItsThreeCauses : Prop :=
  ∀ (i : Instr) (s : State), i.wf = true → s.resetAfter = none →
    let cause := (∃ ch k v, i = .setc ch k v ∧ 4095 < v.toNat) ∨
      (∃ ch v w, i = .setonoff ch v w ∧ (4095 < v.toNat ∨ 4095 < w.toNat)) ∨
      ∃ vs, i = .wrall vs ∧ vs.length ≠ 32
    responseWords .invalidInput = [1] ∧ (cause → Completes (exec i s) (AnsweredAlone .invalidInput s)) ∧
      ∀ t, exec i s = .next t → t.responses = s.responses ++ [.invalidInput] → cause

/-- R196: which command can end how; and R90: one response for every command, with as many data words as the table
says. -/
def Obligations.EveryCommandEndsInOneResponseOfItsKinds : Prop :=
  ∀ (i : Instr) (s t : State), i.wf = true → s.resetAfter = none → exec i s = .next t →
    ∃ r, t.responses = s.responses ++ [r] ∧
      (match r with
        | .ok data =>
          data.length = (match i with
            | .addr _ _ => 1
            | .getc _ _ => 1
            | .setc _ _ _ => 0
            | .setf _ _ _ => 0
            | .setonoff _ _ _ => 0
            | .getonoff _ => 2
            | .rdall => 32
            | .wrall _ => 0
            | .plen _ _ => 1
            | .plenplain _ _ => 1
            | .getpulse _ => 1) ∧ responseWords r = 0 :: data
        | .invalidInput =>
          ((∃ ch k v, i = .setc ch k v) ∨ (∃ ch v w, i = .setonoff ch v w) ∨ ∃ vs, i = .wrall vs) ∧
            responseWords r = [1]
        | .transport e =>
          (∀ ch k, i ≠ .addr ch k) ∧ (∀ v w, i ≠ .plen v w) ∧ (∀ v w, i ≠ .plenplain v w) ∧ responseWords r = [2, e]
        | .illegalCommand => False)

/-- R186, R57: a command that only reads leaves every byte of the bank as it was, however it ends. -/
def Obligations.ReadingCommandsNeverChangeTheBank : Prop :=
  ∀ (s t : State) (ch : Channel) (k : Kind) (v w : Word),
    (exec (.addr ch k) s = .next t ∨ exec (.getc ch k) s = .next t ∨ exec (.getonoff ch) s = .next t ∨
      exec (.getpulse ch) s = .next t ∨ exec .rdall s = .next t ∨ exec (.plen v w) s = .next t ∨
      exec (.plenplain v w) s = .next t) →
    t.bank = s.bank ∧ Frame s t

/-- The frame of the writing commands, however they end (R186, R217): SETC changes at most the two bytes of its
register, SETF the high byte, SETONOFF the four bytes of its channel, WRALL the channel window; of All, those bytes of
every channel (R47). -/
def Obligations.WritingCommandsChangeOnlyTheirOwnBytes : Prop :=
  ∀ (s t : State) (ch : Channel) (k : Kind) (v w : Word) (f : Bool) (vs : List Word), s.config.wf → ch.wf = true →
    (exec (.setc ch k v) s = .next t → OnlyPair ch k s t ∧ Frame s t) ∧
    (exec (.setf ch k f) s = .next t → OnlyHighByte ch k s t ∧ Frame s t) ∧
    (exec (.setonoff ch v w) s = .next t → OnlyChannel ch s t ∧ Frame s t) ∧
    (exec (.wrall vs) s = .next t → OnlyWindow s t ∧ Frame s t)

/-- R20, R187: nothing of the block outlives a command. Two idle states that agree on the parameters, the bus target
(bank, `AI`), the host's queue and the draws to come take the same step, whatever went before: the same new responses,
the same new transactions, the same bank and `AI` and draws after it. -/
def Obligations.NothingOfTheBlockOutlivesACommand : Prop :=
  ∀ s s' t : State, s.phase = .idle → s'.phase = .idle → s'.config = s.config → s'.bank = s.bank → s'.ai = s.ai →
    s'.inbox = s.inbox → s'.answers = s.answers → s'.slotDraws = s.slotDraws → s'.freeCount = s.freeCount →
    step s = .next t →
    ∃ t' rs new, step s' = .next t' ∧ t.responses = s.responses ++ rs ∧ t'.responses = s'.responses ++ rs ∧
      t.trace = s.trace ++ new ∧ t'.trace = s'.trace ++ new ∧ t'.bank = t.bank ∧ t'.ai = t.ai ∧
      t'.inbox = t.inbox ∧ t'.answers = t.answers ∧ t'.slotDraws = t.slotDraws ∧ t'.freeCount = t.freeCount ∧
      t'.phase = t.phase

/-- R7, R29, R50, R182: `E`, the type of the transport's error values, is an argument of the machine, and no meaning looks
at one: renaming every error value before a step is renaming it after, for every two types. The machine the host runs
is the one at the default of R7 (log 16). The answers a step can need are in the list, so that none is a free value. -/
def Obligations.ErrorValuesAreNeverInterpreted : Prop :=
  (∀ (i : Instr) (s : State), exec i s = execFor i s) ∧ (∀ s : State, step s = stepFor s) ∧
    ∀ (E F : Type) (f : E → F) (s : State E), 2 ≤ s.answers.length →
      stepFor (s.mapError f) = mapErrorOutcome f (stepFor s)

/-- The canonical form of the bank (log 3): two canonical banks that read alike at every address are the same list. -/
def Obligations.BanksThatReadAlikeAreEqual : Prop :=
  ∀ (c : Config) (m m' : Memory), Memory.wf c m → Memory.wf c m' →
    (∀ a : Nat, Memory.read c m a = Memory.read c m' a) → m = m'

/-! ### channel_address_mapper -/

/-- R100, with R101 and R102: ADDR answers `CH_BASE + 4*c + 2*K`, or `ALL_BASE + 2*K` for All, with no bus transaction,
whatever `AI` and the transport do. -/
def Obligations.AddrAnswersTheMappedAddress : Prop :=
  ∀ (s : State) (ch : Channel) (k : Kind), ch.wf = true → s.config.wf → s.resetAfter = none →
    Completes (exec (.addr ch k) s) fun t =>
      ∃ w : Word, AnsweredAlone (.ok [w]) s t ∧
        (∀ n, ch = .one n → w.toNat = s.config.chBase.toNat + 4 * n + (if k = .off then 2 else 0)) ∧
        (ch = .all → w.toNat = s.config.allBase.toNat + (if k = .off then 2 else 0))

/-- R105 (c) to (f): two different pairs of channel and kind have disjoint byte pairs; OFF is 2 above ON; the next
channel is 4 above; with the default bases every address is even. -/
def Obligations.MappedRegisterPairsAreDisjoint : Prop :=
  (∀ (c : Config) (ch ch' : Channel) (k k' : Kind), c.wf → ch.wf = true → ch'.wf = true → (ch, k) ≠ (ch', k') →
    (addrOf c ch k).toNat + 1 < (addrOf c ch' k').toNat ∨ (addrOf c ch' k').toNat + 1 < (addrOf c ch k).toNat) ∧
  (∀ (c : Config) (ch : Channel), c.wf → ch.wf = true →
    (addrOf c ch .off).toNat = (addrOf c ch .on).toNat + 2) ∧
  (∀ (c : Config) (n : Nat), c.wf → n < 15 →
    (addrOf c (.one (n + 1)) .on).toNat = (addrOf c (.one n) .on).toNat + 4) ∧
  (∀ (ch : Channel) (k : Kind), ch.wf = true → (addrOf Config.default ch k).toNat % 2 = 0)

/-! ### The channel codec -/

/-- R112: GETC answers bits 11:0 of the register, after one read of two bytes; of All, of two drawn bytes; a failed read
answers Transport(e). Nothing of the bank changes. -/
def Obligations.GetcAnswersTheCounter : Prop :=
  ∀ (s : State) (ch : Channel) (k : Kind), ch.wf = true → s.config.wf → s.resetAfter = none → s.ai = true →
    (AnswersOk 1 s → Completes (exec (.getc ch k) s) fun t =>
      ∃ v w : Word, t.responses = s.responses ++ [.ok [w]] ∧ w.toNat = v.toNat % 4096 ∧
        (∀ n, ch = .one n → v = s.reg n k ∧ t.slotDraws = s.slotDraws) ∧
        (ch = .all → ∀ d0 d1 ds, s.slotDraws = d0 :: d1 :: ds →
          v.toNat = d0.toNat + 256 * d1.toNat ∧ t.slotDraws = ds) ∧ t.answers = s.answers.tail ∧
        t.trace = s.trace ++ [.writeRead (addrOf s.config ch k) 2] ∧ t.bank = s.bank ∧ Frame s t) ∧
    (∀ e m as, s.answers = .fail e m :: as →
      Completes (exec (.getc ch k) s) (FailedAtRead (addrOf s.config ch k) 2 e s))

/-- R113 and R114: SETC with a value at most 4095. `h` is the high byte read: the register's own, or of All a draw. The
counter becomes the value, the flag is `h[4]`, the reserved bits are `h[7:5]` where the bank stores them; two
transactions; no other byte moves. -/
def Obligations.SetcSetsTheCounterAndKeepsTheFlag : Prop :=
  ∀ (s : State) (ch : Channel) (k : Kind) (v : Word), ch.wf = true → Undisturbed 2 s → s.ai = true →
    v.toNat ≤ 4095 →
    Completes (exec (.setc ch k v) s) fun t =>
      ∃ h : Byte, (∀ n, ch = .one n → h.toNat = (s.reg n k).toNat / 256 ∧ t.slotDraws = s.slotDraws) ∧
        (ch = .all → ∀ d ds, s.slotDraws = d :: ds → h = d ∧ t.slotDraws = ds) ∧
        (∀ n ∈ channelsOf ch, (t.reg n k).toNat % 4096 = v.toNat ∧
          (t.reg n k).toNat / 4096 % 2 = h.toNat / 16 % 2 ∧
          (t.reg n k).toNat / 8192 = if s.config.rsvdStored then h.toNat / 32 else 0) ∧
        t.trace = s.trace ++ [.writeRead (highAddrOf s.config ch k) 1, .write (addrOf s.config ch k)
          [BitVec.ofNat 8 v.toNat, BitVec.ofNat 8 (h.toNat / 16 * 16 + v.toNat / 256)]] ∧
        t.answers = s.answers.drop 2 ∧ t.responses = s.responses ++ [.ok []] ∧ OnlyPair ch k s t ∧ Frame s t

/-- R113, R51, R182: how SETC fails. A failed read: no write is issued, the bank is unchanged. A failed write of which
`m` bytes were stored, in the channel or in every channel: none, the new low byte beside the old high byte, or the new
pair. -/
def Obligations.SetcThatFailsLeavesAPrefixOfItsWrite : Prop :=
  ∀ (s : State) (ch : Channel) (k : Kind) (v : Word), ch.wf = true → s.config.wf → s.resetAfter = none → s.ai = true →
    v.toNat ≤ 4095 →
    (∀ e m as, s.answers = .fail e m :: as →
      Completes (exec (.setc ch k v) s) (FailedAtRead (highAddrOf s.config ch k) 1 e s)) ∧
    (∀ e m as, s.answers = .ok :: .fail e m :: as →
      Completes (exec (.setc ch k v) s) fun t =>
        ∃ h : Byte, (∀ n, ch = .one n → h.toNat = (s.reg n k).toNat / 256 ∧ t.slotDraws = s.slotDraws) ∧
          (ch = .all → ∀ d ds, s.slotDraws = d :: ds → h = d ∧ t.slotDraws = ds) ∧
          t.responses = s.responses ++ [.transport e] ∧
          (∀ n ∈ channelsOf ch,
            t.byteAt (addrOf s.config (.one n) k) =
              (if m = 0 then s.byteAt (addrOf s.config (.one n) k) else BitVec.ofNat 8 v.toNat) ∧
            (m ≤ 1 → t.byteAt (highAddrOf s.config (.one n) k) = s.byteAt (highAddrOf s.config (.one n) k)) ∧
            (2 ≤ m → (t.reg n k).toNat % 4096 = v.toNat ∧ (t.reg n k).toNat / 4096 % 2 = h.toNat / 16 % 2 ∧
              (t.reg n k).toNat / 8192 = if s.config.rsvdStored then h.toNat / 32 else 0)) ∧
          t.trace = s.trace ++ [.writeRead (highAddrOf s.config ch k) 1, .write (addrOf s.config ch k)
            [BitVec.ofNat 8 v.toNat, BitVec.ofNat 8 (h.toNat / 16 * 16 + v.toNat / 256)]] ∧
          t.answers = as ∧ OnlyPair ch k s t ∧ Frame s t)

/-- R115: SETF. `h` is the high byte read: the register's own, or of All a draw. If its flag is `F` already there is no
write and nothing changes; otherwise one byte is written, the high byte with bit 4 changed, and no other byte moves. A
failed read writes nothing; a failed write leaves the old high byte or the new one. -/
def Obligations.SetfWritesTheFlagOnlyIfItDiffers : Prop :=
  ∀ (s : State) (ch : Channel) (k : Kind) (f : Bool), ch.wf = true → s.config.wf → s.resetAfter = none →
    (AnswersOk 2 s → Completes (exec (.setf ch k f) s) fun t =>
      ∃ h : Byte, (∀ n, ch = .one n → h.toNat = (s.reg n k).toNat / 256 ∧ t.slotDraws = s.slotDraws) ∧
        (ch = .all → ∀ d ds, s.slotDraws = d :: ds → h = d ∧ t.slotDraws = ds) ∧
        (h.toNat / 16 % 2 = (if f then 1 else 0) →
          t.bank = s.bank ∧ t.trace = s.trace ++ [.writeRead (highAddrOf s.config ch k) 1] ∧
            t.answers = s.answers.tail) ∧
        (h.toNat / 16 % 2 ≠ (if f then 1 else 0) →
          (∀ n ∈ channelsOf ch, (t.reg n k).toNat / 256 % 32 = h.toNat % 16 + (if f then 16 else 0) ∧
            (t.reg n k).toNat / 8192 = (if s.config.rsvdStored then h.toNat / 32 else 0) ∧
            (t.reg n k).toNat % 256 = (s.reg n k).toNat % 256) ∧
          t.trace = s.trace ++ [.writeRead (highAddrOf s.config ch k) 1, .write (highAddrOf s.config ch k)
            [BitVec.ofNat 8 (if f then h.toNat + 16 else h.toNat - 16)]] ∧
          t.answers = s.answers.drop 2) ∧
        t.responses = s.responses ++ [.ok []] ∧ OnlyHighByte ch k s t ∧ Frame s t) ∧
    (∀ e m as, s.answers = .fail e m :: as →
      Completes (exec (.setf ch k f) s) (FailedAtRead (highAddrOf s.config ch k) 1 e s)) ∧
    (∀ e m as, s.answers = .ok :: .fail e m :: as → Completes (exec (.setf ch k f) s) fun t =>
      ∃ h : Byte, (∀ n, ch = .one n → h.toNat = (s.reg n k).toNat / 256 ∧ t.slotDraws = s.slotDraws) ∧
        (ch = .all → ∀ d ds, s.slotDraws = d :: ds → h = d ∧ t.slotDraws = ds) ∧
        (h.toNat / 16 % 2 = (if f then 1 else 0) → t.bank = s.bank ∧ t.responses = s.responses ++ [.ok []] ∧
          t.trace = s.trace ++ [.writeRead (highAddrOf s.config ch k) 1] ∧ t.answers = s.answers.tail) ∧
        (h.toNat / 16 % 2 ≠ (if f then 1 else 0) → t.responses = s.responses ++ [.transport e] ∧
          (m = 0 → t.bank = s.bank) ∧
          (1 ≤ m → ∀ n ∈ channelsOf ch,
            (t.reg n k).toNat / 256 % 32 = h.toNat % 16 + (if f then 16 else 0) ∧
              (t.reg n k).toNat / 8192 = (if s.config.rsvdStored then h.toNat / 32 else 0) ∧
              (t.reg n k).toNat % 256 = (s.reg n k).toNat % 256) ∧
          t.trace = s.trace ++ [.writeRead (highAddrOf s.config ch k) 1, .write (highAddrOf s.config ch k)
            [BitVec.ofNat 8 (if f then h.toNat + 16 else h.toNat - 16)]] ∧ t.answers = as) ∧
        OnlyHighByte ch k s t ∧ Frame s t)

/-- R116: SETONOFF with both values at most 4095: one write of four bytes; both registers become the values, so both
flags are clear, of the channel or of every channel; no other byte moves. A failed write stored a prefix of the four
bytes. -/
def Obligations.SetonoffOverwritesBothRegisters : Prop :=
  ∀ (s : State) (ch : Channel) (v w : Word), ch.wf = true → s.config.wf → s.resetAfter = none → s.ai = true →
    v.toNat ≤ 4095 → w.toNat ≤ 4095 →
    (AnswersOk 1 s → Completes (exec (.setonoff ch v w) s) fun t =>
      (∀ n ∈ channelsOf ch, t.reg n .on = v ∧ t.reg n .off = w) ∧
        t.trace = s.trace ++ [.write (addrOf s.config ch .on) [BitVec.ofNat 8 v.toNat,
          BitVec.ofNat 8 (v.toNat / 256), BitVec.ofNat 8 w.toNat, BitVec.ofNat 8 (w.toNat / 256)]] ∧
        t.answers = s.answers.tail ∧ t.slotDraws = s.slotDraws ∧ t.responses = s.responses ++ [.ok []] ∧
        OnlyChannel ch s t ∧ Frame s t) ∧
    (∀ e m as, s.answers = .fail e m :: as → Completes (exec (.setonoff ch v w) s) fun t =>
      t.responses = s.responses ++ [.transport e] ∧
        (∀ n ∈ channelsOf ch,
          (t.reg n .on).toNat % 256 = (if 1 ≤ m then v else s.reg n .on).toNat % 256 ∧
          (t.reg n .on).toNat / 256 = (if 2 ≤ m then v else s.reg n .on).toNat / 256 ∧
          (t.reg n .off).toNat % 256 = (if 3 ≤ m then w else s.reg n .off).toNat % 256 ∧
          (t.reg n .off).toNat / 256 = (if 4 ≤ m then w else s.reg n .off).toNat / 256) ∧
        t.trace = s.trace ++ [.write (addrOf s.config ch .on) [BitVec.ofNat 8 v.toNat,
          BitVec.ofNat 8 (v.toNat / 256), BitVec.ofNat 8 w.toNat, BitVec.ofNat 8 (w.toNat / 256)]] ∧
        t.answers = as ∧ t.slotDraws = s.slotDraws ∧ OnlyChannel ch s t ∧ Frame s t)

/-- R117: GETONOFF answers both registers of a channel as they are, flags and reserved bits included, after one read of
four bytes; of All, four drawn bytes; a failed read answers Transport(e). -/
def Obligations.GetonoffAnswersBothRegistersRaw : Prop :=
  ∀ (s : State) (ch : Channel), ch.wf = true → s.config.wf → s.resetAfter = none → s.ai = true →
    (AnswersOk 1 s → Completes (exec (.getonoff ch) s) fun t =>
      ∃ v w : Word, t.responses = s.responses ++ [.ok [v, w]] ∧
        (∀ n, ch = .one n → v = s.reg n .on ∧ w = s.reg n .off ∧ t.slotDraws = s.slotDraws) ∧
        (ch = .all → ∀ d0 d1 d2 d3 ds, s.slotDraws = d0 :: d1 :: d2 :: d3 :: ds →
          v.toNat = d0.toNat + 256 * d1.toNat ∧ w.toNat = d2.toNat + 256 * d3.toNat ∧ t.slotDraws = ds) ∧
        t.answers = s.answers.tail ∧
        t.trace = s.trace ++ [.writeRead (addrOf s.config ch .on) 4] ∧ t.bank = s.bank ∧ Frame s t) ∧
    (∀ e m as, s.answers = .fail e m :: as →
      Completes (exec (.getonoff ch) s) (FailedAtRead (addrOf s.config ch .on) 4 e s))

/-- R118 (a) and (f): set then get, as two steps the host asks for one after the other: the answer is the value set, the
flag of the register is what it was before the SETC, the channel's other register is untouched. -/
def Obligations.SetThenGetRoundTrips : Prop :=
  ∀ (s : State) (n : Nat) (k : Kind) (v : Word) (rest : List HostAction), n < 16 → v.toNat ≤ 4095 →
    s.config.wf → s.phase = .idle → s.ai = true → AnswersOk 3 s →
    s.inbox = .command (encode (.setc (.one n) k v)) none :: .command (encode (.getc (.one n) k)) none :: rest →
    ∃ t u, step s = .next t ∧ step t = .next u ∧ u.responses = s.responses ++ [.ok [], .ok [v]] ∧
      (u.reg n k).toNat / 4096 % 2 = (s.reg n k).toNat / 4096 % 2 ∧
      (∀ k', k' ≠ k → u.reg n k' = s.reg n k') ∧ u.inbox = rest

/-! ### bulk_transfer_framer -/

/-- R141, with R74 and R76: RDALL answers the 32 registers as they are, slot `2*c + K` being channel `c` kind `K`, after
one read of 64 bytes at `CH_BASE`; a failed read answers Transport(e) and no value. -/
def Obligations.RdallAnswersAllRegistersInSlotOrder : Prop :=
  ∀ s : State, s.config.wf → s.resetAfter = none → s.ai = true →
    (AnswersOk 1 s → Completes (exec .rdall s) fun t =>
      ∃ vs : List Word, t.responses = s.responses ++ [.ok vs] ∧ vs.length = 32 ∧
        (∀ n, n < 16 → vs[2 * n]? = some (s.reg n .on) ∧ vs[2 * n + 1]? = some (s.reg n .off)) ∧
        t.trace = s.trace ++ [.writeRead s.config.chBase 64] ∧ t.bank = s.bank ∧
        t.answers = s.answers.tail ∧ t.slotDraws = s.slotDraws ∧ Frame s t) ∧
    (∀ e m as, s.answers = .fail e m :: as →
      Completes (exec .rdall s) (FailedAtRead s.config.chBase 64 e s))

/-- R142: WRALL of exactly 32 words writes them raw: every register becomes the word of its slot, whole where the bank
stores the reserved bits, else with bits 15:13 zero; one write, of the bytes of `wordBytes`. A failed write of which `m`
bytes were stored (R51) left at the first `m` addresses of the window the bytes of the words, each as the bank keeps it
(R46), and every other byte as it was. -/
def Obligations.WrallOverwritesAllRegisters : Prop :=
  ∀ (s : State) (vs : List Word), vs.length = 32 → s.config.wf → s.resetAfter = none → s.ai = true →
    (AnswersOk 1 s → Completes (exec (.wrall vs) s) fun t =>
      (∀ n v w, n < 16 → vs[2 * n]? = some v → vs[2 * n + 1]? = some w →
        (t.reg n .on).toNat = (if s.config.rsvdStored then v.toNat else v.toNat % 8192) ∧
        (t.reg n .off).toNat = (if s.config.rsvdStored then w.toNat else w.toNat % 8192)) ∧
      t.trace = s.trace ++ [.write s.config.chBase (wordBytes vs)] ∧ t.answers = s.answers.tail ∧
      t.slotDraws = s.slotDraws ∧ t.responses = s.responses ++ [.ok []] ∧ OnlyWindow s t ∧ Frame s t) ∧
    (∀ e m as, s.answers = .fail e m :: as → Completes (exec (.wrall vs) s) fun t =>
      t.responses = s.responses ++ [.transport e] ∧
      (∀ (i : Nat) (v : Word) (x : Address), i < m → vs[i / 2]? = some v → x.toNat = s.config.chBase.toNat + i →
        (t.byteAt x).toNat =
          if i % 2 = 0 then v.toNat % 256
          else if s.config.rsvdStored then v.toNat / 256 else v.toNat / 256 % 32) ∧
      (∀ x : Address, (x.toNat < s.config.chBase.toNat ∨ s.config.chBase.toNat + min m 64 ≤ x.toNat) →
        t.byteAt x = s.byteAt x) ∧
      t.trace = s.trace ++ [.write s.config.chBase (wordBytes vs)] ∧ t.answers = as ∧ t.slotDraws = s.slotDraws ∧
      Frame s t)

/-- R73: the bulk write frame: WRALL issues one bus write whose wire frame is the 65 bytes `CH_BASE`, then `lo8(v_i)`,
`hi8(v_i)` for the 32 values in order. -/
def Obligations.BulkWriteFrameIsPointerAndLittleEndianPayload : Prop :=
  ∀ (s : State) (vs : List Word), vs.length = 32 → Undisturbed 1 s → s.ai = true →
    Completes (exec (.wrall vs) s) fun t =>
      ∃ x, t.trace = s.trace ++ [x] ∧ (wireFrame x).length = 65 ∧ (wireFrame x)[0]? = some s.config.chBase ∧
        ∀ i v, vs[i]? = some v → (wireFrame x)[1 + 2 * i]? = some (BitVec.ofNat 8 v.toNat) ∧
          (wireFrame x)[2 + 2 * i]? = some (BitVec.ofNat 8 (v.toNat / 256))

/-- R143: the round trips. WRALL then RDALL returns the 32 words, byte-identical where the bank stores the reserved bits
and with bits 15:13 zero otherwise; WRALL then GETONOFF returns the channel's two words likewise; SETONOFF then RDALL
returns the two values in their slots and the other 30 registers as they were. -/
def Obligations.BulkWriteThenReadRoundTrips : Prop :=
  ∀ (s : State) (rest : List HostAction), s.config.wf → s.phase = .idle → s.ai = true → AnswersOk 2 s →
    let kept := fun v : Word => if s.config.rsvdStored then v else v &&& 0x1FFF
    (∀ vs : List Word, vs.length = 32 →
      s.inbox = .command (encode (.wrall vs)) none :: .command (encode .rdall) none :: rest →
      ∃ t u, step s = .next t ∧ step t = .next u ∧
        u.responses = s.responses ++ [.ok [], .ok (vs.map kept)]) ∧
    (∀ (vs : List Word) (n : Nat) (v w : Word), vs.length = 32 → n < 16 → vs[2 * n]? = some v →
      vs[2 * n + 1]? = some w →
      s.inbox = .command (encode (.wrall vs)) none :: .command (encode (.getonoff (.one n))) none :: rest →
      ∃ t u, step s = .next t ∧ step t = .next u ∧
        u.responses = s.responses ++ [.ok [], .ok [kept v, kept w]]) ∧
    (∀ (n : Nat) (v w : Word), n < 16 → v.toNat ≤ 4095 → w.toNat ≤ 4095 →
      s.inbox = .command (encode (.setonoff (.one n) v w)) none :: .command (encode .rdall) none :: rest →
      ∃ t u vs, step s = .next t ∧ step t = .next u ∧ u.responses = s.responses ++ [.ok [], .ok vs] ∧
        vs.length = 32 ∧ vs[2 * n]? = some v ∧ vs[2 * n + 1]? = some w ∧
        ∀ n', n' < 16 → n' ≠ n → vs[2 * n']? = some (s.reg n' .on) ∧ vs[2 * n' + 1]? = some (s.reg n' .off))

/-! ### pulse_width_calculator -/

/-- R162 and R163: PLENPLAIN answers, from bits 11:0 alone, `off - on` where that is not negative and `4095 - on + off`
otherwise, a number in 0 to 4095 (at most 4094 where it wraps), with no bus transaction. That bits 15:12 of the operands
are masked, and not refused, is a reading R162 marks as its own (D16; log 18). -/
def Obligations.PlenplainAnswersTheCountedPulse : Prop :=
  ∀ (s : State) (v w : Word), s.resetAfter = none →
    Completes (exec (.plenplain v w) s) fun t =>
      ∃ r : Word, AnsweredAlone (.ok [r]) s t ∧
        (v.toNat % 4096 ≤ w.toNat % 4096 → r.toNat + v.toNat % 4096 = w.toNat % 4096) ∧
        (w.toNat % 4096 < v.toNat % 4096 → r.toNat + v.toNat % 4096 = 4095 + w.toNat % 4096 ∧ r.toNat ≤ 4094) ∧
        r.toNat ≤ 4095

/-- R161 and R165: PLEN answers 0 if bit 12 of off_t is set, else 4095 if bit 12 of on_t is set, else the counted pulse
of R162, with no bus transaction. -/
def Obligations.PlenAppliesTheFlagPrecedence : Prop :=
  ∀ (s : State) (v w : Word), s.resetAfter = none →
    Completes (exec (.plen v w) s) fun t =>
      ∃ r : Word, AnsweredAlone (.ok [r]) s t ∧
        (w.toNat / 4096 % 2 = 1 → r.toNat = 0) ∧
        (w.toNat / 4096 % 2 = 0 → v.toNat / 4096 % 2 = 1 → r.toNat = 4095) ∧
        (w.toNat / 4096 % 2 = 0 → v.toNat / 4096 % 2 = 0 →
          (v.toNat % 4096 ≤ w.toNat % 4096 → r.toNat + v.toNat % 4096 = w.toNat % 4096) ∧
          (w.toNat % 4096 < v.toNat % 4096 → r.toNat + v.toNat % 4096 = 4095 + w.toNat % 4096))

/-- R164: GETPULSE reads a channel's four bytes as GETONOFF does and answers what PLEN answers of the two words; of All,
a number in 0 to 4095 from drawn bytes; a failed read answers Transport(e). -/
def Obligations.GetpulseAnswersThePulseOfWhatIsRead : Prop :=
  ∀ (s : State) (ch : Channel), ch.wf = true → s.config.wf → s.resetAfter = none → s.ai = true →
    (AnswersOk 1 s → Completes (exec (.getpulse ch) s) fun t =>
      ∃ v w r : Word, t.responses = s.responses ++ [.ok [r]] ∧
        (∀ n, ch = .one n → v = s.reg n .on ∧ w = s.reg n .off ∧ t.slotDraws = s.slotDraws) ∧
        (ch = .all → ∀ d0 d1 d2 d3 ds, s.slotDraws = d0 :: d1 :: d2 :: d3 :: ds →
          v.toNat = d0.toNat + 256 * d1.toNat ∧ w.toNat = d2.toNat + 256 * d3.toNat ∧ t.slotDraws = ds) ∧
        t.answers = s.answers.tail ∧
        (w.toNat / 4096 % 2 = 1 → r.toNat = 0) ∧
        (w.toNat / 4096 % 2 = 0 → v.toNat / 4096 % 2 = 1 → r.toNat = 4095) ∧
        (w.toNat / 4096 % 2 = 0 → v.toNat / 4096 % 2 = 0 →
          (v.toNat % 4096 ≤ w.toNat % 4096 → r.toNat + v.toNat % 4096 = w.toNat % 4096) ∧
          (w.toNat % 4096 < v.toNat % 4096 → r.toNat + v.toNat % 4096 = 4095 + w.toNat % 4096)) ∧
        r.toNat ≤ 4095 ∧
        t.trace = s.trace ++ [.writeRead (addrOf s.config ch .on) 4] ∧ t.bank = s.bank ∧ Frame s t) ∧
    (∀ e m as, s.answers = .fail e m :: as →
      Completes (exec (.getpulse ch) s) (FailedAtRead (addrOf s.config ch .on) 4 e s))
end

