-- ==== Sys2Proof/Laws/State.lean ====
section
/-! SUPPORT. What each named update of the state leaves in each field, so that no proof unfolds an update. -/

namespace Sys2Proof.Machine

variable {E : Type}

/-! ### release -/

@[simp] theorem release_config (s : State E) : (release s).config = s.config := rfl
@[simp] theorem release_phase (s : State E) : (release s).phase = .idle := rfl
@[simp] theorem release_buf (s : State E) : (release s).buf = (List.range bufSize).map (Config.freeBuffer s.freeCount) := rfl
@[simp] theorem release_position (s : State E) : (release s).position = s.position := rfl
@[simp] theorem release_resetAfter (s : State E) : (release s).resetAfter = none := rfl
@[simp] theorem release_bank (s : State E) : (release s).bank = s.bank := rfl
@[simp] theorem release_ai (s : State E) : (release s).ai = s.ai := rfl
@[simp] theorem release_pointer (s : State E) : (release s).pointer = s.pointer := rfl
@[simp] theorem release_responses (s : State E) : (release s).responses = s.responses := rfl
@[simp] theorem release_trace (s : State E) : (release s).trace = s.trace := rfl
@[simp] theorem release_inbox (s : State E) : (release s).inbox = s.inbox := rfl
@[simp] theorem release_answers (s : State E) : (release s).answers = s.answers := rfl
@[simp] theorem release_slotDraws (s : State E) : (release s).slotDraws = s.slotDraws := rfl
@[simp] theorem release_freeCount (s : State E) : (release s).freeCount = s.freeCount + 1 := rfl

/-! ### resetBlock -/

@[simp] theorem resetBlock_config (s : State E) : (resetBlock s).config = s.config := rfl
@[simp] theorem resetBlock_phase (s : State E) : (resetBlock s).phase = .idle := rfl
@[simp] theorem resetBlock_buf (s : State E) : (resetBlock s).buf = (List.range bufSize).map (Config.freeBuffer s.freeCount) := rfl
@[simp] theorem resetBlock_position (s : State E) : (resetBlock s).position = 0 := rfl
@[simp] theorem resetBlock_resetAfter (s : State E) : (resetBlock s).resetAfter = none := rfl
@[simp] theorem resetBlock_bank (s : State E) : (resetBlock s).bank = s.bank := rfl
@[simp] theorem resetBlock_ai (s : State E) : (resetBlock s).ai = s.ai := rfl
@[simp] theorem resetBlock_pointer (s : State E) : (resetBlock s).pointer = s.pointer := rfl
@[simp] theorem resetBlock_responses (s : State E) : (resetBlock s).responses = s.responses := rfl
@[simp] theorem resetBlock_trace (s : State E) : (resetBlock s).trace = s.trace := rfl
@[simp] theorem resetBlock_inbox (s : State E) : (resetBlock s).inbox = s.inbox := rfl
@[simp] theorem resetBlock_answers (s : State E) : (resetBlock s).answers = s.answers := rfl
@[simp] theorem resetBlock_slotDraws (s : State E) : (resetBlock s).slotDraws = s.slotDraws := rfl
@[simp] theorem resetBlock_freeCount (s : State E) : (resetBlock s).freeCount = s.freeCount + 1 := rfl

/-! ### issue -/

@[simp] theorem issue_config (x : Transaction) (s : State E) : (issue x s).config = s.config := rfl
@[simp] theorem issue_phase (x : Transaction) (s : State E) : (issue x s).phase = s.phase := rfl
@[simp] theorem issue_buf (x : Transaction) (s : State E) : (issue x s).buf = fillBuffer (wireFrame x) s.buf := rfl
@[simp] theorem issue_position (x : Transaction) (s : State E) : (issue x s).position = s.position := rfl
@[simp] theorem issue_resetAfter (x : Transaction) (s : State E) : (issue x s).resetAfter = s.resetAfter.map (· - 1) := rfl
@[simp] theorem issue_bank (x : Transaction) (s : State E) : (issue x s).bank = s.bank := rfl
@[simp] theorem issue_ai (x : Transaction) (s : State E) : (issue x s).ai = s.ai := rfl
@[simp] theorem issue_pointer (x : Transaction) (s : State E) : (issue x s).pointer = x.pointer := by cases x <;> rfl
@[simp] theorem issue_responses (x : Transaction) (s : State E) : (issue x s).responses = s.responses := rfl
@[simp] theorem issue_trace (x : Transaction) (s : State E) : (issue x s).trace = s.trace ++ [x] := rfl
@[simp] theorem issue_inbox (x : Transaction) (s : State E) : (issue x s).inbox = s.inbox := rfl
@[simp] theorem issue_answers (x : Transaction) (s : State E) : (issue x s).answers = s.answers := rfl
@[simp] theorem issue_slotDraws (x : Transaction) (s : State E) : (issue x s).slotDraws = s.slotDraws := rfl
@[simp] theorem issue_freeCount (x : Transaction) (s : State E) : (issue x s).freeCount = s.freeCount := rfl

/-! ### takeAnswer -/

@[simp] theorem takeAnswer_config (s : State E) : (takeAnswer s).2.config = s.config := by unfold takeAnswer; split <;> rfl
@[simp] theorem takeAnswer_phase (s : State E) : (takeAnswer s).2.phase = s.phase := by unfold takeAnswer; split <;> rfl
@[simp] theorem takeAnswer_buf (s : State E) : (takeAnswer s).2.buf = s.buf := by unfold takeAnswer; split <;> rfl
@[simp] theorem takeAnswer_position (s : State E) : (takeAnswer s).2.position = s.position := by unfold takeAnswer; split <;> rfl
@[simp] theorem takeAnswer_resetAfter (s : State E) : (takeAnswer s).2.resetAfter = s.resetAfter := by unfold takeAnswer; split <;> rfl
@[simp] theorem takeAnswer_bank (s : State E) : (takeAnswer s).2.bank = s.bank := by unfold takeAnswer; split <;> rfl
@[simp] theorem takeAnswer_ai (s : State E) : (takeAnswer s).2.ai = s.ai := by unfold takeAnswer; split <;> rfl
@[simp] theorem takeAnswer_pointer (s : State E) : (takeAnswer s).2.pointer = s.pointer := by unfold takeAnswer; split <;> rfl
@[simp] theorem takeAnswer_responses (s : State E) : (takeAnswer s).2.responses = s.responses := by unfold takeAnswer; split <;> rfl
@[simp] theorem takeAnswer_trace (s : State E) : (takeAnswer s).2.trace = s.trace := by unfold takeAnswer; split <;> rfl
@[simp] theorem takeAnswer_inbox (s : State E) : (takeAnswer s).2.inbox = s.inbox := by unfold takeAnswer; split <;> rfl
@[simp] theorem takeAnswer_slotDraws (s : State E) : (takeAnswer s).2.slotDraws = s.slotDraws := by unfold takeAnswer; split <;> rfl
@[simp] theorem takeAnswer_answers (s : State E) : (takeAnswer s).2.answers = s.answers.tail := by
  unfold takeAnswer; split <;> simp_all

/-- Taking an answer uses it up, or counts a free value, and moves nothing else. -/
theorem takeAnswer_snd (s : State E) :
    (takeAnswer s).2 = { s with answers := s.answers.tail, freeCount := (takeAnswer s).2.freeCount } := by
  unfold takeAnswer
  split
  · rename_i h; simp [h]
  · rename_i h; simp [h]

/-- R50: a listed answer is the one taken. -/
theorem takeAnswer_cons {s : State E} {a : BusAnswer E} {as : List (BusAnswer E)} (h : s.answers = a :: as) :
    takeAnswer s = (a, { s with answers := as }) := by
  unfold takeAnswer; rw [h]

/-! ### advance -/

@[simp] theorem advance_config (s : State E) : (advance s).config = s.config := rfl
@[simp] theorem advance_phase (s : State E) : (advance s).phase = s.phase := rfl
@[simp] theorem advance_buf (s : State E) : (advance s).buf = s.buf := rfl
@[simp] theorem advance_position (s : State E) : (advance s).position = s.position + 1 := rfl
@[simp] theorem advance_resetAfter (s : State E) : (advance s).resetAfter = s.resetAfter := rfl
@[simp] theorem advance_bank (s : State E) : (advance s).bank = s.bank := rfl
@[simp] theorem advance_ai (s : State E) : (advance s).ai = s.ai := rfl
@[simp] theorem advance_pointer (s : State E) : (advance s).pointer = s.pointer := rfl
@[simp] theorem advance_responses (s : State E) : (advance s).responses = s.responses := rfl
@[simp] theorem advance_trace (s : State E) : (advance s).trace = s.trace := rfl
@[simp] theorem advance_inbox (s : State E) : (advance s).inbox = s.inbox := rfl
@[simp] theorem advance_answers (s : State E) : (advance s).answers = s.answers := rfl
@[simp] theorem advance_slotDraws (s : State E) : (advance s).slotDraws = s.slotDraws := rfl
@[simp] theorem advance_freeCount (s : State E) : (advance s).freeCount = s.freeCount := rfl

/-! ### accept -/

@[simp] theorem accept_config (r : Option Nat) (l : List HostAction) (s : State E) : (accept r l s).config = s.config := rfl
@[simp] theorem accept_phase (r : Option Nat) (l : List HostAction) (s : State E) : (accept r l s).phase = .busy := rfl
@[simp] theorem accept_buf (r : Option Nat) (l : List HostAction) (s : State E) : (accept r l s).buf = s.buf := rfl
@[simp] theorem accept_position (r : Option Nat) (l : List HostAction) (s : State E) : (accept r l s).position = 0 := rfl
@[simp] theorem accept_resetAfter (r : Option Nat) (l : List HostAction) (s : State E) : (accept r l s).resetAfter = r := rfl
@[simp] theorem accept_bank (r : Option Nat) (l : List HostAction) (s : State E) : (accept r l s).bank = s.bank := rfl
@[simp] theorem accept_ai (r : Option Nat) (l : List HostAction) (s : State E) : (accept r l s).ai = s.ai := rfl
@[simp] theorem accept_pointer (r : Option Nat) (l : List HostAction) (s : State E) : (accept r l s).pointer = s.pointer := rfl
@[simp] theorem accept_responses (r : Option Nat) (l : List HostAction) (s : State E) : (accept r l s).responses = s.responses := rfl
@[simp] theorem accept_trace (r : Option Nat) (l : List HostAction) (s : State E) : (accept r l s).trace = s.trace := rfl
@[simp] theorem accept_inbox (r : Option Nat) (l : List HostAction) (s : State E) : (accept r l s).inbox = l := rfl
@[simp] theorem accept_answers (r : Option Nat) (l : List HostAction) (s : State E) : (accept r l s).answers = s.answers := rfl
@[simp] theorem accept_slotDraws (r : Option Nat) (l : List HostAction) (s : State E) : (accept r l s).slotDraws = s.slotDraws := rfl
@[simp] theorem accept_freeCount (r : Option Nat) (l : List HostAction) (s : State E) : (accept r l s).freeCount = s.freeCount := rfl

/-! ### present -/

@[simp] theorem present_config (p : Packet) (s : State E) : (present p s).config = s.config := rfl
@[simp] theorem present_phase (p : Packet) (s : State E) : (present p s).phase = .idle := rfl
@[simp] theorem present_buf (p : Packet) (s : State E) : (present p s).buf = s.buf := rfl
@[simp] theorem present_position (p : Packet) (s : State E) : (present p s).position = s.position := rfl
@[simp] theorem present_resetAfter (p : Packet) (s : State E) : (present p s).resetAfter = s.resetAfter := rfl
@[simp] theorem present_bank (p : Packet) (s : State E) : (present p s).bank = s.bank := rfl
@[simp] theorem present_ai (p : Packet) (s : State E) : (present p s).ai = true := rfl
@[simp] theorem present_pointer (p : Packet) (s : State E) : (present p s).pointer = s.pointer := rfl
@[simp] theorem present_responses (p : Packet) (s : State E) : (present p s).responses = s.responses := rfl
@[simp] theorem present_trace (p : Packet) (s : State E) : (present p s).trace = s.trace := rfl
@[simp] theorem present_inbox (p : Packet) (s : State E) : (present p s).inbox = .command p none :: s.inbox := rfl
@[simp] theorem present_answers (p : Packet) (s : State E) :
    (present p s).answers = (match s.answers with | [] => [.ok, .ok] | a :: as => a :: as) := rfl
@[simp] theorem present_slotDraws (p : Packet) (s : State E) : (present p s).slotDraws = s.slotDraws := rfl
@[simp] theorem present_freeCount (p : Packet) (s : State E) : (present p s).freeCount = s.freeCount := rfl

end Sys2Proof.Machine
end

