-- ==== Sys2Proof/Laws/Memory.lean ====
section
/-! SUPPORT. The bank as a canonical list: a read after a write, what a write leaves alone, and that every operation keeps
the canonical form. -/

namespace Sys2Proof.Machine

/-! ### Lookup -/

@[simp] theorem lookup_nil (a : Nat) : Memory.lookup [] a = none := rfl

theorem lookup_cons (k : Nat) (v : Byte) (m : Memory) (a : Nat) :
    Memory.lookup ((k, v) :: m) a = if k = a then some v else Memory.lookup m a := rfl

theorem lookup_removeCell (m : Memory) (a x : Nat) :
    Memory.lookup (Memory.removeCell m a) x = if x = a then none else Memory.lookup m x := by
  induction m with
  | nil => simp [Memory.removeCell]
  | cons kv m ih =>
    obtain ⟨k, v⟩ := kv
    by_cases hk : k = a
    · have : Memory.removeCell ((k, v) :: m) a = Memory.removeCell m a := by simp [Memory.removeCell, hk]
      rw [this, ih, lookup_cons]
      by_cases hx : x = a
      · simp [hx]
      · simp [hx, show ¬ k = x by omega]
    · have : Memory.removeCell ((k, v) :: m) a = (k, v) :: Memory.removeCell m a := by simp [Memory.removeCell, hk]
      rw [this, lookup_cons, ih, lookup_cons]
      by_cases hx : k = x
      · simp [hx, show ¬ x = a by omega]
      · simp [hx]

theorem lookup_insertCell (m : Memory) (a : Nat) (b : Byte) (x : Nat) (h : Memory.lookup m a = none) :
    Memory.lookup (Memory.insertCell m a b) x = if x = a then some b else Memory.lookup m x := by
  induction m with
  | nil =>
    simp only [Memory.insertCell, lookup_cons, lookup_nil]
    by_cases hx : x = a
    · simp [hx]
    · simp [hx, show ¬ a = x by omega]
  | cons kv m ih =>
    obtain ⟨k, v⟩ := kv
    rw [lookup_cons] at h
    have hka : k ≠ a := fun he => by simp [he] at h
    simp only [Memory.insertCell]
    split
    · simp only [lookup_cons]
      by_cases hx : x = a
      · simp [hx]
      · simp [hx, show ¬ a = x by omega]
    · rw [lookup_cons, ih (by simpa [hka] using h), lookup_cons]
      by_cases hx : x = a
      · subst hx; simp [hka]
      · simp [hx]

/-! ### Read after write -/

/-- A read after a write to the same place gives the byte written; every other place reads as before. -/
theorem read_write (c : Config) (m : Memory) (a x : Nat) (b : Byte) :
    Memory.read c (Memory.write c m a b) x = if x = a then b else Memory.read c m x := by
  have hr : Memory.lookup (Memory.removeCell m a) a = none := by simp [lookup_removeCell]
  unfold Memory.write Memory.read
  split
  · rename_i hb
    rw [lookup_removeCell]
    by_cases hx : x = a
    · simp [hx, hb]
    · simp [hx]
  · rw [lookup_insertCell _ _ _ _ hr, lookup_removeCell]
    by_cases hx : x = a <;> simp [hx]

@[simp] theorem read_write_same (c : Config) (m : Memory) (a : Nat) (b : Byte) :
    Memory.read c (Memory.write c m a b) a = b := by simp [read_write]

theorem read_write_other (c : Config) (m : Memory) {a x : Nat} (b : Byte) (h : x ≠ a) :
    Memory.read c (Memory.write c m a b) x = Memory.read c m x := by simp [read_write, h]

/-! ### The canonical form -/

theorem mem_insertCell {m : Memory} {a : Nat} {b : Byte} {x : Host.Cell} :
    x ∈ Memory.insertCell m a b ↔ x = (a, b) ∨ x ∈ m := by
  induction m with
  | nil => simp [Memory.insertCell]
  | cons kv m ih =>
    simp only [Memory.insertCell]
    split
    · simp
    · simp [ih, or_left_comm]

theorem rising_insertCell {m : Memory} {a : Nat} {b : Byte} (hm : (m.map Prod.fst).Pairwise (· < ·))
    (ha : ∀ x ∈ m, x.1 ≠ a) : ((Memory.insertCell m a b).map Prod.fst).Pairwise (· < ·) := by
  induction m with
  | nil => simp [Memory.insertCell]
  | cons kv m ih =>
    obtain ⟨k, v⟩ := kv
    simp only [List.map_cons, List.pairwise_cons, List.mem_map] at hm
    have hka : k ≠ a := ha (k, v) (by simp)
    simp only [Memory.insertCell]
    split
    · rename_i hlt
      simp only [List.map_cons, List.pairwise_cons, List.mem_cons, List.mem_map]
      refine ⟨?_, hm.1, hm.2⟩
      rintro y (rfl | hy)
      · exact hlt
      · exact Nat.lt_trans hlt (hm.1 y hy)
    · rename_i hle
      simp only [List.map_cons, List.pairwise_cons, List.mem_map]
      refine ⟨?_, ih hm.2 fun x hx => ha x (by simp [hx])⟩
      rintro y ⟨x, hx, rfl⟩
      rcases mem_insertCell.1 hx with rfl | hx
      · show k < a; omega
      · exact hm.1 x.1 ⟨x, hx, rfl⟩

/-- Writing keeps the canonical form. -/
theorem write_wf {c : Config} {m : Memory} (a : Nat) (b : Byte) (h : Memory.wf c m) :
    Memory.wf c (Memory.write c m a b) := by
  have hf : ∀ x ∈ Memory.removeCell m a, x ∈ m ∧ x.1 ≠ a := by simp [Memory.removeCell]
  have hrise : ((Memory.removeCell m a).map Prod.fst).Pairwise (· < ·) :=
    h.1.sublist (List.Sublist.map _ List.filter_sublist)
  unfold Memory.write
  split
  · exact ⟨hrise, fun x hx => h.2 x (hf x hx).1⟩
  · rename_i hb
    refine ⟨rising_insertCell hrise fun x hx => (hf x hx).2, fun x hx => ?_⟩
    rcases mem_insertCell.1 hx with rfl | hx
    · exact hb
    · exact h.2 x (hf x hx).1

/-- What a write can list: what was listed, and the byte written at its address. -/
theorem mem_write {c : Config} {m : Memory} {a : Nat} {b : Byte} {x : Host.Cell}
    (hx : x ∈ Memory.write c m a b) : x = (a, b) ∨ x ∈ m := by
  have hf : ∀ x ∈ Memory.removeCell m a, x ∈ m := by simp +contextual [Memory.removeCell]
  unfold Memory.write at hx
  split at hx
  · exact .inr (hf x hx)
  · rcases mem_insertCell.1 hx with h | h
    · exact .inl h
    · exact .inr (hf x h)

end Sys2Proof.Machine
end

