-- ==== Sys2Proof/Laws/Bank.lean ====
section
/-! SUPPORT. The two windows, `keep`, and what `storeBytes` and `loadBytes` do to every byte: R42 to R48. -/

namespace Sys2Proof.Machine

/-! ### Windows -/

theorem windowOf_channel {c : Config} {a : Address} {o : Nat} :
    windowOf c a = .channel o ↔ a.toNat = c.chBase.toNat + o ∧ o < 64 := by
  unfold windowOf nbulk nslot
  split_ifs <;> simp <;> omega

theorem windowOf_broadcast {c : Config} (hc : c.wf) {a : Address} {j : Nat} :
    windowOf c a = .broadcast j ↔ a.toNat = c.allBase.toNat + j ∧ j < 4 := by
  obtain ⟨_, _, _⟩ := hc
  unfold windowOf nbulk nslot
  split_ifs <;> simp <;> omega

/-- Where the bytes of a transaction that reaches a window lie: all in the channel window, or all in the slot. -/
theorem reaches_cases {c : Config} {p : Address} {n : Nat} (h : reaches c p n = true) :
    (c.chBase.toNat ≤ p.toNat ∧ p.toNat + n ≤ c.chBase.toNat + 64) ∨
      (c.allBase.toNat ≤ p.toNat ∧ p.toNat + n ≤ c.allBase.toNat + 4) := by
  simpa [reaches, nbulk, nslot] using h

theorem reaches_tail {c : Config} (hc : c.wf) {p : Address} {n : Nat} (hn : 0 < n) (h : reaches c p (n + 1) = true) :
    reaches c (p + 1) n = true := by
  obtain ⟨_, _, _⟩ := hc
  have hp : (p + 1).toNat = p.toNat + 1 := by
    have := reaches_cases h
    rw [BitVec.toNat_add]; simp; omega
  have := reaches_cases h
  simp [reaches, nbulk, nslot]
  omega

theorem reaches_mono {c : Config} {p : Address} {n m : Nat} (hm : m ≤ n) (h : reaches c p n = true) :
    reaches c p m = true := by
  have := reaches_cases h
  simp [reaches, nbulk, nslot]
  omega

/-! ### keep -/

@[simp] theorem keep_idem (c : Config) (o : Nat) (d : Byte) : keep c o (keep c o d) = keep c o d := by
  unfold keep
  split_ifs <;> simp [BitVec.and_assoc]

@[simp] theorem keep_low {c : Config} {o : Nat} (d : Byte) (h : o % 2 = 0) : keep c o d = d := by simp [keep, h]

theorem keep_high {c : Config} {o : Nat} (d : Byte) (h : o % 2 = 1) :
    keep c o d = if c.rsvdStored then d else d &&& 0x1F := by simp [keep, h]

/-! ### One byte stored -/

theorem read_storeChannel (c : Config) (m : Memory) (o : Nat) (d : Byte) (x : Nat) :
    Memory.read c (storeChannel c m o d) x =
      if x = c.chBase.toNat + o then keep c o d else Memory.read c m x := read_write ..

/-- After a broadcast store to the first `n` channels. -/
theorem read_storeBroadcast_upto (c : Config) (m : Memory) {j : Nat} (hj : j < 4) (d : Byte) (n : Nat) (x : Nat) :
    Memory.read c ((List.range n).foldl (fun m i => storeChannel c m (4 * i + j) d) m) x =
      if c.chBase.toNat ≤ x ∧ (x - c.chBase.toNat) % 4 = j ∧ (x - c.chBase.toNat) / 4 < n
      then keep c (x - c.chBase.toNat) d else Memory.read c m x := by
  induction n with
  | zero => simp
  | succ n ih =>
    rw [List.range_succ, List.foldl_append, List.foldl_cons, List.foldl_nil, read_storeChannel, ih]
    by_cases hx : x = c.chBase.toNat + (4 * n + j)
    · have h1 : x - c.chBase.toNat = 4 * n + j := by omega
      rw [if_pos hx, if_pos ⟨by omega, by omega, by omega⟩, h1]
    · rw [if_neg hx]
      congr 1
      simp only [eq_iff_iff]
      omega

/-- R47: a broadcast store writes byte `j` of every channel and no other byte. -/
theorem read_storeBroadcast (c : Config) (m : Memory) {j : Nat} (hj : j < 4) (d : Byte) (x : Nat) :
    Memory.read c (storeBroadcast c m j d) x =
      if c.chBase.toNat ≤ x ∧ x < c.chBase.toNat + 64 ∧ (x - c.chBase.toNat) % 4 = j
      then keep c (x - c.chBase.toNat) d else Memory.read c m x := by
  unfold storeBroadcast
  rw [read_storeBroadcast_upto c m hj]
  congr 1
  simp only [eq_iff_iff, nch]
  omega

theorem storedAt_nil (c : Config) (p a : Address) : storedAt c p [] a = none := by
  unfold storedAt
  split <;> simp

/-! ### A write's bytes -/

theorem storedAt_cons {c : Config} (hc : c.wf) {p : Address} {d : Byte} {ds : List Byte}
    (h : reaches c p (ds.length + 1) = true) (a : Address) :
    storedAt c p (d :: ds) a =
      (match windowOf c p, windowOf c a with
        | .channel q, .channel o => if o = q then some d else storedAt c (p + 1) ds a
        | .broadcast j, .channel o => if o % 4 = j then some d else storedAt c (p + 1) ds a
        | _, _ => none) := by
  obtain ⟨h1, h2, h3⟩ := hc
  have hr := reaches_cases h
  have hp : (p + 1).toNat = p.toNat + 1 ∨ p.toNat = 255 := by
    rw [BitVec.toNat_add]; simp; omega
  cases ds with
  | nil =>
    simp only [storedAt_nil]
    unfold storedAt
    rcases windowOf c p with q | j | _ <;> rcases windowOf c a with o | _ | _ <;> try rfl
    · show (if q ≤ o then [d][o - q]? else none) = if o = q then some d else none
      by_cases he : o = q
      · simp [he]
      · rw [if_neg he]
        split
        · rw [List.getElem?_eq_none]; simp; omega
        · rfl
    · show (if j ≤ o % 4 then [d][o % 4 - j]? else none) = if o % 4 = j then some d else none
      by_cases he : o % 4 = j
      · simp [he]
      · rw [if_neg he]
        split
        · rw [List.getElem?_eq_none]; simp; omega
        · rfl
  | cons e es =>
    simp only [List.length_cons] at hr
    have hp : (p + 1).toNat = p.toNat + 1 := by omega
    unfold storedAt
    rcases hw : windowOf c p with q | j | _
    · have hq := windowOf_channel.1 hw
      have hw1 : windowOf c (p + 1) = .channel (q + 1) := windowOf_channel.2 (by omega)
      rcases ha : windowOf c a with o | _ | _ <;> simp only [hw1]
      by_cases he : o = q
      · simp [he]
      · simp only [if_neg he]
        by_cases hlt : q ≤ o
        · rw [if_pos hlt, if_pos (by omega), show o - q = (o - (q + 1)) + 1 by omega, List.getElem?_cons_succ]
        · rw [if_neg hlt, if_neg (by omega)]
    · have hq := (windowOf_broadcast ⟨h1, h2, h3⟩).1 hw
      have hw1 : windowOf c (p + 1) = .broadcast (j + 1) := (windowOf_broadcast ⟨h1, h2, h3⟩).2 (by omega)
      rcases ha : windowOf c a with o | _ | _ <;> simp only [hw1]
      by_cases he : o % 4 = j
      · simp [he]
      · simp only [if_neg he]
        by_cases hlt : j ≤ o % 4
        · rw [if_pos hlt, if_pos (by omega), show o % 4 - j = (o % 4 - (j + 1)) + 1 by omega, List.getElem?_cons_succ]
        · rw [if_neg hlt, if_neg (by omega)]
    · rfl

theorem read_storeByte {c : Config} (hc : c.wf) (m : Memory) (p : Address) (d : Byte) (a : Address) :
    Memory.read c (storeByte c m p d) a.toNat =
      (match windowOf c p, windowOf c a with
        | .channel q, .channel o => if o = q then keep c o d else Memory.read c m a.toNat
        | .broadcast j, .channel o => if o % 4 = j then keep c o d else Memory.read c m a.toNat
        | _, _ => Memory.read c m a.toNat) := by
  unfold storeByte
  have hch : ∀ o, windowOf c a = .channel o ↔ a.toNat = c.chBase.toNat + o ∧ o < 64 := fun o => windowOf_channel
  rcases hp : windowOf c p with q | j | _
  · have hq := windowOf_channel.1 hp
    simp only [read_storeChannel]
    rcases ha : windowOf c a with o | j | _
    · have ho := windowOf_channel.1 ha
      simp only
      by_cases he : o = q
      · subst he; simp [ho.1]
      · rw [if_neg he, if_neg (by omega)]
    · simp only
      rw [if_neg]
      intro he
      rw [(hch q).2 ⟨he, hq.2⟩] at ha
      cases ha
    · simp only
      rw [if_neg]
      intro he
      rw [(hch q).2 ⟨he, hq.2⟩] at ha
      cases ha
  · have hj := (windowOf_broadcast hc).1 hp
    simp only [read_storeBroadcast c m hj.2]
    rcases ha : windowOf c a with o | j' | _
    · have ho := windowOf_channel.1 ha
      have : a.toNat - c.chBase.toNat = o := by omega
      simp only [this]
      congr 1
      simp only [eq_iff_iff]
      omega
    · simp only
      rw [if_neg]
      rintro ⟨h1, h2, -⟩
      rw [(hch (a.toNat - c.chBase.toNat)).2 ⟨by omega, by omega⟩] at ha
      cases ha
    · simp only
      rw [if_neg]
      rintro ⟨h1, h2, -⟩
      rw [(hch (a.toNat - c.chBase.toNat)).2 ⟨by omega, by omega⟩] at ha
      cases ha
  · rfl

/-- R42, R45, R47: after a write that reaches a window, an address the write stores to holds what the bank keeps of its
byte, and every other address reads as before. -/
theorem read_storeBytes {c : Config} (hc : c.wf) (m : Memory) (p : Address) (data : List Byte)
    (h : reaches c p data.length = true) (a : Address) :
    Memory.read c (storeBytes c m p data) a.toNat =
      (match storedAt c p data a with
        | some d => keep c (offsetOf c a) d
        | none => Memory.read c m a.toNat) := by
  induction data generalizing p m with
  | nil => simp [storeBytes, storedAt_nil]
  | cons d ds ih =>
    have hoff : ∀ o, windowOf c a = .channel o → offsetOf c a = o := by
      intro o ho
      have := windowOf_channel.1 ho
      unfold offsetOf; omega
    have hstep : Memory.read c (storeBytes c (storeByte c m p d) (p + 1) ds) a.toNat =
        (match storedAt c (p + 1) ds a with
          | some e => keep c (offsetOf c a) e
          | none => Memory.read c (storeByte c m p d) a.toNat) := by
      cases ds with
      | nil => simp [storeBytes, storedAt_nil]
      | cons e es => exact ih _ _ (reaches_tail hc (by simp) h)
    rw [storeBytes, hstep, storedAt_cons hc h, read_storeByte hc]
    have hr := reaches_cases h
    simp only [List.length_cons] at hr
    have hnone : ∀ q o, windowOf c p = .channel q → windowOf c a = .channel o → o = q →
        storedAt c (p + 1) ds a = none := by
      rintro q o hq ho rfl
      have := windowOf_channel.1 hq
      cases ds with
      | nil => exact storedAt_nil ..
      | cons e es =>
        obtain ⟨h1, h2, h3⟩ := hc
        simp only [List.length_cons] at hr
        have hp1 : (p + 1).toNat = p.toNat + 1 := by rw [BitVec.toNat_add]; simp; omega
        have : windowOf c (p + 1) = .channel (o + 1) := windowOf_channel.2 (by omega)
        simp only [storedAt, this, ho]
        rw [if_neg (by omega)]
    have hnone' : ∀ j o, windowOf c p = .broadcast j → windowOf c a = .channel o → o % 4 = j →
        storedAt c (p + 1) ds a = none := by
      rintro j o hq ho hj
      have := (windowOf_broadcast hc).1 hq
      cases ds with
      | nil => exact storedAt_nil ..
      | cons e es =>
        have hb := windowOf_broadcast (a := p + 1) (j := j + 1) hc
        obtain ⟨h1, h2, h3⟩ := hc
        simp only [List.length_cons] at hr
        have hp1 : (p + 1).toNat = p.toNat + 1 := by rw [BitVec.toNat_add]; simp; omega
        have : windowOf c (p + 1) = .broadcast (j + 1) := hb.2 (by omega)
        simp only [storedAt, this, ho]
        rw [if_neg (by omega)]
    rcases hp : windowOf c p with q | j | _ <;> rcases ha : windowOf c a with o | j' | _ <;> simp only
    · by_cases he : o = q
      · rw [hnone q o hp ha he]; simp [he, hoff o ha]
      · simp only [if_neg he]
    · have : storedAt c (p + 1) ds a = none := by unfold storedAt; rw [ha]; split <;> simp_all
      rw [this]
    · have : storedAt c (p + 1) ds a = none := by unfold storedAt; rw [ha]; split <;> simp_all
      rw [this]
    · by_cases he : o % 4 = j
      · rw [hnone' j o hp ha he]; simp [he, hoff o ha]
      · simp only [if_neg he]
    · have : storedAt c (p + 1) ds a = none := by unfold storedAt; rw [ha]; split <;> simp_all
      rw [this]
    · have : storedAt c (p + 1) ds a = none := by unfold storedAt; rw [ha]; split <;> simp_all
      rw [this]
    all_goals
      exfalso
      rcases hr with hr | hr
      · have := (windowOf_channel (c := c) (a := p) (o := p.toNat - c.chBase.toNat)).2 (by omega)
        simp_all
      · have := (windowOf_broadcast hc (a := p) (j := p.toNat - c.allBase.toNat)).2 (by omega)
        simp_all

/-! ### Stores keep the canonical form and what the bank can hold -/

theorem storeChannel_wf {c : Config} {m : Memory} (o : Nat) (d : Byte) (h : Memory.wf c m) :
    Memory.wf c (storeChannel c m o d) := write_wf _ _ h

theorem storeChannel_legal {c : Config} {m : Memory} {o : Nat} (d : Byte) (ho : o < 64) (h : bankLegal c m) :
    bankLegal c (storeChannel c m o d) := by
  intro x hx
  rcases mem_write hx with rfl | hx
  · refine ⟨by simp, by simp only [nbulk]; omega, ?_⟩
    simp
  · exact h x hx

theorem foldl_range_keeps {α : Type} {P : α → Prop} {f : α → Nat → α} {m : α} (n : Nat) (hm : P m)
    (hf : ∀ m i, i < n → P m → P (f m i)) : P ((List.range n).foldl f m) := by
  induction n with
  | zero => simpa using hm
  | succ n ih =>
    rw [List.range_succ, List.foldl_append]
    exact hf _ _ (by omega) (ih fun m i hi => hf m i (by omega))

theorem storeByte_wf {c : Config} {m : Memory} (a : Address) (d : Byte) (h : Memory.wf c m) :
    Memory.wf c (storeByte c m a d) := by
  unfold storeByte
  split
  · exact storeChannel_wf _ _ h
  · exact foldl_range_keeps (P := Memory.wf c) _ h fun m i _ hm => storeChannel_wf _ _ hm
  · exact h

theorem storeByte_legal {c : Config} (hc : c.wf) {m : Memory} (a : Address) (d : Byte) (h : bankLegal c m) :
    bankLegal c (storeByte c m a d) := by
  unfold storeByte
  split
  · rename_i o ho
    exact storeChannel_legal _ (windowOf_channel.1 ho).2 h
  · rename_i j hj
    have := ((windowOf_broadcast hc).1 hj).2
    exact foldl_range_keeps (P := bankLegal c) _ h fun m i hi hm =>
      storeChannel_legal _ (by simp only [nch] at hi; omega) hm
  · exact h

theorem storeBytes_wf {c : Config} {m : Memory} (a : Address) (data : List Byte) (h : Memory.wf c m) :
    Memory.wf c (storeBytes c m a data) := by
  induction data generalizing m a with
  | nil => exact h
  | cons d ds ih => exact ih _ (storeByte_wf _ _ h)

theorem storeBytes_legal {c : Config} (hc : c.wf) {m : Memory} (a : Address) (data : List Byte)
    (h : bankLegal c m) : bankLegal c (storeBytes c m a data) := by
  induction data generalizing m a with
  | nil => exact h
  | cons d ds ih => exact ih _ (storeByte_legal hc _ _ h)

/-! ### Loads -/

/-- What a load may change of the state: only the draws it uses up. -/
abbrev SameButDraws (s t : State) : Prop := t = { s with slotDraws := t.slotDraws, freeCount := t.freeCount }

theorem drawSlotByte_same (s : State) : SameButDraws s (drawSlotByte s).2 := by
  unfold drawSlotByte
  split <;> rfl

theorem loadByte_same (a : Address) (s : State) : SameButDraws s (loadByte a s).2 := by
  unfold loadByte
  split
  · rfl
  · exact drawSlotByte_same s
  · exact drawSlotByte_same s

theorem loadBytes_same (n : Nat) (a : Address) (s : State) : SameButDraws s (loadBytes n a s).2 := by
  induction n generalizing a s with
  | zero => rfl
  | succ n ih =>
    simp only [loadBytes]
    have h1 := loadByte_same a s
    have h2 := ih (a + 1) (loadByte a s).2
    rw [SameButDraws] at h1 h2 ⊢
    rw [h2, h1]

@[simp] theorem loadBytes_length (n : Nat) (a : Address) (s : State) : (loadBytes n a s).1.length = n := by
  induction n generalizing a s with
  | zero => rfl
  | succ n ih => simp [loadBytes, ih]

theorem loadByte_channel {a : Address} {s : State} {o : Nat} (h : windowOf s.config a = .channel o) :
    loadByte a s = (s.byteAt a, s) := by simp [loadByte, h, State.byteAt]

/-- R48: a read in the channel window returns the bank's bytes and uses no draw. -/
theorem loadBytes_channel (n : Nat) (a : Address) (s : State) (hc : s.config.wf)
    (h1 : s.config.chBase.toNat ≤ a.toNat) (h2 : a.toNat + n ≤ s.config.chBase.toNat + 64) :
    loadBytes n a s = ((List.range n).map fun i => s.byteAt (a + BitVec.ofNat 8 i), s) := by
  induction n generalizing a with
  | zero => rfl
  | succ n ih =>
    have hw : windowOf s.config a = .channel (a.toNat - s.config.chBase.toNat) := windowOf_channel.2 (by omega)
    simp only [loadBytes, loadByte_channel hw]
    have hz : a + BitVec.ofNat 8 0 = a := by simp
    rcases Nat.eq_zero_or_pos n with rfl | hn
    · simp [loadBytes]
    · have := hc.1
      have hp1 : (a + 1).toNat = a.toNat + 1 := by rw [BitVec.toNat_add]; simp; omega
      rw [ih (a + 1) (by omega) (by omega), List.range_succ_eq_map]
      simp only [List.map_cons, List.map_map, Function.comp_def, hz]
      refine Prod.ext (congrArg (s.byteAt a :: ·) (List.map_congr_left fun i _ => congrArg _ ?_)) rfl
      apply BitVec.eq_of_toNat_eq
      simp [BitVec.toNat_add]
      omega

/-- R48: where the state supplies the draws, a read of the broadcast window returns them in order. -/
theorem loadBytes_broadcast (n : Nat) (a : Address) (s : State) (hc : s.config.wf)
    (h1 : s.config.allBase.toNat ≤ a.toNat) (h2 : a.toNat + n ≤ s.config.allBase.toNat + 4)
    (hd : n ≤ s.slotDraws.length) :
    loadBytes n a s = (s.slotDraws.take n, { s with slotDraws := s.slotDraws.drop n }) := by
  induction n generalizing a s with
  | zero => rfl
  | succ n ih =>
    have hw : windowOf s.config a = .broadcast (a.toNat - s.config.allBase.toNat) :=
      (windowOf_broadcast hc).2 (by omega)
    obtain ⟨d, ds, hds⟩ : ∃ d ds, s.slotDraws = d :: ds := by
      cases h : s.slotDraws with
      | nil => simp [h] at hd
      | cons d ds => exact ⟨d, ds, rfl⟩
    have hb : loadByte a s = (d, { s with slotDraws := ds }) := by simp [loadByte, hw, drawSlotByte, hds]
    simp only [loadBytes, hb]
    rcases Nat.eq_zero_or_pos n with rfl | hn
    · simp [loadBytes, hds]
    · have hp1 : (a + 1).toNat = a.toNat + 1 := by
        have := hc.2.1
        rw [BitVec.toNat_add]; simp; omega
      rw [ih (a + 1) { s with slotDraws := ds } hc (by simp only; omega) (by simp only; omega)
        (by rw [hds] at hd; simpa using hd)]
      simp [hds]

end Sys2Proof.Machine
end

