-- ==== Sys2Proof/Laws/Bus.lean ====
section
/-! SUPPORT. Everything a bus transaction, a response and `try` can do, said once: R21, R27, R32, R42, R43, R49 to R51, R184. -/

namespace Sys2Proof.Machine

/-! ### The pieces -/

theorem answers_of_answersOk {n : Nat} {s : State} (hn : 0 < n) (h : AnswersOk n s) :
    s.answers = .ok :: s.answers.tail := by
  obtain ⟨n, rfl⟩ := Nat.exists_eq_succ_of_ne_zero (Nat.ne_of_gt hn)
  rw [AnswersOk] at h
  cases hs : s.answers with
  | nil => simp [hs, List.replicate_succ] at h
  | cons a as =>
    have ha : a = .ok := by simp [hs, List.replicate_succ] at h; exact h.1
    rw [ha]; rfl

/-- A transaction that goes out takes the next listed answer. -/
theorem takeAnswer_issue {t : Transaction} {s : State} {a : BusAnswer} {as : List BusAnswer}
    (h : s.answers = a :: as) : takeAnswer (issue t s) = (a, { issue t s with answers := as }) := takeAnswer_cons h

theorem answersOk_tail {n : Nat} {s t : State} (h : AnswersOk (n + 1) s) (ht : t.answers = s.answers.tail) :
    AnswersOk n t := by
  rw [AnswersOk] at h ⊢
  rw [ht]
  cases hs : s.answers with
  | nil => simp [hs, List.replicate_succ] at h
  | cons b bs => simpa [hs, List.replicate_succ] using (List.cons.inj (by simpa [hs, List.replicate_succ] using h)).2

theorem answersOk_mono {n m : Nat} {s : State} (hm : m ≤ n) (h : AnswersOk n s) : AnswersOk m s := by
  have := congrArg (List.take m) h
  rwa [List.take_take, Nat.min_eq_left hm, List.take_replicate, Nat.min_eq_left hm] at this

@[simp] theorem fillBuffer_length (bytes old : List Byte) :
    (fillBuffer bytes old).length = max bytes.length old.length := by
  simp [fillBuffer]; omega

theorem resetDue_of_none {s : State} (h : s.resetAfter = none) : resetDue s = false := by simp [resetDue, h]

theorem checked_go {α : Type} {p : Address} {n : Nat} {s : State} {go : BusResult ErrorCode α} (hr : resetDue s = false)
    (hw : reaches s.config p n = true) (ha : n ≤ 1 ∨ s.ai = true) : checked p n s go = go := by
  unfold checked
  rw [if_neg (by simp [hr]), if_neg (by simp [hw]), if_neg]
  rintro ⟨h1, h2⟩
  rcases ha with h | h
  · omega
  · simp [h2] at h

/-! ### A transaction that completes -/

/-- The state a successful `BusWrite` leaves (R42). -/
def written (p : Address) (data : List Byte) (s : State) : State :=
  advance { issue (.write p data) s with
    answers := s.answers.tail
    bank := storeBytes s.config s.bank p data }

/-- The state a successful `BusWriteRead` of the channel window leaves (R43): the bank and the draws untouched. -/
def fetched (p : Address) (n : Nat) (s : State) : State :=
  advance { issue (.writeRead p n) s with
    answers := s.answers.tail
    buf := fillBuffer ((List.range n).map fun i => s.byteAt (p + BitVec.ofNat 8 i))
      (fillBuffer [p] s.buf) }

/-- R42. -/
theorem busWrite_ok {p : Address} {data : List Byte} {s : State} (hr : resetDue s = false)
    (hw : reaches s.config p data.length = true) (ha : data.length ≤ 1 ∨ s.ai = true) (hok : AnswersOk 1 s) :
    busWrite p data s = .done () (written p data s) := by
  rw [busWrite, checked_go hr hw ha, takeAnswer_issue (answers_of_answersOk (by omega) hok)]
  rfl

/-- R51: a failed write stores the first `m` data bytes and no other. -/
theorem busWrite_fail {p : Address} {data : List Byte} {s : State} {e : ErrorCode} {m : Nat} {as : List BusAnswer}
    (hr : resetDue s = false) (hw : reaches s.config p data.length = true) (ha : data.length ≤ 1 ∨ s.ai = true)
    (hf : s.answers = .fail e m :: as) :
    busWrite p data s = .failed e { issue (.write p data) s with
      answers := as, bank := storeBytes s.config s.bank p (data.take m) } := by
  rw [busWrite, checked_go hr hw ha, takeAnswer_issue hf]
  rfl

/-- R43, in the channel window. -/
theorem busWriteRead_ok {p : Address} {n : Nat} {s : State} (hc : s.config.wf) (hr : resetDue s = false)
    (h1 : s.config.chBase.toNat ≤ p.toNat) (h2 : p.toNat + n ≤ s.config.chBase.toNat + 64)
    (ha : n ≤ 1 ∨ s.ai = true) (hok : AnswersOk 1 s) :
    busWriteRead p n s = .done ((List.range n).map fun i => s.byteAt (p + BitVec.ofNat 8 i)) (fetched p n s) := by
  have hw : reaches s.config p n = true := by simp [reaches, nbulk]; omega
  rw [busWriteRead, checked_go hr hw ha, takeAnswer_issue (answers_of_answersOk (by omega) hok)]
  dsimp only
  rw [loadBytes_channel _ _ _ (by exact hc) (by exact h1) (by exact h2)]
  rfl

/-- R43, whatever the window: some bytes of the right number come back and only the draws are used up. -/
theorem busWriteRead_ok_any {p : Address} {n : Nat} {s : State} (hr : resetDue s = false)
    (hw : reaches s.config p n = true) (ha : n ≤ 1 ∨ s.ai = true) (hok : AnswersOk 1 s) :
    ∃ bs u, busWriteRead p n s = .done bs u ∧ bs.length = n ∧
      bs = (loadBytes n p s).1 ∧ u.slotDraws = (loadBytes n p s).2.slotDraws ∧
      u = advance { issue (.writeRead p n) s with
        answers := s.answers.tail, buf := fillBuffer bs (fillBuffer [p] s.buf),
        slotDraws := u.slotDraws, freeCount := u.freeCount } := by
  have hload : ∀ (n : Nat) (a : Address) (s t : State), t.config = s.config → t.bank = s.bank →
      t.slotDraws = s.slotDraws → t.freeCount = s.freeCount →
      (loadBytes n a t).1 = (loadBytes n a s).1 ∧ (loadBytes n a t).2.slotDraws = (loadBytes n a s).2.slotDraws := by
    intro n
    induction n with
    | zero => exact fun _ _ _ _ _ h3 _ => ⟨rfl, h3⟩
    | succ n ih =>
      intro a s t h1 h2 h3 h4
      have hb : (loadByte a t).1 = (loadByte a s).1 ∧ (loadByte a t).2.slotDraws = (loadByte a s).2.slotDraws ∧
          (loadByte a t).2.freeCount = (loadByte a s).2.freeCount := by
        unfold loadByte drawSlotByte
        rw [h1, h2, h3, h4]
        split
        · exact ⟨rfl, h3, h4⟩
        all_goals split <;> simp_all
      have e1 := loadByte_same a s
      have e2 := loadByte_same a t
      simp only [loadBytes, hb.1]
      have h := ih (a + 1) (loadByte a s).2 (loadByte a t).2 (by rw [e1, e2]; exact h1) (by rw [e1, e2]; exact h2)
        hb.2.1 hb.2.2
      exact ⟨by rw [h.1], h.2⟩
  rw [busWriteRead, checked_go hr hw ha, takeAnswer_issue (answers_of_answersOk (by omega) hok)]
  dsimp only
  have hl := hload n p s { issue (.writeRead p n) s with answers := s.answers.tail } rfl rfl rfl rfl
  refine ⟨_, _, rfl, loadBytes_length .., hl.1, hl.2, ?_⟩
  have h := loadBytes_same n p { issue (.writeRead p n) s with answers := s.answers.tail }
  rw [SameButDraws] at h
  conv_lhs => rw [h]
  rfl

/-- R50, R43: a failed read stores nothing. -/
theorem busWriteRead_fail {p : Address} {n : Nat} {s : State} {e : ErrorCode} {m : Nat} {as : List BusAnswer}
    (hr : resetDue s = false) (hw : reaches s.config p n = true) (ha : n ≤ 1 ∨ s.ai = true)
    (hf : s.answers = .fail e m :: as) :
    busWriteRead p n s = .failed e { issue (.writeRead p n) s with answers := as } := by
  rw [busWriteRead, checked_go hr hw ha, takeAnswer_issue hf]

/-! ### What a transaction can change, whatever the answer -/

/-- What holds of the state inside a command, against the state the command began in. -/
structure During (s u : State) : Prop where
  config     : u.config = s.config
  ai         : u.ai = s.ai
  inbox      : u.inbox = s.inbox
  responses  : u.responses = s.responses
  phase      : u.phase = s.phase
  resetAfter : s.resetAfter = none → u.resetAfter = none
  buf        : s.buf.length = bufSize → u.buf.length = bufSize
  wf         : Memory.wf s.config s.bank → Memory.wf s.config u.bank
  legal      : s.config.wf → bankLegal s.config s.bank → bankLegal s.config u.bank
  trace      : ∃ new, u.trace = s.trace ++ new ∧ ∀ x ∈ new, inWindows s.config x

theorem During.refl (s : State) : During s s :=
  ⟨rfl, rfl, rfl, rfl, rfl, id, id, id, fun _ => id, [], by simp, by simp⟩

theorem During.trans {s u v : State} (h : During s u) (k : During u v) : During s v where
  config := k.config.trans h.config
  ai := k.ai.trans h.ai
  inbox := k.inbox.trans h.inbox
  responses := k.responses.trans h.responses
  phase := k.phase.trans h.phase
  resetAfter := k.resetAfter ∘ h.resetAfter
  buf := k.buf ∘ h.buf
  wf := fun w => h.config ▸ k.wf (h.config ▸ h.wf w)
  legal := fun c l => h.config ▸ k.legal (h.config ▸ c) (h.config ▸ h.legal c l)
  trace := by
    obtain ⟨n1, e1, w1⟩ := h.trace
    obtain ⟨n2, e2, w2⟩ := k.trace
    refine ⟨n1 ++ n2, by rw [e2, e1, List.append_assoc], fun x hx => ?_⟩
    rcases List.mem_append.1 hx with hx | hx
    · exact w1 x hx
    · exact h.config ▸ w2 x hx

/-- How a transaction of `n` data bytes at `p` can end, seen from the state it began in. -/
def BusSpec {α : Type} (p : Address) (n : Nat) (s : State) : BusResult ErrorCode α → Prop
  | .done _ u => During s u ∧ reaches s.config p n = true
  | .failed _ u => During s u ∧ reaches s.config p n = true
  | .abandoned u => resetDue s = true ∧ u = resetBlock s
  | .faulted _ => reaches s.config p n = false
  | .refused r => r = .autoIncrementOff ∧ 1 < n ∧ s.ai = false

theorem checked_spec {α : Type} {p : Address} {n : Nat} {s : State} {go : BusResult ErrorCode α}
    (h : resetDue s = false → reaches s.config p n = true → BusSpec p n s go) : BusSpec p n s (checked p n s go) := by
  unfold checked
  split_ifs with h1 h2 h3
  · exact ⟨h1, rfl⟩
  · exact h2
  · exact ⟨rfl, h3⟩
  · exact h (by simpa using h1) (by simpa using h2)

theorem reaches_le {c : Config} {p : Address} {n : Nat} (h : reaches c p n = true) : n ≤ 64 := by
  have := reaches_cases h
  omega

/-- A transaction that is let go out and is answered, before what the answer does. -/
theorem issued_during {t : Transaction} {s : State} (hw : inWindows s.config t) (hl : (wireFrame t).length ≤ bufSize) :
    During s (takeAnswer (issue t s)).2 :=
  ⟨by simp, by simp, by simp, by simp, by simp, fun h => by simp [h], fun h => by simp [h]; omega, fun h => by rw [takeAnswer_bank]; exact h,
    fun _ h => by rw [takeAnswer_bank]; exact h, [t], by simp, by simpa using hw⟩

/-- Everything a `BusWrite` can do. -/
theorem busWrite_spec (p : Address) (data : List Byte) (s : State) :
    BusSpec p data.length s (busWrite p data s) := by
  refine checked_spec fun _ hw => ?_
  have hlen := reaches_le hw
  have key := issued_during (t := .write p data) (s := s) hw (by simp [wireFrame, bufSize]; omega)
  generalize takeAnswer (issue (.write p data) s) = r at key ⊢
  obtain ⟨_ | ⟨e, m⟩, u⟩ := r
  · exact ⟨key.trans ⟨rfl, rfl, rfl, rfl, rfl, id, id, storeBytes_wf _ _, fun c => storeBytes_legal c _ _, [], by simp,
      by simp⟩, hw⟩
  · exact ⟨key.trans ⟨rfl, rfl, rfl, rfl, rfl, id, id, storeBytes_wf _ _, fun c => storeBytes_legal c _ _, [], by simp,
      by simp⟩, hw⟩

/-- Everything a `BusWriteRead` can do; the bank is never changed (R43). -/
theorem busWriteRead_spec (p : Address) (n : Nat) (s : State) : BusSpec p n s (busWriteRead p n s) := by
  refine checked_spec fun _ hw => ?_
  have hlen := reaches_le hw
  have key := issued_during (t := .writeRead p n) (s := s) hw (by simp [wireFrame, bufSize])
  generalize takeAnswer (issue (.writeRead p n) s) = r at key ⊢
  obtain ⟨_ | ⟨e, m⟩, u⟩ := r
  · have hs := loadBytes_same n p u
    refine ⟨key.trans ?_, hw⟩
    rw [SameButDraws] at hs
    rw [hs]
    exact ⟨rfl, rfl, rfl, rfl, rfl, id, fun h => by simp [bufSize] at h ⊢; omega, id, fun _ => id, [], by simp, by simp⟩
  · exact ⟨key, hw⟩

/-! ### Ending a command -/

/-- What holds of the state a command ends in, against the state it began in. -/
structure Ended (s t : State) : Prop where
  config     : t.config = s.config
  ai         : t.ai = s.ai
  inbox      : t.inbox = s.inbox
  phase      : t.phase = .idle
  resetAfter : t.resetAfter = none
  buf        : t.buf.length = bufSize
  responses  : t.responses = s.responses ∨ ∃ r, t.responses = s.responses ++ [r]
  wf         : Memory.wf s.config s.bank → Memory.wf s.config t.bank
  legal      : s.config.wf → bankLegal s.config s.bank → bankLegal s.config t.bank
  trace      : ∃ new, t.trace = s.trace ++ new ∧ ∀ x ∈ new, inWindows s.config x

theorem release_ended (s : State) : Ended s (release s) :=
  ⟨rfl, rfl, rfl, rfl, rfl, by simp, .inl rfl, id, fun _ => id, [], by simp, by simp⟩

theorem resetBlock_ended (s : State) : Ended s (resetBlock s) :=
  ⟨rfl, rfl, rfl, rfl, rfl, by simp, .inl rfl, id, fun _ => id, [], by simp, by simp⟩

theorem respond_ended (r : Response) (s : State) : Ended s (respond r s) := by
  unfold respond
  split
  · exact resetBlock_ended s
  · exact ⟨rfl, rfl, rfl, rfl, rfl, by simp, .inr ⟨r, rfl⟩, id, fun _ => id, [], by simp, by simp⟩

theorem During.ended {s u t : State} (h : During s u) (k : Ended u t) : Ended s t where
  config := k.config.trans h.config
  ai := k.ai.trans h.ai
  inbox := k.inbox.trans h.inbox
  phase := k.phase
  resetAfter := k.resetAfter
  buf := k.buf
  responses := h.responses ▸ k.responses
  wf := fun w => h.config ▸ k.wf (h.config ▸ h.wf w)
  legal := fun c l => h.config ▸ k.legal (h.config ▸ c) (h.config ▸ h.legal c l)
  trace := by
    obtain ⟨n1, e1, w1⟩ := h.trace
    obtain ⟨n2, e2, w2⟩ := k.trace
    refine ⟨n1 ++ n2, by rw [e2, e1, List.append_assoc], fun x hx => ?_⟩
    rcases List.mem_append.1 hx with hx | hx
    · exact w1 x hx
    · exact h.config ▸ w2 x hx

/-- How a command can end, seen from the state it began in: in a state, by the refusal of R49, or by a fault under
parameters R7 excludes. -/
def Ends (s : State) : Host.Outcome State Fault Refusal → Prop
  | .next t => Ended s t
  | .fault _ => ¬ s.config.wf
  | .refused r => r = .autoIncrementOff ∧ s.ai = false

theorem respondOk_ends (data : List Word) (s : State) : Ends s (respondOk data s) := respond_ended _ s

theorem raise_ends (e : CommandError) (s : State) : Ends s (raise e s) := respond_ended _ s

theorem During.ends {s u : State} (h : During s u) {o : Host.Outcome State Fault Refusal} (k : Ends u o) :
    Ends s o := by
  cases o with
  | next t => exact h.ended k
  | fault f => exact fun hc => k (h.config.symm ▸ hc)
  | refused r => exact ⟨k.1, h.ai ▸ k.2⟩

/-- `try`: if the transaction stays in the windows and whatever follows a success ends well, the command ends well. -/
theorem tryBus_ends {α : Type} {p : Address} {n : Nat} {s : State} {r : BusResult ErrorCode α} (hr : BusSpec p n s r)
    (hw : s.config.wf → reaches s.config p n = true) {go : α → State → Host.Outcome State Fault Refusal}
    (hgo : ∀ a u, During s u → Ends u (go a u)) : Ends s (tryBus r go) := by
  cases r with
  | done a u => exact hr.1.ends (hgo a u hr.1)
  | failed e u => exact hr.1.ends (raise_ends _ u)
  | abandoned u => exact hr.2 ▸ resetBlock_ended s
  | faulted f =>
    intro hc
    have h1 : reaches s.config p n = false := hr
    rw [hw hc] at h1
    cases h1
  | refused x => exact ⟨hr.1, hr.2.2⟩

/-- A response when no reset arrives (R90): the response, and the block idle. -/
theorem respond_none {r : Response} {s : State} (h : s.resetAfter = none) :
    respond r s = release { s with responses := s.responses ++ [r] } := by
  unfold respond
  rw [if_neg (by simp [resetDue, h])]

end Sys2Proof.Machine
end

