-- ==== Sys2Proof/Laws/Address.lean ====
section
/-! SUPPORT. Where the mapper points (R101, R102) and that no command leaves the windows (R53). -/

namespace Sys2Proof.Machine

/-- R101 as a number: no wrap. -/
theorem addrOf_one_toNat {c : Config} (hc : c.wf) {n : Nat} (hn : n < 16) (k : Kind) :
    (addrOf c (.one n) k).toNat = c.chBase.toNat + 4 * n + 2 * kindIndex k := by
  have := hc.1
  cases k <;> simp [addrOf, kindIndex, BitVec.toNat_add] <;> omega

/-- R102 as a number: no wrap. -/
theorem addrOf_all_toNat {c : Config} (hc : c.wf) (k : Kind) :
    (addrOf c .all k).toNat = c.allBase.toNat + 2 * kindIndex k := by
  have := hc.2.1
  cases k <;> simp [addrOf, kindIndex, BitVec.toNat_add]
  omega

theorem highAddrOf_one_toNat {c : Config} (hc : c.wf) {n : Nat} (hn : n < 16) (k : Kind) :
    (highAddrOf c (.one n) k).toNat = c.chBase.toNat + 4 * n + 2 * kindIndex k + 1 := by
  have h := addrOf_one_toNat hc hn k
  have := hc.1
  rw [highAddrOf, BitVec.toNat_add, h]
  cases k <;> simp [kindIndex] <;> omega

theorem highAddrOf_all_toNat {c : Config} (hc : c.wf) (k : Kind) :
    (highAddrOf c .all k).toNat = c.allBase.toNat + 2 * kindIndex k + 1 := by
  have h := addrOf_all_toNat hc k
  have := hc.2.1
  rw [highAddrOf, BitVec.toNat_add, h]
  cases k <;> simp [kindIndex] <;> omega

/-- R53: two bytes at `addr(ch, K)`. -/
theorem reaches_pair {c : Config} (hc : c.wf) {ch : Channel} (h : ch.wf = true) (k : Kind) :
    reaches c (addrOf c ch k) 2 = true := by
  cases ch with
  | one n =>
    have hn : n < 16 := by simpa [Channel.wf] using h
    have := addrOf_one_toNat hc hn k
    cases k <;> simp [kindIndex] at this <;> simp [reaches, nbulk, nslot] <;> omega
  | all =>
    have := addrOf_all_toNat hc k
    cases k <;> simp [kindIndex] at this <;> simp [reaches, nbulk, nslot] <;> omega

/-- R53: one byte at `addr(ch, K) + 1`. -/
theorem reaches_high {c : Config} (hc : c.wf) {ch : Channel} (h : ch.wf = true) (k : Kind) :
    reaches c (highAddrOf c ch k) 1 = true := by
  cases ch with
  | one n =>
    have hn : n < 16 := by simpa [Channel.wf] using h
    have := highAddrOf_one_toNat hc hn k
    cases k <;> simp [kindIndex] at this <;> simp [reaches, nbulk, nslot] <;> omega
  | all =>
    have := highAddrOf_all_toNat hc k
    cases k <;> simp [kindIndex] at this <;> simp [reaches, nbulk, nslot] <;> omega

/-- R53: four bytes at `addr(ch, ON)`. -/
theorem reaches_channel {c : Config} (hc : c.wf) {ch : Channel} (h : ch.wf = true) :
    reaches c (addrOf c ch .on) 4 = true := by
  cases ch with
  | one n =>
    have hn : n < 16 := by simpa [Channel.wf] using h
    have := addrOf_one_toNat hc hn .on
    simp [kindIndex] at this
    simp [reaches, nbulk, nslot]
    omega
  | all =>
    have := addrOf_all_toNat hc .on
    simp [kindIndex] at this
    simp [reaches, nbulk, nslot]
    omega

/-- R53: 64 bytes at `CH_BASE`. -/
theorem reaches_bulk (c : Config) : reaches c c.chBase 64 = true := by simp [reaches, nbulk]

@[simp] theorem wordBytes_length (vs : List Word) : (wordBytes vs).length = 2 * vs.length := by
  induction vs with
  | nil => rfl
  | cons v vs ih =>
    have : wordBytes (v :: vs) = lo8 v :: hi8 v :: wordBytes vs := rfl
    simp [this, ih]; omega

/-- How every well-formed command can end, from any state. -/
theorem exec_ends (i : Instr) (s : State) (hi : i.wf = true) : Ends s (exec i s) := by
  cases i with
  | addr ch k => exact respondOk_ends _ s
  | getc ch k =>
    exact tryBus_ends (busWriteRead_spec ..) (fun hc => reaches_pair hc hi k) fun _ u _ => respondOk_ends _ u
  | setc ch k v =>
    simp only [exec, execSetc]
    split
    · refine tryBus_ends (busWriteRead_spec ..) (fun hc => reaches_high hc hi k) fun bs u _ => ?_
      exact tryBus_ends (busWrite_spec ..) (fun hc => by simpa using reaches_pair hc hi k)
        fun _ v _ => respondOk_ends _ v
    · exact raise_ends _ s
  | setf ch k f =>
    simp only [exec, execSetf]
    refine tryBus_ends (busWriteRead_spec ..) (fun hc => reaches_high hc hi k) fun bs u _ => ?_
    split
    · exact respondOk_ends _ u
    · exact tryBus_ends (busWrite_spec ..) (fun hc => reaches_high hc hi k) fun _ v _ => respondOk_ends _ v
  | setonoff ch v1 v2 =>
    simp only [exec, execSetonoff]
    split
    · exact tryBus_ends (busWrite_spec ..) (fun hc => by simpa using reaches_channel hc hi)
        fun _ u _ => respondOk_ends _ u
    · exact raise_ends _ s
  | getonoff ch =>
    exact tryBus_ends (busWriteRead_spec ..) (fun hc => reaches_channel hc hi) fun _ u _ => respondOk_ends _ u
  | rdall => exact tryBus_ends (busWriteRead_spec ..) (fun _ => reaches_bulk _) fun _ u _ => respondOk_ends _ u
  | wrall vs =>
    simp only [exec, execWrall]
    split
    · rename_i h
      exact tryBus_ends (busWrite_spec ..) (fun _ => by rw [wordBytes_length, h]; exact reaches_bulk _) fun _ u _ => respondOk_ends _ u
    · exact raise_ends _ s
  | plen v1 v2 => exact respondOk_ends _ s
  | plenplain v1 v2 => exact respondOk_ends _ s
  | getpulse ch =>
    exact tryBus_ends (busWriteRead_spec ..) (fun hc => reaches_channel hc hi) fun _ u _ => respondOk_ends _ u

end Sys2Proof.Machine
end

