-- ==== Sys2Proof/Laws/AnyError.lean ====
section
/-! SUPPORT. Renaming the error values commutes with each operation of the machine (R7, R50, R182), one lemma for each.
Where an operation takes an answer of the bus target the lemma asks for a listed one, since a free value is another at
another type (log 7). -/

namespace Sys2Proof.Machine

variable {E F : Type} (f : E → F)

/-! ### The fields of a renamed state -/

@[simp] theorem mapError_config (s : State E) : (s.mapError f).config = s.config := rfl
@[simp] theorem mapError_phase (s : State E) : (s.mapError f).phase = s.phase := rfl
@[simp] theorem mapError_buf (s : State E) : (s.mapError f).buf = s.buf := rfl
@[simp] theorem mapError_position (s : State E) : (s.mapError f).position = s.position := rfl
@[simp] theorem mapError_resetAfter (s : State E) : (s.mapError f).resetAfter = s.resetAfter := rfl
@[simp] theorem mapError_bank (s : State E) : (s.mapError f).bank = s.bank := rfl
@[simp] theorem mapError_ai (s : State E) : (s.mapError f).ai = s.ai := rfl
@[simp] theorem mapError_pointer (s : State E) : (s.mapError f).pointer = s.pointer := rfl
@[simp] theorem mapError_responses (s : State E) :
    (s.mapError f).responses = s.responses.map (Response.mapError f) := rfl
@[simp] theorem mapError_trace (s : State E) : (s.mapError f).trace = s.trace := rfl
@[simp] theorem mapError_inbox (s : State E) : (s.mapError f).inbox = s.inbox := rfl
@[simp] theorem mapError_answers (s : State E) : (s.mapError f).answers = s.answers.map (BusAnswer.mapError f) := rfl
@[simp] theorem mapError_slotDraws (s : State E) : (s.mapError f).slotDraws = s.slotDraws := rfl
@[simp] theorem mapError_freeCount (s : State E) : (s.mapError f).freeCount = s.freeCount := rfl

/-! ### The operations -/

theorem issue_mapError (x : Transaction) (s : State E) : issue x (s.mapError f) = (issue x s).mapError f := rfl
theorem advance_mapError (s : State E) : advance (s.mapError f) = (advance s).mapError f := rfl
theorem release_mapError (s : State E) : release (s.mapError f) = (release s).mapError f := rfl
theorem resetBlock_mapError (s : State E) : resetBlock (s.mapError f) = (resetBlock s).mapError f := rfl
theorem accept_mapError (r : Option Nat) (l : List HostAction) (s : State E) :
    accept r l (s.mapError f) = (accept r l s).mapError f := rfl

/-- The answer taken is the renamed one. -/
theorem takeAnswer_mapError {s : State E} (h : s.answers ≠ []) :
    takeAnswer (s.mapError f) = ((takeAnswer s).1.mapError f, (takeAnswer s).2.mapError f) := by
  obtain ⟨a, as, h⟩ := List.exists_cons_of_ne_nil h
  rw [takeAnswer_cons h, takeAnswer_cons (a := a.mapError f) (as := as.map (BusAnswer.mapError f)) (by simp [h])]
  rfl

theorem drawSlotByte_mapError (s : State E) :
    drawSlotByte (s.mapError f) = ((drawSlotByte s).1, (drawSlotByte s).2.mapError f) := by
  unfold drawSlotByte
  rw [mapError_slotDraws]
  split <;> rfl

theorem loadByte_mapError (a : Address) (s : State E) :
    loadByte a (s.mapError f) = ((loadByte a s).1, (loadByte a s).2.mapError f) := by
  unfold loadByte
  rw [mapError_config]
  split
  · rfl
  · exact drawSlotByte_mapError f s
  · exact drawSlotByte_mapError f s

theorem loadBytes_mapError (n : Nat) (a : Address) (s : State E) :
    loadBytes n a (s.mapError f) = ((loadBytes n a s).1, (loadBytes n a s).2.mapError f) := by
  induction n generalizing a s with
  | zero => rfl
  | succ n ih => simp only [loadBytes, loadByte_mapError, ih]

theorem respond_mapError (r : Response E) (s : State E) :
    respond (r.mapError f) (s.mapError f) = (respond r s).mapError f := by
  unfold respond resetDue
  rw [mapError_resetAfter]
  split
  · rfl
  · simp [State.mapError, release]

theorem respondOk_mapError (data : List Word) (s : State E) :
    respondOk data (s.mapError f) = mapErrorOutcome f (respondOk data s) :=
  congrArg Host.Outcome.next (respond_mapError f (.ok data) s)

theorem raise_transport_mapError (e : E) (s : State E) :
    raise (.transport (f e)) (s.mapError f) = mapErrorOutcome f (raise (.transport e) s) :=
  congrArg Host.Outcome.next (respond_mapError f (.transport e) s)

theorem raise_invalidInput_mapError (s : State E) :
    raise .invalidInput (s.mapError f) = mapErrorOutcome f (raise .invalidInput s) :=
  congrArg Host.Outcome.next (respond_mapError f .invalidInput s)

theorem raise_illegalCommand_mapError (s : State E) :
    raise .illegalCommand (s.mapError f) = mapErrorOutcome f (raise .illegalCommand s) :=
  congrArg Host.Outcome.next (respond_mapError f .illegalCommand s)

theorem enableAutoIncrement_mapError {s : State E} (h : s.answers ≠ []) :
    enableAutoIncrement (s.mapError f) = (enableAutoIncrement s).mapError f := by
  unfold enableAutoIncrement
  rw [takeAnswer_mapError f h]
  generalize takeAnswer s = r
  obtain ⟨_ | ⟨e, m⟩, u⟩ := r <;> rfl

/-! ### The transactions -/

/-- How a transaction ends, with its error value renamed. -/
def BusResult.mapError {α : Type} (f : E → F) : BusResult E α → BusResult F α
  | .done a s => .done a (s.mapError f)
  | .failed e s => .failed (f e) (s.mapError f)
  | .abandoned s => .abandoned (s.mapError f)
  | .faulted r => .faulted r
  | .refused r => .refused r

theorem checked_mapError {α : Type} (p : Address) (n : Nat) (s : State E) (go : BusResult E α) :
    checked p n (s.mapError f) (go.mapError f) = (checked p n s go).mapError f := by
  unfold checked
  change (if resetDue s then .abandoned ((resetBlock s).mapError f)
    else if reaches s.config p n = false then .faulted (.unmappedRegister p)
    else if 1 < n ∧ s.ai = false then .refused .autoIncrementOff
    else go.mapError f) = _
  by_cases h1 : resetDue s = true
  · rw [if_pos h1, if_pos h1]; rfl
  by_cases h2 : reaches s.config p n = false
  · rw [if_neg h1, if_neg h1, if_pos h2, if_pos h2]; rfl
  by_cases h3 : 1 < n ∧ s.ai = false
  · rw [if_neg h1, if_neg h1, if_neg h2, if_neg h2, if_pos h3, if_pos h3]; rfl
  · rw [if_neg h1, if_neg h1, if_neg h2, if_neg h2, if_neg h3, if_neg h3]

theorem busWrite_mapError (p : Address) (data : List Byte) {s : State E} (h : s.answers ≠ []) :
    busWrite p data (s.mapError f) = (busWrite p data s).mapError f := by
  unfold busWrite
  rw [← checked_mapError, issue_mapError, takeAnswer_mapError f (by simpa using h)]
  generalize takeAnswer (issue (.write p data) s) = r
  obtain ⟨_ | ⟨e, m⟩, u⟩ := r <;> rfl

theorem busWriteRead_mapError (p : Address) (n : Nat) {s : State E} (h : s.answers ≠ []) :
    busWriteRead p n (s.mapError f) = (busWriteRead p n s).mapError f := by
  unfold busWriteRead
  rw [← checked_mapError, issue_mapError, takeAnswer_mapError f (by simpa using h)]
  generalize takeAnswer (issue (.writeRead p n) s) = r
  obtain ⟨_ | ⟨e, m⟩, u⟩ := r
  · simp only [BusAnswer.mapError, loadBytes_mapError]
    rfl
  · rfl

/-- A command's transaction and what follows it, where what follows commutes from the state the transaction leaves. -/
theorem tryBus_mapError {α : Type} {r : BusResult E α} {go : α → State E → Host.Outcome (State E) Fault Refusal}
    {go' : α → State F → Host.Outcome (State F) Fault Refusal}
    (h : ∀ a u, r = .done a u → go' a (u.mapError f) = mapErrorOutcome f (go a u)) :
    tryBus (r.mapError f) go' = mapErrorOutcome f (tryBus r go) := by
  cases r with
  | done a u => exact h a u rfl
  | failed e u => exact raise_transport_mapError f e u
  | abandoned u => rfl
  | faulted r => rfl
  | refused r => rfl

/-- A read uses one answer up. -/
theorem busWriteRead_done_answers {p : Address} {n : Nat} {s u : State E} {bs : List Byte}
    (h : busWriteRead p n s = .done bs u) : u.answers = s.answers.tail := by
  have hd : ∀ t : State E, (drawSlotByte t).2.answers = t.answers := by
    intro t; unfold drawSlotByte; split <;> rfl
  have hl : ∀ (a : Address) (t : State E), (loadByte a t).2.answers = t.answers := by
    intro a t; unfold loadByte; split
    · rfl
    · exact hd t
    · exact hd t
  have hls : ∀ (n : Nat) (a : Address) (t : State E), (loadBytes n a t).2.answers = t.answers := by
    intro n
    induction n with
    | zero => intro a t; rfl
    | succ n ih => intro a t; exact (ih _ _).trans (hl a t)
  have ht := takeAnswer_answers (issue (.writeRead p n) s)
  unfold busWriteRead checked at h
  split_ifs at h
  generalize takeAnswer (issue (.writeRead p n) s) = r at h ht
  obtain ⟨_ | ⟨e, m⟩, v⟩ := r <;> cases h
  exact (hls n p v).trans ht

end Sys2Proof.Machine
end

