-- ==== Sys2Proof/Laws/Words.lean ====
section
/-! SUPPORT. The fields and bytes of a double-register as numbers: R12, R70 to R72, R114, R115, R46. -/

namespace Sys2Proof.Machine

/-! ### Bytes of a word -/

@[simp] theorem le16_toNat (b0 b1 : Byte) : (le16 b0 b1).toNat = b0.toNat + 256 * b1.toNat := by
  have := b0.isLt
  rw [le16, BitVec.toNat_append, Nat.shiftLeft_eq, Nat.mul_comm, ← Nat.two_pow_add_eq_or_of_lt (by omega)]
  omega

@[simp] theorem lo8_toNat (v : Word) : (lo8 v).toNat = v.toNat % 256 := by simp [lo8]

@[simp] theorem hi8_toNat (v : Word) : (hi8 v).toNat = v.toNat / 256 := by
  have := v.isLt
  simp [hi8, Nat.shiftRight_eq_div_pow]; omega

@[simp] theorem lo8_le16 (b0 b1 : Byte) : lo8 (le16 b0 b1) = b0 := by
  apply BitVec.eq_of_toNat_eq; simp; have := b0.isLt; omega

@[simp] theorem hi8_le16 (b0 b1 : Byte) : hi8 (le16 b0 b1) = b1 := by
  apply BitVec.eq_of_toNat_eq; simp; have := b0.isLt; have := b1.isLt; omega

@[simp] theorem le16_lo8_hi8 (v : Word) : le16 (lo8 v) (hi8 v) = v := by
  apply BitVec.eq_of_toNat_eq; simp; omega

/-! ### Fields -/

@[simp] theorem counter_toNat (v : Word) : (counter v).toNat = v.toNat % 4096 := by simp [counter]

@[simp] theorem counterWord_toNat (c : Counter) : (counterWord c).toNat = c.toNat := by
  have := c.isLt
  simp [counterWord]; omega

@[simp] theorem addressWord_toNat (a : Address) : (addressWord a).toNat = a.toNat := by
  have := a.isLt
  simp [addressWord]; omega

theorem full_iff (v : Word) : full v = true ↔ v.toNat / 4096 % 2 = 1 := by
  simp [full, BitVec.getLsbD, Nat.testBit_eq_decide_div_mod_eq]

@[simp] theorem rsvd_toNat (v : Word) : (rsvd v).toNat = v.toNat / 8192 := by
  have := v.isLt
  simp [rsvd, Nat.shiftRight_eq_div_pow]; omega

theorem highFlag_iff (h : Byte) : highFlag h = true ↔ h.toNat / 16 % 2 = 1 := by
  simp [highFlag, BitVec.getLsbD, Nat.testBit_eq_decide_div_mod_eq]

theorem pack_fields (v : Word) : pack (rsvd v) (full v) (counter v) = v := by
  apply BitVec.eq_of_getLsbD_eq
  intro j hj
  simp only [pack, rsvd, full, counter]
  interval_cases j <;> simp

/-! ### The writers -/

theorem and_f0_toNat (h : Byte) : (h &&& 0xF0).toNat = h.toNat / 16 * 16 := by revert h; decide

theorem and_1f_toNat (h : Byte) : (h &&& 0x1F).toNat = h.toNat % 32 := by revert h; decide

/-- R114 as a number. -/
theorem merge_toNat (h : Byte) {v : Word} (hv : v.toNat ≤ 4095) :
    (merge h v).toNat = h.toNat / 16 * 4096 + v.toNat := by
  have := h.isLt
  rw [merge, BitVec.toNat_or, BitVec.toNat_shiftLeft, BitVec.toNat_setWidth, and_f0_toNat, Nat.shiftLeft_eq]
  have h1 : h.toNat / 16 * 16 % 2 ^ 16 * 2 ^ 8 % 2 ^ 16 = 2 ^ 12 * (h.toNat / 16) := by omega
  rw [h1, ← Nat.two_pow_add_eq_or_of_lt (by omega)]
  omega

/-- R115 as a number. -/
theorem withHighFlag_toNat (h : Byte) (f : Bool) :
    (withHighFlag h f).toNat = h.toNat / 32 * 32 + (if f then 16 else 0) + h.toNat % 16 := by
  cases f <;> revert h <;> decide

theorem keep_high_toNat {c : Config} {o : Nat} (d : Byte) (h : o % 2 = 1) :
    (keep c o d).toNat = if c.rsvdStored then d.toNat else d.toNat % 32 := by
  unfold keep
  rw [if_neg (by omega)]
  split
  · rfl
  · exact and_1f_toNat d

/-- R85. -/
theorem counterInRange_iff (w : Word) : counterInRange w = true ↔ w.toNat ≤ 4095 := by
  simp [counterInRange, cmax]

/-! ### The calculator -/

/-- R163: the counted pulse fits in 12 bits. -/
theorem plain_le (v w : Word) : plain v w ≤ 4095 := by
  simp only [plain, counter_toNat]
  split <;> omega

theorem pulse_le (v w : Word) : pulse v w ≤ 4095 := by
  unfold pulse
  split
  · omega
  · split
    · simp [fullOnLength]
    · exact plain_le v w

theorem lengthWord_toNat {n : Nat} (h : n ≤ 4095) : (lengthWord n).toNat = n := by
  simp [lengthWord]; omega

/-! ### Words of a transfer -/

theorem wordBytes_cons (v : Word) (vs : List Word) : wordBytes (v :: vs) = lo8 v :: hi8 v :: wordBytes vs := rfl

/-- R73: where the bytes of a word stand in the data of a write. -/
theorem wordBytes_get (vs : List Word) (i : Nat) :
    (wordBytes vs)[2 * i]? = vs[i]?.map lo8 ∧ (wordBytes vs)[2 * i + 1]? = vs[i]?.map hi8 := by
  induction vs generalizing i with
  | nil => simp [wordBytes]
  | cons v vs ih =>
    cases i with
    | zero => simp [wordBytes_cons]
    | succ i =>
      rw [wordBytes_cons, show 2 * (i + 1) = 2 * i + 1 + 1 by omega]
      simpa using ih i

end Sys2Proof.Machine
end

