-- ==== Sys2Proof/Laws/Regs.lean ====
section
/-! SUPPORT. The commands' transactions in terms of the channels they name: which bytes a write to a channel or to All
stores to, what a read of a channel or of All returns (R47, R48, R65, R66). -/

namespace Sys2Proof.Machine

/-- `p` is byte `b` of channel `ch`: of the one channel, or of the broadcast slot (R101, R102). -/
def PointsAt (c : Config) (ch : Channel) (b : Nat) (p : Address) : Prop :=
  match ch with
  | .one n => p.toNat = c.chBase.toNat + (4 * n + b)
  | .all => p.toNat = c.allBase.toNat + b

theorem addrOf_pointsAt {c : Config} (hc : c.wf) {ch : Channel} (h : ch.wf = true) (k : Kind) :
    PointsAt c ch (2 * kindIndex k) (addrOf c ch k) := by
  cases ch with
  | one n =>
    have hn : n < 16 := by simpa [Channel.wf] using h
    simp [PointsAt, addrOf_one_toNat hc hn, Nat.add_assoc]
  | all => simp [PointsAt, addrOf_all_toNat hc]

theorem highAddrOf_pointsAt {c : Config} (hc : c.wf) {ch : Channel} (h : ch.wf = true) (k : Kind) :
    PointsAt c ch (2 * kindIndex k + 1) (highAddrOf c ch k) := by
  cases ch with
  | one n =>
    have hn : n < 16 := by simpa [Channel.wf] using h
    simp [PointsAt, highAddrOf_one_toNat hc hn]; omega
  | all => simp [PointsAt, highAddrOf_all_toNat hc]; omega

theorem mem_channelsOf_lt {ch : Channel} (h : ch.wf = true) {n : Nat} (hn : n ∈ channelsOf ch) : n < 16 := by
  cases ch with
  | one m =>
    have hm : m < 16 := by simpa [Channel.wf] using h
    simp [channelsOf] at hn; omega
  | all => simpa [channelsOf, nch] using hn

theorem kindIndex_le (k : Kind) : kindIndex k ≤ 1 := by cases k <;> simp [kindIndex]

/-! ### Where a write stores -/

/-- The bytes of a write to `ch` at the addresses of the channels it reaches. -/
theorem storedAt_member {c : Config} (hc : c.wf) {ch : Channel} (h : ch.wf = true) {b : Nat} (hb : b < 4)
    {p : Address} (hp : PointsAt c ch b p) (data : List Byte) {n r : Nat} (hn : n ∈ channelsOf ch) (hr : r < 4)
    {x : Address} (hx : x.toNat = c.chBase.toNat + (4 * n + r)) :
    storedAt c p data x = if b ≤ r then data[r - b]? else none := by
  have hlt := mem_channelsOf_lt h hn
  have hwx : windowOf c x = .channel (4 * n + r) := windowOf_channel.2 ⟨hx, by omega⟩
  unfold storedAt
  cases ch with
  | one m =>
    have hm : n = m := by simpa [channelsOf] using hn
    have hwp : windowOf c p = .channel (4 * m + b) := windowOf_channel.2 ⟨hp, by omega⟩
    simp only [hwp, hwx]
    by_cases hle : b ≤ r
    · rw [if_pos hle, if_pos (by omega)]; congr 1; omega
    · rw [if_neg hle, if_neg (by omega)]
  | all =>
    have hwp : windowOf c p = .broadcast b := (windowOf_broadcast hc).2 ⟨hp, hb⟩
    simp only [hwp, hwx]
    rw [show (4 * n + r) % 4 = r by omega]

/-- A write to `ch` stores nowhere but in the channels it reaches. -/
theorem storedAt_other {c : Config} (hc : c.wf) {ch : Channel} (h : ch.wf = true) {b : Nat} {p : Address}
    (hp : PointsAt c ch b p) {data : List Byte} (hlen : b + data.length ≤ 4) {x : Address}
    (hx : ∀ n ∈ channelsOf ch, ∀ r, b ≤ r → r < b + data.length → x.toNat ≠ c.chBase.toNat + (4 * n + r)) :
    storedAt c p data x = none := by
  by_cases hd : data = []
  · subst hd; exact storedAt_nil ..
  have hpos : 0 < data.length := List.length_pos_iff.2 hd
  unfold storedAt
  rcases hwx : windowOf c x with o | _ | _
  · have ho := windowOf_channel.1 hwx
    cases ch with
    | one m =>
      have hm : m < 16 := by simpa [Channel.wf] using h
      have hwp : windowOf c p = .channel (4 * m + b) := windowOf_channel.2 ⟨hp, by omega⟩
      simp only [hwp]
      split
      · rw [List.getElem?_eq_none]
        by_contra hlt
        exact hx m (by simp [channelsOf]) (o - 4 * m) (by omega) (by omega) (by omega)
      · rfl
    | all =>
      have hwp : windowOf c p = .broadcast b := (windowOf_broadcast hc).2 ⟨hp, by omega⟩
      simp only [hwp]
      split
      · rw [List.getElem?_eq_none]
        by_contra hlt
        exact hx (o / 4) (by simp [channelsOf, nch]; omega) (o % 4) (by omega) (by omega) (by omega)
      · rfl
  · split <;> simp_all
  · split <;> simp_all

/-- The address of a register's bytes, as offsets in the channel window. -/
theorem addrOf_offset {c : Config} (hc : c.wf) {n : Nat} (hn : n < 16) (k : Kind) :
    (addrOf c (.one n) k).toNat = c.chBase.toNat + (4 * n + 2 * kindIndex k) ∧
      (highAddrOf c (.one n) k).toNat = c.chBase.toNat + (4 * n + (2 * kindIndex k + 1)) := by
  have h1 := addrOf_one_toNat hc hn k
  have h2 := highAddrOf_one_toNat hc hn k
  omega

/-! ### A register of the bank -/

theorem reg_toNat (s : State) (n : Nat) (k : Kind) :
    (s.reg n k).toNat =
      (s.byteAt (addrOf s.config (.one n) k)).toNat + 256 * (s.byteAt (highAddrOf s.config (.one n) k)).toNat := by
  simp [State.reg]

/-- What a write that completed, or failed after `data`, left at each address (R42, R51). -/
theorem byteAt_stored {s u : State} (hc : s.config.wf) (hcfg : u.config = s.config) {p : Address} {data : List Byte}
    (hb : u.bank = storeBytes s.config s.bank p data) (hr : reaches s.config p data.length = true) (x : Address) :
    u.byteAt x = (match storedAt s.config p data x with
      | some d => keep s.config (offsetOf s.config x) d
      | none => s.byteAt x) := by
  unfold State.byteAt
  rw [hcfg, hb]
  exact read_storeBytes hc _ _ _ hr x

/-! ### What a read returns -/

/-- The state after a read that was answered ok. -/
structure AfterRead (p : Address) (n : Nat) (s u : State) : Prop where
  config     : u.config = s.config
  phase      : u.phase = s.phase
  position   : u.position = s.position + 1
  resetAfter : s.resetAfter = none → u.resetAfter = none
  bank       : u.bank = s.bank
  ai         : u.ai = s.ai
  pointer    : u.pointer = p
  responses  : u.responses = s.responses
  trace      : u.trace = s.trace ++ [.writeRead p n]
  inbox      : u.inbox = s.inbox
  answers    : u.answers = s.answers.tail

/-- The state after a write that was answered ok. -/
structure AfterWrite (p : Address) (data : List Byte) (s u : State) : Prop where
  config     : u.config = s.config
  phase      : u.phase = s.phase
  position   : u.position = s.position + 1
  resetAfter : s.resetAfter = none → u.resetAfter = none
  bank       : u.bank = storeBytes s.config s.bank p data
  ai         : u.ai = s.ai
  pointer    : u.pointer = p
  responses  : u.responses = s.responses
  trace      : u.trace = s.trace ++ [.write p data]
  inbox      : u.inbox = s.inbox
  answers    : u.answers = s.answers.tail
  slotDraws  : u.slotDraws = s.slotDraws
  freeCount  : u.freeCount = s.freeCount

theorem written_after (p : Address) (data : List Byte) (s : State) : AfterWrite p data s (written p data s) :=
  ⟨rfl, rfl, rfl, fun h => by simp [written, h], rfl, rfl, rfl, rfl, rfl, rfl, rfl, rfl, rfl⟩

/-- R43, R48: a read of a channel returns its bytes of the bank; a read of All returns draws, in order. -/
theorem busWriteRead_channel {s : State} (hc : s.config.wf) {ch : Channel} (h : ch.wf = true) {b n : Nat}
    {p : Address} (hp : PointsAt s.config ch b p) (hn : b + n ≤ 4) (hr : resetDue s = false)
    (ha : n ≤ 1 ∨ s.ai = true) (hok : AnswersOk 1 s) :
    ∃ bs u, busWriteRead p n s = .done bs u ∧ bs.length = n ∧ AfterRead p n s u ∧
      (∀ m, ch = .one m → bs = ((List.range n).map fun i => s.byteAt (p + BitVec.ofNat 8 i)) ∧
        u.slotDraws = s.slotDraws) ∧
      (ch = .all → n ≤ s.slotDraws.length → bs = s.slotDraws.take n ∧ u.slotDraws = s.slotDraws.drop n) := by
  have hw : reaches s.config p n = true := by
    cases ch with
    | one m =>
      have hm : m < 16 := by simpa [Channel.wf] using h
      simp [PointsAt] at hp
      simp [reaches, nbulk, nslot]; omega
    | all =>
      simp [PointsAt] at hp
      simp [reaches, nbulk, nslot]; omega
  obtain ⟨bs, u, hdone, hlen, hbs, hsd, hu⟩ := busWriteRead_ok_any hr hw ha hok
  refine ⟨bs, u, hdone, hlen, ?_, ?_, ?_⟩
  · rw [hu]; exact ⟨rfl, rfl, rfl, fun h => by simp [h], rfl, rfl, rfl, rfl, rfl, rfl, rfl⟩
  · rintro m rfl
    have hm : m < 16 := by simpa [Channel.wf] using h
    simp [PointsAt] at hp
    rw [hbs, hsd, loadBytes_channel n p s hc (by omega) (by omega)]
    exact ⟨rfl, rfl⟩
  · rintro rfl hd
    simp [PointsAt] at hp
    rw [hbs, hsd, loadBytes_broadcast n p s hc (by omega) (by omega) hd]
    exact ⟨rfl, rfl⟩

theorem answersOk_one_of_tail {n : Nat} {s u : State} (h : AnswersOk (n + 1) s) (hu : u.answers = s.answers.tail) :
    AnswersOk n u := answersOk_tail h hu

/-! ### Two writes of the same bytes, and the outcome of `try` -/

@[simp] theorem tryBus_done {α : Type} (a : α) (s : State) (go : α → State → Host.Outcome State Fault Refusal) :
    tryBus (.done a s) go = go a s := rfl

@[simp] theorem tryBus_failed {α : Type} (e : ErrorCode) (s : State)
    (go : α → State → Host.Outcome State Fault Refusal) : tryBus (.failed e s) go = raise (.transport e) s := rfl

@[simp] theorem tryBus_abandoned {α : Type} (s : State) (go : α → State → Host.Outcome State Fault Refusal) :
    tryBus (.abandoned s) go = .next s := rfl

@[simp] theorem tryBus_refused {α : Type} (r : Refusal) (go : α → State → Host.Outcome State Fault Refusal) :
    tryBus (.refused r) go = .refused r := rfl

/-- R49: a transaction of more than one data byte with auto-increment off. -/
theorem busWriteRead_refused {p : Address} {n : Nat} {s : State} (hr : resetDue s = false)
    (hw : reaches s.config p n = true) (hn : 1 < n) (ha : s.ai = false) :
    busWriteRead p n s = .refused .autoIncrementOff := by
  unfold busWriteRead checked
  rw [if_neg (by simp [hr]), if_neg (by simp [hw]), if_pos ⟨hn, ha⟩]

theorem busWrite_refused {p : Address} {data : List Byte} {s : State} (hr : resetDue s = false)
    (hw : reaches s.config p data.length = true) (hn : 1 < data.length) (ha : s.ai = false) :
    busWrite p data s = .refused .autoIncrementOff := by
  unfold busWrite checked
  rw [if_neg (by simp [hr]), if_neg (by simp [hw]), if_pos ⟨hn, ha⟩]

end Sys2Proof.Machine
end

