-- ==== Sys2Proof/Laws/Decode.lean ====
section
/-! SUPPORT. What the decoder answers: the cases of a legal packet, said once, and that it spells a well-formed command. -/

namespace Sys2Proof

theorem Op.ofCode_code (op : Op) : Op.ofCode op.code = some op := by cases op <;> rfl

theorem Op.code_of_ofCode {c : BitVec 4} {op : Op} (h : Op.ofCode c = some op) : op.code = c := by
  revert c; cases op <;> decide

/-- R86: what a legal packet's header holds, and that its command is the operation of its opcode with the operand
words attached. -/
theorem decode_ok {p : Packet} {i : Instr} (h : decode p = .ok i) :
    ∃ op, Op.ofCode p.op = some op ∧ p.rsv = 0 ∧ (p.f = true → op.usesFlag = true) ∧
      (p.k = true → op.usesKind = true) ∧ (op.usesChannel = true → p.ch.toNat ≤ 16) ∧
      (op.usesChannel = false → p.ch = 0) ∧
      decodeOperands op (Channel.ofField p.ch) (Kind.ofBit p.k) p.f p.operands = .ok i := by
  unfold decode at h
  split at h
  · cases h
  · rename_i op hop
    split_ifs at h with h1 h2 h3 h4 h5
    refine ⟨op, hop, by simpa using h1, fun hf => ?_, fun hk => ?_, fun hu => ?_, fun hu => ?_, h⟩
    · by_contra hu; exact h2 ⟨hf, by simpa using hu⟩
    · by_contra hu; exact h3 ⟨hk, by simpa using hu⟩
    · by_contra hgt; exact h4 ⟨hu, by omega⟩
    · by_contra hne; exact h5 ⟨hu, hne⟩

theorem Channel.ofField_wf {c : BitVec 5} (h : c.toNat ≤ 16) : (Channel.ofField c).wf = true := by
  unfold Channel.ofField
  split
  · rfl
  · simp [Channel.wf, nch]; omega

theorem withNoOperand_ok {i j : Instr} {ws : List Word} (h : withNoOperand i ws = .ok j) : j = i ∧ ws = [] := by
  unfold withNoOperand at h
  split at h <;> cases h
  exact ⟨rfl, rfl⟩

theorem withOneOperand_ok {i : Word → Instr} {j : Instr} {ws : List Word} (h : withOneOperand i ws = .ok j) :
    ∃ w, j = i w ∧ ws = [w] := by
  unfold withOneOperand at h
  split at h <;> cases h
  exact ⟨_, rfl, rfl⟩

theorem withTwoOperands_ok {i : Word → Word → Instr} {j : Instr} {ws : List Word}
    (h : withTwoOperands i ws = .ok j) : ∃ w1 w2, j = i w1 w2 ∧ ws = [w1, w2] := by
  unfold withTwoOperands at h
  split at h <;> cases h
  exact ⟨_, _, rfl, rfl⟩

/-- A command put together by the decoder belongs to its operation and is well-formed if its channel is. -/
theorem decodeOperands_ok {op : Op} {ch : Channel} {k : Kind} {f : Bool} {ws : List Word} {i : Instr}
    (h : decodeOperands op ch k f ws = .ok i) (hch : op.usesChannel = true → ch.wf = true) :
    i.wf = true ∧ i.op = op := by
  cases op
  case setc => obtain ⟨w, rfl, -⟩ := withOneOperand_ok h; exact ⟨hch rfl, rfl⟩
  case setonoff => obtain ⟨w1, w2, rfl, -⟩ := withTwoOperands_ok h; exact ⟨hch rfl, rfl⟩
  case plen => obtain ⟨w1, w2, rfl, -⟩ := withTwoOperands_ok h; exact ⟨rfl, rfl⟩
  case plenplain => obtain ⟨w1, w2, rfl, -⟩ := withTwoOperands_ok h; exact ⟨rfl, rfl⟩
  case rdall => obtain ⟨rfl, -⟩ := withNoOperand_ok h; exact ⟨rfl, rfl⟩
  case wrall => cases h; exact ⟨rfl, rfl⟩
  all_goals obtain ⟨rfl, -⟩ := withNoOperand_ok h; exact ⟨hch rfl, rfl⟩

/-- A decoded command is well-formed and belongs to the operation of its opcode. -/
theorem decode_wf {p : Packet} {i : Instr} (h : decode p = .ok i) : i.wf = true ∧ Op.ofCode p.op = some i.op := by
  obtain ⟨op, hop, -, -, -, hch, -, hd⟩ := decode_ok h
  obtain ⟨h1, h2⟩ := decodeOperands_ok hd fun hu => Channel.ofField_wf (hch hu)
  exact ⟨h1, h2 ▸ hop⟩

theorem error_ite_iff {P : Prop} [Decidable P] (x : IllegalCause) (e : Except IllegalCause Instr) :
    (∃ c, (if P then .error x else e) = .error c) ↔ P ∨ ∃ c, e = .error c := by
  by_cases h : P <;> simp [h]

/-- R86, cause by cause: when a packet is illegal. -/
theorem decode_error_iff (p : Packet) :
    (∃ c, decode p = .error c) ↔ Op.ofCode p.op = none ∨ ∃ op, Op.ofCode p.op = some op ∧
      (p.rsv ≠ 0 ∨ (p.f = true ∧ op.usesFlag = false) ∨ (p.k = true ∧ op.usesKind = false) ∨
        (op.usesChannel = true ∧ 16 < p.ch.toNat) ∨ (op.usesChannel = false ∧ p.ch ≠ 0) ∨
        ∃ c, decodeOperands op (Channel.ofField p.ch) (Kind.ofBit p.k) p.f p.operands = .error c) := by
  unfold decode
  rcases Op.ofCode p.op with _ | op
  · simp
  · simp only [error_ite_iff, reduceCtorEq, false_or, Option.some.injEq, exists_eq_left']

/-- R86 cause 7: the operand words fit exactly when their number is the row's, any number for WRALL. -/
theorem decodeOperands_error_iff (op : Op) (ch : Channel) (k : Kind) (f : Bool) (ws : List Word) :
    (∃ c, decodeOperands op ch k f ws = .error c) ↔ ∃ n, op.operandWords = some n ∧ ws.length ≠ n := by
  have h0 : ∀ i, (∃ c, withNoOperand i ws = .error c) ↔ ws.length ≠ 0 := by
    intro i; rcases ws with _ | ⟨a, ws⟩ <;> simp [withNoOperand]
  have h1 : ∀ i, (∃ c, withOneOperand i ws = .error c) ↔ ws.length ≠ 1 := by
    intro i; rcases ws with _ | ⟨a, _ | ⟨b, ws⟩⟩ <;> simp [withOneOperand]
  have h2 : ∀ i, (∃ c, withTwoOperands i ws = .error c) ↔ ws.length ≠ 2 := by
    intro i; rcases ws with _ | ⟨a, _ | ⟨b, _ | ⟨c, ws⟩⟩⟩ <;> simp [withTwoOperands]
  cases op <;> simp only [decodeOperands, Op.operandWords, h0, h1, h2, Option.some.injEq, exists_eq_left']
  all_goals simp

/-! ### The round trip's pieces -/

theorem Kind.ofBit_bit (k : Kind) : Kind.ofBit k.bit = k := by cases k <;> rfl

theorem Channel.ofField_field {ch : Channel} (h : ch.wf = true) : Channel.ofField ch.field = ch := by
  cases ch with
  | all => rfl
  | one n =>
    have hn : n < 16 := by simpa [Channel.wf] using h
    unfold Channel.ofField Channel.field
    rw [BitVec.toNat_ofNat, Nat.mod_eq_of_lt (by omega), if_neg (by omega)]

theorem Channel.field_le {ch : Channel} (h : ch.wf = true) : ch.field.toNat ≤ 16 := by
  cases ch with
  | all => decide
  | one n =>
    have hn : n < 16 := by simpa [Channel.wf] using h
    simp [Channel.field]; omega

/-- The fields of R81 read back from a header put together from them. -/
theorem headerWord_fields (op : Op) (k f : Bool) (ch : BitVec 5) (ws : List Word) :
    let p : Packet := { header := headerWord op k f ch, operands := ws }
    p.op = op.code ∧ p.k = k ∧ p.f = f ∧ p.rsv = 0 ∧ p.ch = ch := by
  simp only [Packet.op, Packet.k, Packet.f, Packet.rsv, Packet.ch]
  clear ws
  cases op <;> cases k <;> cases f <;> revert ch <;> decide

/-- A header is put together from its fields where `RSV` is 0 (R81). -/
theorem headerWord_of_fields (p : Packet) (op : Op) (hop : op.code = p.op) (hrsv : p.rsv = 0) :
    headerWord op p.k p.f p.ch = p.header := by
  obtain ⟨h, ws⟩ := p
  simp only [headerWord, hop, Packet.op, Packet.k, Packet.f, Packet.ch, Packet.rsv] at hrsv ⊢
  apply BitVec.eq_of_getLsbD_eq
  intro j hj
  have hr : ∀ t, t < 5 → h.getLsbD (5 + t) = false := fun t ht => by
    have := congrArg (BitVec.getLsbD · t) hrsv
    simpa [BitVec.getLsbD_extractLsb', ht] using this
  have h5 := hr 0; have h6 := hr 1; have h7 := hr 2; have h8 := hr 3; have h9 := hr 4
  interval_cases j <;> simp_all

end Sys2Proof
end

