-- ==== Sys2Proof/Laws/Step.lean ====
section
/-! SUPPORT. Everything a step can do, said once. -/

namespace Sys2Proof.Machine

/-- R52: what EnableAutoIncrement leaves: `AI` set unless the answer taken is a failure, the answer used up (log 7, log 20),
nothing else moved. -/
theorem enableAutoIncrement_eq (s : State) :
    enableAutoIncrement s = { s with
      ai := (match (takeAnswer s).1 with | .ok => true | .fail _ _ => s.ai), answers := s.answers.tail,
      freeCount := (takeAnswer s).2.freeCount } := by
  have h := takeAnswer_snd s
  unfold enableAutoIncrement
  generalize takeAnswer s = r at h ⊢
  obtain ⟨_ | ⟨e, m⟩, u⟩ := r <;> dsimp only at h ⊢ <;> rw [h]

/-- The cases of a step: it waits, a command ends (from the state that accepted it), EnableAutoIncrement, or a reset of
the block. -/
theorem step_cases (s : State) :
    step s = .next s ∨
      (∃ p r rest, s.phase = .idle ∧ s.inbox = .command p r :: rest ∧
        step s = runPacket exec p (accept r rest s) ∧ Ends (accept r rest s) (step s)) ∨
      (∃ rest, s.phase = .idle ∧ s.inbox = .enableAutoIncrement :: rest ∧
        step s = .next (enableAutoIncrement { s with inbox := rest })) ∨
      ∃ rest, s.phase = .idle ∧ s.inbox = .resetBlock :: rest ∧
        step s = .next (resetBlock { s with inbox := rest }) := by
  rcases hp : s.phase with _ | _
  · rcases hi : s.inbox with _ | ⟨_ | _ | _, rest⟩
    · exact .inl (by simp [step, stepWith, hp, hi])
    · rename_i p r
      have hs : step s = runPacket exec p (accept r rest s) := by simp [step, stepWith, hp, hi]
      refine .inr (.inl ⟨p, r, rest, rfl, rfl, hs, ?_⟩)
      rw [hs, runPacket]
      split
      · rename_i i h
        exact exec_ends i _ (decode_wf h).1
      · exact raise_ends _ _
    · exact .inr (.inr (.inl ⟨rest, rfl, rfl, by simp [step, stepWith, hp, hi]⟩))
    · exact .inr (.inr (.inr ⟨rest, rfl, rfl, by simp [step, stepWith, hp, hi]⟩))
  · exact .inl (by simp [step, stepWith, hp])

end Sys2Proof.Machine
end

