-- ==== Sys2Proof/Laws/Commands.lean ====
section
/-! SUPPORT. What each writing command leaves when no reset of the block arrives, as one equation of transactions,
bank and response (R113, R115, R116, R142), and what a failed first read leaves. Nothing here speaks of a register's
value: that is read off the bank with `byteAt_stored`. -/

namespace Sys2Proof.Machine

/-- A command that ended with `r` after issuing `new` and leaving the bank `m` and the bytes `ds` to draw. -/
structure Answered (r : Response) (new : List Transaction) (m : Memory) (ds : List Byte) (s t : State) : Prop where
  responses : t.responses = s.responses ++ [r]
  trace     : t.trace = s.trace ++ new
  bank      : t.bank = m
  slotDraws : t.slotDraws = ds
  answers   : t.answers = s.answers.drop new.length
  frame     : Frame s t

theorem respond_answered {r : Response} {s u : State} {new : List Transaction} {m : Memory} {ds : List Byte}
    (hb : u.bank = m) (hs : u.slotDraws = ds) (hd : u.config = s.config) (ha : u.ai = s.ai) (hi : u.inbox = s.inbox)
    (hr : u.resetAfter = none) (hp : u.responses = s.responses) (ht : u.trace = s.trace ++ new)
    (hn : u.answers = s.answers.drop new.length) : Answered r new m ds s (respond r u) := by
  rw [respond_none hr]
  exact ⟨by simp [hp], by simp [ht], by simp [hb], by simp [hs], by simp [hn], by simp [hd], by simp [ha],
    by simp [hi], rfl, rfl⟩

theorem answeredAlone_respond {s : State} (hr : s.resetAfter = none) (r : Response) :
    AnsweredAlone r s (respond r s) := by
  rw [respond_none hr]
  exact ⟨rfl, rfl, rfl, rfl, rfl, rfl, rfl, rfl, rfl, rfl, rfl, rfl⟩

/-- R182, R184: the read a command begins with fails. -/
theorem tryRead_fail {p : Address} {n : Nat} {s : State} {e : ErrorCode} {m : Nat} {as : List BusAnswer}
    (hr : s.resetAfter = none) (hw : reaches s.config p n = true) (ha : n ≤ 1 ∨ s.ai = true)
    (hf : s.answers = .fail e m :: as) (go : List Byte → State → Host.Outcome State Fault Refusal) :
    Completes (tryBus (busWriteRead p n s) go) (FailedAtRead p n e s) := by
  rw [busWriteRead_fail (resetDue_of_none hr) hw ha hf, tryBus_failed]
  refine ⟨_, rfl, ?_⟩
  rw [respond_none (by simp [hr])]
  exact ⟨rfl, rfl, rfl, by simp [hf], rfl, rfl, rfl, rfl, rfl, rfl⟩

/-- The read a command begins with succeeds, and the command answers. -/
theorem AfterRead.answered {p : Address} {n : Nat} {s u : State} (h : AfterRead p n s u) (hr : s.resetAfter = none)
    (r : Response) : Answered r [.writeRead p n] s.bank u.slotDraws s (respond r u) :=
  respond_answered h.bank rfl h.config h.ai h.inbox (h.resetAfter hr) h.responses h.trace (by simp [h.answers])

/-- R116, R142: the one write of a command is answered ok. -/
theorem tryWrite_ok {p : Address} {data : List Byte} {s : State} (hr : s.resetAfter = none)
    (hw : reaches s.config p data.length = true) (ha : data.length ≤ 1 ∨ s.ai = true) (hok : AnswersOk 1 s) :
    Completes (tryBus (busWrite p data s) fun _ u => respondOk [] u)
      (Answered (.ok []) [.write p data] (storeBytes s.config s.bank p data) s.slotDraws s) := by
  rw [busWrite_ok (resetDue_of_none hr) hw ha hok, tryBus_done]
  exact ⟨_, rfl, respond_answered rfl rfl rfl rfl rfl (by simp [written, hr]) rfl rfl (by simp [written])⟩

/-- R51, R182: the one write of a command fails. -/
theorem tryWrite_fail {p : Address} {data : List Byte} {s : State} {e : ErrorCode} {m : Nat} {as : List BusAnswer}
    (hr : s.resetAfter = none) (hw : reaches s.config p data.length = true) (ha : data.length ≤ 1 ∨ s.ai = true)
    (hf : s.answers = .fail e m :: as) :
    Completes (tryBus (busWrite p data s) fun _ u => respondOk [] u)
      (Answered (.transport e) [.write p data] (storeBytes s.config s.bank p (data.take m)) s.slotDraws s) := by
  rw [busWrite_fail (resetDue_of_none hr) hw ha hf, tryBus_failed]
  exact ⟨_, rfl, respond_answered rfl rfl rfl rfl rfl (by simp [hr]) rfl rfl (by simp [hf])⟩

/-- The write that follows a read. -/
theorem AfterRead.tryWrite {p q : Address} {n : Nat} {data : List Byte} {s u : State} (h : AfterRead q n s u)
    {r : Response} {m : Memory} {o : Host.Outcome State Fault Refusal}
    (k : Completes o (Answered r [.write p data] m u.slotDraws u)) :
    Completes o (Answered r [.writeRead q n, .write p data] m u.slotDraws s) := by
  obtain ⟨t, ht, a⟩ := k
  refine ⟨t, ht, by rw [a.responses, h.responses], by rw [a.trace, h.trace]; simp, a.bank, a.slotDraws,
    by rw [a.answers, h.answers]; simp, ?_⟩
  obtain ⟨f1, f2, f3, f4, f5⟩ := a.frame
  exact ⟨f1.trans h.config, f2.trans h.ai, f3.trans h.inbox, f4, f5⟩

/-- The high byte a read-modify-write command reads, and the bytes it leaves to draw: the register's own byte and all of
them, or of All the first draw and the rest (R48, R66). -/
structure HighByteRead (ch : Channel) (k : Kind) (s : State) (h : Byte) (left : List Byte) : Prop where
  one : ∀ n, ch = .one n → h = s.byteAt (highAddrOf s.config (.one n) k) ∧ left = s.slotDraws
  all : ch = .all → ∀ d ds, s.slotDraws = d :: ds → h = d ∧ left = ds

/-- The read of one high byte (R66). -/
theorem readHigh_ok {s : State} (hc : s.config.wf) {ch : Channel} (h : ch.wf = true) (k : Kind)
    (hr : s.resetAfter = none) (hok : AnswersOk 1 s) :
    ∃ b u, busWriteRead (highAddrOf s.config ch k) 1 s = .done [b] u ∧ HighByteRead ch k s b u.slotDraws ∧
      AfterRead (highAddrOf s.config ch k) 1 s u := by
  obtain ⟨bs, u, hd, hl, ha, h1, h2⟩ := busWriteRead_channel hc h (highAddrOf_pointsAt hc h k) (n := 1)
    (by have := kindIndex_le k; omega) (resetDue_of_none hr) (.inl (Nat.le_refl 1)) hok
  obtain ⟨b, rfl⟩ := List.length_eq_one_iff.1 hl
  refine ⟨b, u, hd, ⟨?_, ?_⟩, ha⟩
  · rintro n rfl
    simpa using h1 n rfl
  · rintro rfl d ds hds
    simpa [hds] using h2 rfl (by simp [hds])

theorem answersOk_of_ok_cons {s : State} {as : List BusAnswer} (h : s.answers = .ok :: as) : AnswersOk 1 s := by
  simp [AnswersOk, h]

/-- R113: SETC whose transactions succeed. -/
theorem setc_ok {s : State} {ch : Channel} {k : Kind} {v : Word} (h : ch.wf = true) (hc : s.config.wf)
    (hr : s.resetAfter = none) (hok : AnswersOk 2 s) (hai : s.ai = true) (hv : v.toNat ≤ 4095) :
    ∃ b ds, HighByteRead ch k s b ds ∧ Completes (exec (.setc ch k v) s) (Answered (.ok [])
      [.writeRead (highAddrOf s.config ch k) 1, .write (addrOf s.config ch k) (wordBytes [merge b v])]
      (storeBytes s.config s.bank (addrOf s.config ch k) (wordBytes [merge b v])) ds s) := by
  obtain ⟨b, u, hd, hb, ha⟩ := readHigh_ok hc h k hr (answersOk_mono (by omega) hok)
  refine ⟨b, u.slotDraws, hb, ?_⟩
  simp only [exec, execSetc, (counterInRange_iff v).2 hv, if_true, hd, tryBus_done]
  refine ha.tryWrite ?_
  have := tryWrite_ok (p := addrOf s.config ch k) (data := wordBytes [merge b v]) (ha.resetAfter hr)
    (by rw [ha.config]; simpa using reaches_pair hc h k) (.inr (ha.ai.trans hai)) (answersOk_tail hok ha.answers)
  rw [ha.config, ha.bank] at this
  rw [ha.config]
  exact this

/-- R113, R51: SETC whose write fails. -/
theorem setc_writeFails {s : State} {ch : Channel} {k : Kind} {v : Word} {e : ErrorCode} {m : Nat}
    {as : List BusAnswer} (h : ch.wf = true) (hc : s.config.wf) (hr : s.resetAfter = none)
    (hf : s.answers = .ok :: .fail e m :: as) (hai : s.ai = true) (hv : v.toNat ≤ 4095) :
    ∃ b ds, HighByteRead ch k s b ds ∧ Completes (exec (.setc ch k v) s) (Answered (.transport e)
      [.writeRead (highAddrOf s.config ch k) 1, .write (addrOf s.config ch k) (wordBytes [merge b v])]
      (storeBytes s.config s.bank (addrOf s.config ch k) ((wordBytes [merge b v]).take m)) ds s) := by
  obtain ⟨b, u, hd, hb, ha⟩ := readHigh_ok hc h k hr (answersOk_of_ok_cons hf)
  refine ⟨b, u.slotDraws, hb, ?_⟩
  simp only [exec, execSetc, (counterInRange_iff v).2 hv, if_true, hd, tryBus_done]
  refine ha.tryWrite ?_
  have := tryWrite_fail (p := addrOf s.config ch k) (data := wordBytes [merge b v]) (ha.resetAfter hr)
    (by rw [ha.config]; simpa using reaches_pair hc h k) (.inr (ha.ai.trans hai))
    (ha.answers.trans (by rw [hf]; rfl))
  rw [ha.config, ha.bank] at this
  rw [ha.config]
  exact this

/-- R115: SETF that finds the flag as asked: no write. -/
theorem setf_same {s : State} {ch : Channel} {k : Kind} {f : Bool} {b : Byte} {u : State}
    (hd : busWriteRead (highAddrOf s.config ch k) 1 s = .done [b] u) (ha : AfterRead (highAddrOf s.config ch k) 1 s u)
    (hr : s.resetAfter = none) (hb : highFlag b = f) :
    Completes (exec (.setf ch k f) s)
      (Answered (.ok []) [.writeRead (highAddrOf s.config ch k) 1] s.bank u.slotDraws s) := by
  simp only [exec, execSetf, hd, tryBus_done, List.getD_cons_zero, hb, if_true]
  exact ⟨_, rfl, ha.answered hr _⟩

/-- R115: SETF that finds the flag different and whose write succeeds. -/
theorem setf_differs {s : State} {ch : Channel} {k : Kind} {f : Bool} {b : Byte} {u : State} (h : ch.wf = true)
    (hc : s.config.wf) (hd : busWriteRead (highAddrOf s.config ch k) 1 s = .done [b] u)
    (ha : AfterRead (highAddrOf s.config ch k) 1 s u) (hr : s.resetAfter = none) (hok : AnswersOk 2 s)
    (hb : highFlag b ≠ f) :
    Completes (exec (.setf ch k f) s) (Answered (.ok [])
      [.writeRead (highAddrOf s.config ch k) 1, .write (highAddrOf s.config ch k) [withHighFlag b f]]
      (storeBytes s.config s.bank (highAddrOf s.config ch k) [withHighFlag b f]) u.slotDraws s) := by
  simp only [exec, execSetf, hd, tryBus_done, List.getD_cons_zero, hb, if_false]
  refine ha.tryWrite ?_
  have := tryWrite_ok (p := highAddrOf s.config ch k) (data := [withHighFlag b f]) (ha.resetAfter hr)
    (by rw [ha.config]; exact reaches_high hc h k) (.inl (by simp)) (answersOk_tail hok ha.answers)
  rw [ha.config, ha.bank] at this
  rw [ha.config]
  exact this

/-- R115, R51: SETF that finds the flag different and whose write fails. -/
theorem setf_writeFails {s : State} {ch : Channel} {k : Kind} {f : Bool} {b : Byte} {u : State} {e : ErrorCode}
    {m : Nat} {as : List BusAnswer} (h : ch.wf = true) (hc : s.config.wf)
    (hd : busWriteRead (highAddrOf s.config ch k) 1 s = .done [b] u)
    (ha : AfterRead (highAddrOf s.config ch k) 1 s u) (hr : s.resetAfter = none)
    (hf : s.answers = .ok :: .fail e m :: as) (hb : highFlag b ≠ f) :
    Completes (exec (.setf ch k f) s) (Answered (.transport e)
      [.writeRead (highAddrOf s.config ch k) 1, .write (highAddrOf s.config ch k) [withHighFlag b f]]
      (storeBytes s.config s.bank (highAddrOf s.config ch k) ([withHighFlag b f].take m)) u.slotDraws s) := by
  simp only [exec, execSetf, hd, tryBus_done, List.getD_cons_zero, hb, if_false]
  refine ha.tryWrite ?_
  have := tryWrite_fail (p := highAddrOf s.config ch k) (data := [withHighFlag b f]) (ha.resetAfter hr)
    (by rw [ha.config]; exact reaches_high hc h k) (.inl (by simp)) (ha.answers.trans (by rw [hf]; rfl))
  rw [ha.config, ha.bank] at this
  rw [ha.config]
  exact this

/-! ### The bank after a command, byte by byte -/

/-- The bytes after a command that wrote `data` to `ch` from its byte `b` on, of the channels it reaches. -/
theorem byteAt_member {s t : State} (hc : s.config.wf) (hcfg : t.config = s.config) {ch : Channel} (h : ch.wf = true)
    {b : Nat} {p : Address} (hp : PointsAt s.config ch b p) {data : List Byte} (hlen : b + data.length ≤ 4)
    (hb : t.bank = storeBytes s.config s.bank p data) {n r : Nat} (hn : n ∈ channelsOf ch) (hr : r < 4)
    {x : Address} (hx : x.toNat = s.config.chBase.toNat + (4 * n + r)) :
    t.byteAt x = (match (if b ≤ r then data[r - b]? else none) with
      | some d => keep s.config r d
      | none => s.byteAt x) := by
  by_cases hd : data = []
  · subst hd
    unfold State.byteAt
    rw [hcfg, hb]
    simp [storeBytes]
  have hpos : 0 < data.length := List.length_pos_iff.2 hd
  have hw : reaches s.config p data.length = true := by
    cases ch with
    | one m =>
      have hm : m < 16 := by simpa [Channel.wf] using h
      simp [PointsAt] at hp
      simp [reaches, nbulk, nslot]; omega
    | all =>
      simp [PointsAt] at hp
      simp [reaches, nbulk, nslot]; omega
  rw [byteAt_stored hc hcfg hb hw x, storedAt_member hc h (by omega) hp data hn hr hx]
  cases hcase : (if b ≤ r then data[r - b]? else none) with
  | none => rfl
  | some d =>
    have ho : offsetOf s.config x % 2 = r % 2 := by rw [offsetOf, hx]; omega
    simp [keep, ho]

/-- Every other byte. -/
theorem byteAt_other {s t : State} (hc : s.config.wf) (hcfg : t.config = s.config) {ch : Channel} (h : ch.wf = true)
    {b : Nat} {p : Address} (hp : PointsAt s.config ch b p) {data : List Byte} (hlen : b + data.length ≤ 4)
    (hb : t.bank = storeBytes s.config s.bank p data) {x : Address}
    (hx : ∀ n ∈ channelsOf ch, ∀ r, b ≤ r → r < b + data.length → x.toNat ≠ s.config.chBase.toNat + (4 * n + r)) :
    t.byteAt x = s.byteAt x := by
  by_cases hd : data = []
  · subst hd
    unfold State.byteAt
    rw [hcfg, hb]
    simp [storeBytes]
  have hpos : 0 < data.length := List.length_pos_iff.2 hd
  have hw : reaches s.config p data.length = true := by
    cases ch with
    | one m =>
      have hm : m < 16 := by simpa [Channel.wf] using h
      simp [PointsAt] at hp
      simp [reaches, nbulk, nslot]; omega
    | all =>
      simp [PointsAt] at hp
      simp [reaches, nbulk, nslot]; omega
  rw [byteAt_stored hc hcfg hb hw x, storedAt_other hc h hp hlen hx]

/-- The pair of a register after a write at its low byte (R66). -/
theorem byteAt_pair {s t : State} (hc : s.config.wf) (hcfg : t.config = s.config) {ch : Channel} {k : Kind}
    (h : ch.wf = true) {data : List Byte} (hl : data.length ≤ 2)
    (hb : t.bank = storeBytes s.config s.bank (addrOf s.config ch k) data) {n : Nat} (hn : n ∈ channelsOf ch) :
    t.byteAt (addrOf s.config (.one n) k) = data.getD 0 (s.byteAt (addrOf s.config (.one n) k)) ∧
      t.byteAt (highAddrOf s.config (.one n) k) =
        (data[1]?.map (keep s.config 1)).getD (s.byteAt (highAddrOf s.config (.one n) k)) := by
  have hk := kindIndex_le k
  obtain ⟨a1, a2⟩ := addrOf_offset hc (mem_channelsOf_lt h hn) k
  rw [byteAt_member hc hcfg h (addrOf_pointsAt hc h k) (by omega) hb hn (r := 2 * kindIndex k) (by omega) a1,
    byteAt_member hc hcfg h (addrOf_pointsAt hc h k) (by omega) hb hn (r := 2 * kindIndex k + 1) (by omega) a2]
  simp
  constructor
  · cases hd : data[0]? <;> simp
  · cases hd : data[1]? <;> simp [keep, Nat.add_mod]

/-- The pair of a register after a write at its high byte (R66). -/
theorem byteAt_highByte {s t : State} (hc : s.config.wf) (hcfg : t.config = s.config) {ch : Channel} {k : Kind}
    (h : ch.wf = true) {data : List Byte} (hl : data.length ≤ 1)
    (hb : t.bank = storeBytes s.config s.bank (highAddrOf s.config ch k) data) {n : Nat} (hn : n ∈ channelsOf ch) :
    t.byteAt (addrOf s.config (.one n) k) = s.byteAt (addrOf s.config (.one n) k) ∧
      t.byteAt (highAddrOf s.config (.one n) k) =
        (data[0]?.map (keep s.config 1)).getD (s.byteAt (highAddrOf s.config (.one n) k)) := by
  have hk := kindIndex_le k
  obtain ⟨a1, a2⟩ := addrOf_offset hc (mem_channelsOf_lt h hn) k
  rw [byteAt_member hc hcfg h (highAddrOf_pointsAt hc h k) (by omega) hb hn (r := 2 * kindIndex k) (by omega) a1,
    byteAt_member hc hcfg h (highAddrOf_pointsAt hc h k) (by omega) hb hn (r := 2 * kindIndex k + 1) (by omega) a2]
  simp
  cases hd : data[0]? <;> simp [keep, Nat.add_mod]

/-- Both registers of a channel after a write at its first byte (R66). -/
theorem byteAt_fourBytes {s t : State} (hc : s.config.wf) (hcfg : t.config = s.config) {ch : Channel}
    (h : ch.wf = true) {data : List Byte} (hl : data.length ≤ 4)
    (hb : t.bank = storeBytes s.config s.bank (addrOf s.config ch .on) data) {n : Nat} (hn : n ∈ channelsOf ch)
    (k : Kind) :
    t.byteAt (addrOf s.config (.one n) k) =
        data.getD (2 * kindIndex k) (s.byteAt (addrOf s.config (.one n) k)) ∧
      t.byteAt (highAddrOf s.config (.one n) k) =
        (data[2 * kindIndex k + 1]?.map (keep s.config 1)).getD (s.byteAt (highAddrOf s.config (.one n) k)) := by
  have hk := kindIndex_le k
  obtain ⟨a1, a2⟩ := addrOf_offset hc (mem_channelsOf_lt h hn) k
  have hp : PointsAt s.config ch 0 (addrOf s.config ch .on) := addrOf_pointsAt hc h .on
  rw [byteAt_member hc hcfg h hp (by omega) hb hn (r := 2 * kindIndex k) (by omega) a1,
    byteAt_member hc hcfg h hp (by omega) hb hn (r := 2 * kindIndex k + 1) (by omega) a2]
  simp
  constructor
  · cases hd : data[2 * kindIndex k]? <;> simp
  · cases hd : data[2 * kindIndex k + 1]? <;> simp [keep, Nat.add_mod]

/-! ### A command that only reads -/

/-- The bank in whatever state a transaction leaves is the one given. -/
def BankIs {α : Type} (m : Memory) : BusResult ErrorCode α → Prop
  | .done _ u => u.bank = m
  | .failed _ u => u.bank = m
  | .abandoned u => u.bank = m
  | .faulted _ => True
  | .refused _ => True

/-- R43: whatever it answers, a read leaves the bank. -/
theorem busWriteRead_bank (p : Address) (n : Nat) (s : State) : BankIs s.bank (busWriteRead p n s) := by
  have hb := takeAnswer_bank (issue (.writeRead p n) s)
  unfold busWriteRead checked
  split_ifs
  · rfl
  · trivial
  · trivial
  · generalize takeAnswer (issue (.writeRead p n) s) = r at hb ⊢
    obtain ⟨_ | ⟨e, m⟩, u⟩ := r
    · have hs := loadBytes_same n p u
      rw [SameButDraws] at hs
      dsimp only
      rw [hs]
      exact hb
    · exact hb

/-- R186: a command of one read, however it ends. -/
theorem tryRead_keeps {p : Address} {n : Nat} {s t : State} {f : List Byte → List Word}
    (h : tryBus (busWriteRead p n s) (fun bs u => respondOk (f bs) u) = .next t) :
    t.bank = s.bank ∧ Frame s t := by
  have hs := busWriteRead_spec p n s
  have hk := busWriteRead_bank p n s
  have hresp : ∀ (r : Response) (u : State), (respond r u).bank = u.bank := by
    intro r u; unfold respond; split <;> rfl
  have hend : ∀ (r : Response) (u : State), During s u → Frame s (respond r u) := fun r u d =>
    have e := d.ended (respond_ended r u)
    ⟨e.config, e.ai, e.inbox, e.phase, e.resetAfter⟩
  rcases hb : busWriteRead p n s with ⟨bs, u⟩ | ⟨e, u⟩ | u | _ | _ <;> rw [hb] at h hs hk <;> cases h
  · exact ⟨(hresp _ _).trans hk, hend _ _ hs.1⟩
  · exact ⟨(hresp _ _).trans hk, hend _ _ hs.1⟩
  · obtain ⟨_, rfl⟩ := hs
    exact ⟨rfl, rfl, rfl, rfl, rfl, rfl⟩

end Sys2Proof.Machine
end

