-- ==== Sys2Proof/Laws/PerInstr.lean ====
section
/-! SUPPORT. Facts about the eleven commands as syntax, one lemma a constructor. -/

namespace Sys2Proof.Laws

/-- Every 4-bit opcode, flag bit and channel field put into a header is read back, and the header meets the row of R83's
map (R81, R83). -/
theorem headerWord_row (op : Op) (k f : Bool) (ch : BitVec 5) (hk : k = true → op.usesKind = true)
    (hf : f = true → op.usesFlag = true) (hch : op.usesChannel = false → ch = 0) :
    headerWord op k f ch &&& op.maskWord = op.matchWord := by
  revert k f ch
  cases op <;> decide

/-- The packet of a command: its header meets the command's row of R83 and it carries the row's number of operand
words. -/
def EncodingRow.Statement (i : Instr) : Prop :=
  (encode i).header &&& i.op.maskWord = i.op.matchWord ∧
    ∀ n, i.op.operandWords = some n → (encode i).operands.length = n

/-- The statement from what a command's encoding puts into its header. -/
theorem EncodingRow.of_header {i : Instr} {k f : Bool} {ch : BitVec 5} (h : (encode i).header = headerWord i.op k f ch)
    (hk : k = true → i.op.usesKind = true) (hf : f = true → i.op.usesFlag = true)
    (hch : i.op.usesChannel = false → ch = 0) (hn : i.op.operandWords = none ∨
      i.op.operandWords = some (encode i).operands.length) : EncodingRow.Statement i := by
  refine ⟨h ▸ headerWord_row _ _ _ _ hk hf hch, fun n hs => ?_⟩
  rcases hn with hn | hn
  · rw [hn] at hs; cases hs
  · exact Option.some.inj (hn.symm.trans hs)

theorem EncodingRow.addr (ch : Channel) (k : Kind) : EncodingRow.Statement (.addr ch k) :=
  of_header (i := .addr ch k) (k := k.bit) (f := false) (ch := ch.field) rfl (fun _ => rfl) nofun nofun (.inr rfl)

theorem EncodingRow.getc (ch : Channel) (k : Kind) : EncodingRow.Statement (.getc ch k) :=
  of_header (i := .getc ch k) (k := k.bit) (f := false) (ch := ch.field) rfl (fun _ => rfl) nofun nofun (.inr rfl)

theorem EncodingRow.setc (ch : Channel) (k : Kind) (value : Word) : EncodingRow.Statement (.setc ch k value) :=
  of_header (i := .setc ch k value) (k := k.bit) (f := false) (ch := ch.field) rfl (fun _ => rfl) nofun nofun
    (.inr rfl)

theorem EncodingRow.setf (ch : Channel) (k : Kind) (f : Bool) : EncodingRow.Statement (.setf ch k f) :=
  of_header (i := .setf ch k f) (k := k.bit) (f := f) (ch := ch.field) rfl (fun _ => rfl) (fun _ => rfl) nofun
    (.inr rfl)

theorem EncodingRow.setonoff (ch : Channel) (onV offV : Word) : EncodingRow.Statement (.setonoff ch onV offV) :=
  of_header (i := .setonoff ch onV offV) (k := false) (f := false) (ch := ch.field) rfl nofun nofun nofun (.inr rfl)

theorem EncodingRow.getonoff (ch : Channel) : EncodingRow.Statement (.getonoff ch) :=
  of_header (i := .getonoff ch) (k := false) (f := false) (ch := ch.field) rfl nofun nofun nofun (.inr rfl)

theorem EncodingRow.rdall : EncodingRow.Statement .rdall :=
  of_header (i := .rdall) (k := false) (f := false) (ch := 0) rfl nofun nofun (fun _ => rfl) (.inr rfl)

theorem EncodingRow.wrall (values : List Word) : EncodingRow.Statement (.wrall values) :=
  of_header (i := .wrall values) (k := false) (f := false) (ch := 0) rfl nofun nofun (fun _ => rfl) (.inl rfl)

theorem EncodingRow.plen (onT offT : Word) : EncodingRow.Statement (.plen onT offT) :=
  of_header (i := .plen onT offT) (k := false) (f := false) (ch := 0) rfl nofun nofun (fun _ => rfl) (.inr rfl)

theorem EncodingRow.plenplain (onV offV : Word) : EncodingRow.Statement (.plenplain onV offV) :=
  of_header (i := .plenplain onV offV) (k := false) (f := false) (ch := 0) rfl nofun nofun (fun _ => rfl) (.inr rfl)

theorem EncodingRow.getpulse (ch : Channel) : EncodingRow.Statement (.getpulse ch) :=
  of_header (i := .getpulse ch) (k := false) (f := false) (ch := ch.field) rfl nofun nofun nofun (.inr rfl)

end Sys2Proof.Laws
end

