-- ==== Sys2Proof/Tests/Slice0.lean ====
section
/-! SUPPORT. Tests of the model and witnesses of the statements. The expected results are those of
spec/95_test_vectors.md (its section is named at each test) or are read off a rule; none is the model's own answer. -/

namespace Sys2Proof.Tests

open Sys2Proof.Machine

/-! ### WellFormed: a term for each check, refused -/

theorem test_wf_addr_refused : (Instr.addr (.one 16) .on).wf = false := by decide
theorem test_wf_getc_refused : (Instr.getc (.one 16) .off).wf = false := by decide
theorem test_wf_setc_refused : (Instr.setc (.one 17) .on 0).wf = false := by decide
theorem test_wf_setf_refused : (Instr.setf (.one 16) .on true).wf = false := by decide
theorem test_wf_setonoff_refused : (Instr.setonoff (.one 31) 0 0).wf = false := by decide
theorem test_wf_getonoff_refused : (Instr.getonoff (.one 16)).wf = false := by decide
theorem test_wf_getpulse_refused : (Instr.getpulse (.one 32)).wf = false := by decide
theorem test_wf_accepted :
    (Instr.addr (.one 15) .off).wf = true ∧ (Instr.getc .all .on).wf = true ∧ (Instr.wrall []).wf = true := by decide
/-- R7: the channel window would end above 255; the broadcast window would; the two would overlap. -/
theorem test_config_wf_refused :
    ¬ Config.wf { chBase := 0xC1, allBase := 0x00, rsvdStored := false } ∧
      ¬ Config.wf { chBase := 0x06, allBase := 0xFD, rsvdStored := false } ∧
      ¬ Config.wf { chBase := 0x06, allBase := 0x45, rsvdStored := true } ∧
      ¬ Config.wf { chBase := 0x06, allBase := 0x03, rsvdStored := true } := by decide
/-- R7: the tightest places that are admitted. -/
theorem test_config_wf_accepted :
    Config.wf { chBase := 0xC0, allBase := 0xBC, rsvdStored := false } ∧
      Config.wf { chBase := 0xBC, allBase := 0xFC, rsvdStored := true } ∧ Config.wf Config.default := by decide

/-! ### Decoding: words written out from R81 and R83, fields `OP K F RSV CH` -/

/-- `0000 1 0 00000 01111` -/
theorem test_decode_addr : decode { header := 0b0000100000001111, operands := [] } = .ok (.addr (.one 15) .off) := by
  decide
/-- `0001 0 0 00000 10000` -/
theorem test_decode_getc : decode { header := 0b0001000000010000, operands := [] } = .ok (.getc .all .on) := by decide
/-- `0010 1 0 00000 00111`, one operand word -/
theorem test_decode_setc :
    decode { header := 0b0010100000000111, operands := [0xFFFF] } = .ok (.setc (.one 7) .off 65535) := by decide
/-- `0011 0 1 00000 00011`, and with `F` = 0 -/
theorem test_decode_setf :
    decode { header := 0b0011010000000011, operands := [] } = .ok (.setf (.one 3) .on true) ∧
      decode { header := 0b0011100000001111, operands := [] } = .ok (.setf (.one 15) .off false) := by decide
/-- `0100 0 0 00000 10000`, two operand words, on first (R84) -/
theorem test_decode_setonoff :
    decode { header := 0b0100000000010000, operands := [1, 2] } = .ok (.setonoff .all 1 2) := by decide
/-- `0101 0 0 00000 00011` -/
theorem test_decode_getonoff : decode { header := 0b0101000000000011, operands := [] } = .ok (.getonoff (.one 3)) := by
  decide
/-- `0110 0 0 00000 00000` -/
theorem test_decode_rdall : decode { header := 0b0110000000000000, operands := [] } = .ok .rdall := by decide
/-- `0111 0 0 00000 00000`: any number of operand words is legal (R89) -/
theorem test_decode_wrall :
    decode { header := 0b0111000000000000, operands := [] } = .ok (.wrall []) ∧
      decode { header := 0b0111000000000000, operands := [7, 8] } = .ok (.wrall [7, 8]) := by decide
/-- `1000 0 0 00000 00000`, two operand words -/
theorem test_decode_plen :
    decode { header := 0b1000000000000000, operands := [4000, 100] } = .ok (.plen 4000 100) := by decide
/-- `1001 0 0 00000 00000`, two operand words -/
theorem test_decode_plenplain :
    decode { header := 0b1001000000000000, operands := [100, 2000] } = .ok (.plenplain 100 2000) := by decide
/-- `1010 0 0 00000 00101` -/
theorem test_decode_getpulse : decode { header := 0b1010000000000101, operands := [] } = .ok (.getpulse (.one 5)) := by
  decide
/-- §95 2.8: every illegal packet of the table, with its cause. -/
theorem test_decode_illegal :
    decode { header := 0xB000, operands := [] } = .error .reservedOpcode ∧
    decode { header := 0xF010, operands := [] } = .error .reservedOpcode ∧
    decode { header := 0x1023, operands := [] } = .error .reservedBits ∧
    decode { header := 0x1403, operands := [] } = .error .flagUnused ∧
    decode { header := 0x5803, operands := [] } = .error .kindUnused ∧
    decode { header := 0x1011, operands := [] } = .error .noSuchChannel ∧
    decode { header := 0x6001, operands := [] } = .error .channelUnused ∧
    decode { header := 0x2003, operands := [] } = .error .operandCount ∧
    decode { header := 0x2003, operands := [1, 2] } = .error .operandCount ∧
    decode { header := 0x0003, operands := [0] } = .error .operandCount ∧
    decode { header := 0x8000, operands := [1] } = .error .operandCount ∧
    decode { header := 0x6000, operands := [0] } = .error .operandCount := by decide
/-- The table's own numbering: a row's 16 bits, with operand words of zeros. -/
theorem test_decode_table_word :
    decodeTableWord 16 0x2803 = some (.setc (.one 3) .off 0) ∧ decodeTableWord 16 0x8000 = some (.plen 0 0) ∧
      decodeTableWord 16 0x7000 = some (.wrall (List.replicate 32 0)) ∧ decodeTableWord 16 0x1011 = none := by decide
/-- R91, R94 and the listing forms of 30_encoding.md. -/
theorem test_assembler : commandText (.setc (.one 3) .on 1000) = "SETC.ON ch3, 1000" := by decide

/-! ### One command each (§95) -/

/-- A machine with the bytes listed in its bank, auto-increment on, the commands to present, and a bus that answers two
transactions ok (R212). -/
def machine (bytes : Memory) (packets : List Packet) : State :=
  { State.start Config.default (bytes.foldl (fun m x => Memory.write Config.default m x.1 x.2) []) true with
    inbox := packets.map fun p => .command p none
    answers := [.ok, .ok] }

/-- The responses, the bus trace and the bytes of the bank at given addresses after one step. -/
def observed (s : State) (at_ : List Address) : Option (List Response × List Transaction × List Byte) :=
  (nextState (step s)).map fun t => (t.responses, t.trace, at_.map t.byteAt)

/-- §95 2.1. -/
theorem test_addr :
    observed (machine [] [{ header := 0x0803, operands := [] }]) [] = some ([.ok [0x0014]], [], []) := by decide
theorem test_addr_all :
    observed (machine [] [{ header := 0x0810, operands := [] }]) [] = some ([.ok [0x00FC]], [], []) := by decide

/-- §95 2.2: a set flag is discarded. -/
theorem test_getc :
    observed (machine [(0x44, 0xFF), (0x45, 0x1F)] [{ header := 0x180F, operands := [] }]) [0x45] =
      some ([.ok [0x0FFF]], [.writeRead 0x44 2], [0x1F]) := by decide
/-- §95 2.2: of All, drawn bytes. -/
theorem test_getc_all :
    observed { machine [] [{ header := 0x1010, operands := [] }] with slotDraws := [0x34, 0xF2] } [] =
      some ([.ok [0x0234]], [.writeRead 0xFA 2], []) := by decide

/-- §95 2.3: the full-on flag survives. -/
theorem test_setc :
    observed (machine [(0x12, 0x00), (0x13, 0x10)] [{ header := 0x2003, operands := [0x03E8] }]) [0x12, 0x13] =
      some ([.ok []], [.writeRead 0x13 1, .write 0x12 [0xE8, 0x13]], [0xE8, 0x13]) := by decide
/-- §95 2.9: the write fails after one byte. -/
theorem test_setc_write_fails :
    observed { machine [(0x0A, 0x34), (0x0B, 0x12)] [{ header := 0x2001, operands := [0x0ABC] }] with
        answers := [.ok, .fail 7 1] } [0x0A, 0x0B] =
      some ([.transport 7], [.writeRead 0x0B 1, .write 0x0A [0xBC, 0x1A]], [0xBC, 0x12]) := by decide

/-- §95 2.4: the flag changes, the counter's low byte does not. -/
theorem test_setf :
    observed (machine [(0x12, 0x77), (0x13, 0x03)] [{ header := 0x3403, operands := [] }]) [0x12, 0x13] =
      some ([.ok []], [.writeRead 0x13 1, .write 0x13 [0x13]], [0x77, 0x13]) := by decide
/-- §95 2.4: set already, so no write. -/
theorem test_setf_same :
    observed (machine [(0x09, 0x10)] [{ header := 0x3C00, operands := [] }]) [0x09] =
      some ([.ok []], [.writeRead 0x09 1], [0x10]) := by decide

/-- §95 2.5: both flags are cleared. -/
theorem test_setonoff :
    observed (machine [(0x06, 0x00), (0x07, 0x10), (0x08, 0x00), (0x09, 0x10)]
        [{ header := 0x4000, operands := [0x0FA0, 0x0064] }]) [0x06, 0x07, 0x08, 0x09] =
      some ([.ok []], [.write 0x06 [0xA0, 0x0F, 0x64, 0x00]], [0xA0, 0x0F, 0x64, 0x00]) := by decide
/-- §95 2.5: of All, every channel; here the first and the last. -/
theorem test_setonoff_all :
    observed (machine [] [{ header := 0x4010, operands := [0x0000, 0x0800] }])
        [0x06, 0x07, 0x08, 0x09, 0x42, 0x43, 0x44, 0x45, 0xFA] =
      some ([.ok []], [.write 0xFA [0x00, 0x00, 0x00, 0x08]],
        [0x00, 0x00, 0x00, 0x08, 0x00, 0x00, 0x00, 0x08, 0x00]) := by decide +kernel

/-- §95 2.5. -/
theorem test_getonoff :
    observed (machine [(0x12, 0xE8), (0x13, 0x13), (0x14, 0x00), (0x15, 0x00)]
        [{ header := 0x5003, operands := [] }]) [] =
      some ([.ok [0x13E8, 0x0000]], [.writeRead 0x12 4], []) := by decide

/-- The values of §95 2.6. -/
def bulkValues : List Word :=
  [0x0000, 0x0080, 0x0100, 0x0180, 0x0200, 0x0280, 0x0300, 0x1380, 0x0400, 0x0480, 0x0500, 0x0580, 0x0600, 0x0680,
    0x0700, 0x1780] ++
  [0x0800, 0x0880, 0x0900, 0x0980, 0x0A00, 0x0A80, 0x0B00, 0x1B80, 0x0C00, 0x0C80, 0x0D00, 0x0D80, 0x0E00, 0x0E80,
    0x0F00, 0x1F80]

/-- §95 2.6: the bytes of channels 0, 3 and 15. -/
theorem test_wrall :
    (observed (machine [] [{ header := 0x7000, operands := bulkValues }])
        [0x06, 0x07, 0x08, 0x09, 0x12, 0x13, 0x14, 0x15, 0x44, 0x45]).map (fun o => (o.1, o.2.2)) =
      some ([.ok []], [0x00, 0x00, 0x80, 0x00, 0x00, 0x03, 0x80, 0x13, 0x80, 0x1F]) := by decide +kernel
/-- R51, R142: WRALL of 0xFFFF words whose write stored 4 and 63 bytes of the 64: the last new byte and the first old one
(the family's power-up bytes, log 3). -/
theorem test_wrall_fails :
    (observed { machine [] [{ header := 0x7000, operands := List.replicate 32 0xFFFF }] with answers := [.fail 7 4] }
        [0x06, 0x09, 0x0A]).map (fun o => (o.1, o.2.2)) = some ([.transport 7], [0xFF, 0x1F, 0x00]) ∧
      (observed { machine [] [{ header := 0x7000, operands := List.replicate 32 0xFFFF }] with
          answers := [.fail 7 63] } [0x44, 0x45]).map (fun o => (o.1, o.2.2)) =
        some ([.transport 7], [0xFF, 0x10]) := by decide +kernel
/-- §95 2.6: 31 values, nothing is written. -/
theorem test_wrall_short :
    observed (machine [] [{ header := 0x7000, operands := bulkValues.take 31 }]) [] =
      some ([.invalidInput], [], []) := by decide

/-- R141 on a bank whose channel 1 holds 0x0123 and 0x1456, the others the power-up values: slots 2 and 3. -/
theorem test_rdall :
    observed (machine [(0x0A, 0x23), (0x0B, 0x01), (0x0C, 0x56), (0x0D, 0x14)] [{ header := 0x6000, operands := [] }])
        [] =
      some ([.ok ([0x0000, 0x1000, 0x0123, 0x1456] ++ (List.replicate 14 [0x0000, 0x1000]).flatten)],
        [.writeRead 0x06 64], []) := by decide +kernel

/-- §95 2.7: both flags set, full-off wins. -/
theorem test_plen :
    observed (machine [] [{ header := 0x8000, operands := [0x1064, 0x17D0] }]) [] = some ([.ok [0]], [], []) := by decide
theorem test_plen_wraps :
    observed (machine [] [{ header := 0x8000, operands := [0x0FA0, 0x0064] }]) [] = some ([.ok [0x00C3]], [], []) := by
  decide
/-- §95 2.7: the largest wrap; and bits 15:12 ignored. -/
theorem test_plenplain :
    observed (machine [] [{ header := 0x9000, operands := [1, 0] }]) [] = some ([.ok [4094]], [], []) := by decide
theorem test_plenplain_masks :
    observed (machine [] [{ header := 0x9000, operands := [0xF000, 0xEFFF] }]) [] = some ([.ok [4095]], [], []) := by
  decide
/-- §95 2.7. -/
theorem test_getpulse :
    observed (machine [(0x12, 0xE8), (0x13, 0x03), (0x14, 0xF4), (0x15, 0x01)] [{ header := 0xA003, operands := [] }])
        [] = some ([.ok [0x0E0B]], [.writeRead 0x12 4], []) := by decide

/-- §95 2.9: IllegalCommand wins over InvalidInput. -/
theorem test_illegal_first :
    observed (machine [] [{ header := 0x2023, operands := [0x1388] }]) [] = some ([.illegalCommand], [], []) := by decide
/-- R213: a two-byte read with auto-increment off is refused; a one-byte SETF completes (§95 2.4). -/
theorem test_no_auto_increment :
    (nextState (step { machine [] [{ header := 0x1000, operands := [] }] with ai := false })).isNone = true ∧
      observed { machine [(0x45, 0x0F)] [{ header := 0x3C0F, operands := [] }] with ai := false } [0x45] =
        some ([.ok []], [.writeRead 0x45 1, .write 0x45 [0x1F]], [0x1F]) := by decide
/-- R32: SETC reset after its read: no write, no response. -/
theorem test_reset_mid_command :
    observed { machine [(0x12, 0x00), (0x13, 0x10)] [] with
        inbox := [.command { header := 0x2003, operands := [0x03E8] } (some 1)] } [0x12, 0x13] =
      some ([], [.writeRead 0x13 1], [0x00, 0x10]) := by decide
/-- R216, R51: SETC reset in the middle of its write, one byte stored: the mixture stays, no response. -/
theorem test_reset_mid_write :
    observed { machine [(0x0A, 0x34), (0x0B, 0x12)] [] with
        inbox := [.command { header := 0x2001, operands := [0x0ABC] } (some 2)], answers := [.ok, .fail 7 1] }
        [0x0A, 0x0B] =
      some ([], [.writeRead 0x0B 1, .write 0x0A [0xBC, 0x1A]], [0xBC, 0x12]) := by decide
/-- R32: a reset after a transaction that failed and before its response: no response. -/
theorem test_reset_after_failed_read :
    observed { machine [] [] with
        inbox := [.command { header := 0x1003, operands := [] } (some 1)], answers := [.fail 7 0] } [] =
      some ([], [.writeRead 0x12 2], []) := by decide
/-- R52. -/
theorem test_enable_auto_increment :
    (nextState (step { State.reset with inbox := [.enableAutoIncrement], answers := [.ok] })).map (·.ai) =
        some true ∧
      (nextState (step { State.reset with inbox := [.enableAutoIncrement], answers := [.fail 1 0] })).map (·.ai) =
        some false := by decide
/-- R90. -/
theorem test_response_words :
    responseWords (.ok [0x14]) = [0, 0x14] ∧ responseWords .invalidInput = [1] ∧
      responseWords (.transport 7) = [2, 7] ∧ responseWords .illegalCommand = [3] := by decide
/-- R46: a reserved bit is kept where it is stored and lost where it is not. -/
theorem test_reserved_bits :
    (nextState (step { machine [] [{ header := 0x7000, operands := List.replicate 32 0xFFFF }] with
        config := { Config.default with rsvdStored := true } })).map (fun t => t.reg 5 .off) = some 0xFFFF ∧
      (nextState (step (machine [] [{ header := 0x7000, operands := List.replicate 32 0xFFFF }]))).map
        (fun t => t.reg 5 .off) = some 0x1FFF := by decide +kernel
/-- The table's words run as the first instruction after reset. -/
theorem test_fetch_word :
    (nextState (step (State.reset.withFetchWord 16 0x1003))).map (·.responses) = some [.ok [0]] ∧
      (nextState (step (State.reset.withFetchWord 16 0x7000))).map (·.responses) = some [.ok []] := by decide
/-- Log 2: the family's values, PRESUMED. -/
theorem test_reset_registers :
    State.reset.reg 0 .on = 0x0000 ∧ State.reset.reg 15 .off = 0x1000 ∧ State.reset.ai = false := by decide

/-! ### Witnesses: for every statement with hypotheses, a state and operands that meet them together -/

theorem next_of_isSome {o : Host.Outcome State Fault Refusal} (h : (nextState o).isSome = true) :
    ∃ t, o = .next t := by
  cases o with
  | next t => exact ⟨t, rfl⟩
  | fault _ => cases h
  | refused _ => cases h

/-- An idle block, auto-increment on, every transaction answered, four bytes to draw. -/
def calm : State :=
  { machine [(0x12, 0xE8), (0x13, 0x13)] [] with
    answers := [.ok, .ok, .ok], slotDraws := [0x34, 0x12, 0x78, 0x16] }

/-- The same with the bus answering as given. -/
def calmWith (answers : List BusAnswer) : State := { calm with answers := answers }

/-- The same with the host presenting as given. -/
def calmAsked (inbox : List HostAction) : State := { calm with inbox := inbox }

/-- What the statements on one command ask of `calm`, at the last channel and at All, and at the largest counter. -/
theorem test_witness_calm :
    Undisturbed 3 calm ∧ Undisturbed 2 calm ∧ Undisturbed 1 calm ∧ calm.ai = true ∧ calm.phase = .idle ∧ Inv calm ∧
      Channel.wf (.one 15) = true ∧ Channel.wf (.one 0) = true ∧ Channel.wf .all = true ∧
      (4095 : Word).toNat ≤ 4095 ∧ calm.slotDraws = 0x34 :: 0x12 :: 0x78 :: [0x16] := by decide

/-- What they ask of the bus that fails the first, or the second, transaction. -/
theorem test_witness_failing :
    (calmWith [.fail 7 1]).answers = [.fail 7 1] ∧ (calmWith [.ok, .fail 7 1]).answers = [.ok, .fail 7 1] ∧
      (calmWith [.fail 7 1]).config.wf ∧ (calmWith [.fail 7 1]).resetAfter = none ∧
      (calmWith [.ok, .fail 7 1]).ai = true := by decide

theorem test_witness_decode_of_encode :
    (Instr.setc (.one 15) .off 0xFFFF).wf = true ∧ (Instr.setf .all .on true).wf = true ∧
      (Instr.wrall [1, 2, 3]).wf = true := by decide
theorem test_witness_encode_of_decode :
    decode { header := 0x3C0F, operands := [] } = .ok (.setf (.one 15) .off true) ∧
      decode { header := 0x7000, operands := [0xFFFF] } = .ok (.wrall [0xFFFF]) := by decide
theorem test_witness_header_row :
    (0xA010 : Word) &&& Op.getpulse.maskWord = Op.getpulse.matchWord ∧
      decode { header := 0xA010, operands := [] } = .ok (.getpulse .all) := by decide
theorem test_witness_illegal :
    (calmAsked [.command { header := 0x1011, operands := [] } none]).phase = .idle ∧
      (calmAsked [.command { header := 0x1011, operands := [] } none]).inbox =
        .command { header := 0x1011, operands := [] } none :: [] ∧
      decode { header := 0x1011, operands := [] } = .error .noSuchChannel := by decide
theorem test_witness_pseudo : Channel.wf (.one 15) = true ∧ Channel.wf .all = true := by decide
theorem test_witness_step_runs :
    (calmAsked [.command { header := 0x2803, operands := [5] } (some 1), .resetBlock]).phase = .idle ∧
      (calmAsked [.command { header := 0x2803, operands := [5] } (some 1), .resetBlock]).inbox =
        .command { header := 0x2803, operands := [5] } (some 1) :: [.resetBlock] ∧
      decode { header := 0x2803, operands := [5] } = .ok (.setc (.one 3) .off 5) := by decide
theorem test_witness_waits :
    ({ calmAsked [.resetBlock] with phase := .busy } : State).phase = .busy ∧ (calmAsked []).inbox = [] := by decide
theorem test_witness_enable_auto_increment :
    (calmAsked [.enableAutoIncrement]).phase = .idle ∧
      (calmAsked [.enableAutoIncrement]).inbox = .enableAutoIncrement :: [] ∧
      (calmAsked [.enableAutoIncrement]).answers = .ok :: [.ok, .ok] ∧ (calmAsked [.enableAutoIncrement]).ai = true ∧
      ({ calmWith [.fail 1 0] with inbox := [.enableAutoIncrement] } : State).answers = .fail 1 0 :: [] ∧
      ({ calmAsked [.enableAutoIncrement] with phase := .busy } : State).phase = .busy := by decide
theorem test_witness_block_reset :
    (calmAsked [.resetBlock]).phase = .idle ∧ (calmAsked [.resetBlock]).inbox = .resetBlock :: [] := by decide
/-- A reset before, between and just after the two transactions of a SETC, one that arrives too late, and one after a
failed read. -/
theorem test_witness_reset_mid_command :
    (Instr.setc (.one 3) .on 1000).wf = true ∧ calm.config.wf ∧ calm.ai = true ∧
      (nextState (exec (.setc (.one 3) .on 1000) { calm with resetAfter := none })).map (·.trace.length) = some 2 ∧
      (nextState (exec (.setc (.one 3) .on 1000) { calm with resetAfter := some 0 })).map (·.trace.length) = some 0 ∧
      (nextState (exec (.setc (.one 3) .on 1000) { calm with resetAfter := some 1 })).map (·.trace.length) = some 1 ∧
      (nextState (exec (.setc (.one 3) .on 1000) { calm with resetAfter := some 2 })).map (·.responses) = some [] ∧
      (nextState (exec (.setc (.one 3) .on 1000) { calm with resetAfter := some 3 })).map (·.responses) =
        some [.ok []] ∧
      (nextState (exec (.setc (.one 3) .on 1000) { calmWith [.fail 7 0] with resetAfter := some 1 })).map
        (·.responses) = some [] := by decide
theorem test_witness_start :
    Config.wf { chBase := 0xC0, allBase := 0xBC, rsvdStored := true } ∧
      Memory.wf { chBase := 0xC0, allBase := 0xBC, rsvdStored := true } [(0xC0, 1), (0xFF, 0xFF)] ∧
      bankLegal { chBase := 0xC0, allBase := 0xBC, rsvdStored := true } [(0xC0, 1), (0xFF, 0xFF)] := by decide
theorem test_witness_invariant_step :
    Inv (calmAsked [.command { header := 0x4003, operands := [4095, 0] } none]) ∧
      ∃ t, step (calmAsked [.command { header := 0x4003, operands := [4095, 0] } none]) = .next t :=
  ⟨by decide, next_of_isSome (by decide)⟩
/-- Both ways a step can end: on, and refused with auto-increment off. -/
theorem test_witness_step_stops :
    Inv (calmAsked [.command { header := 0x1003, operands := [] } none]) ∧
      Inv { calmAsked [.command { header := 0x1003, operands := [] } none] with ai := false } ∧
      (nextState (step { calmAsked [.command { header := 0x1003, operands := [] } none] with ai := false })).isNone =
        true := by decide
theorem test_witness_multi_byte :
    Channel.wf (.one 15) = true ∧ Channel.wf .all = true ∧ Undisturbed 2 { calm with ai := false } ∧
      ({ calm with ai := false } : State).ai = false ∧ (List.replicate 32 (0xFFFF : Word)).length = 32 := by decide
theorem test_witness_nothing_clears :
    (nextState (step { calmAsked [.enableAutoIncrement] with ai := false })).map (·.ai) = some true ∧
      (nextState (step (calmAsked [.command { header := 0x1003, operands := [] } none]))).isSome = true := by decide
theorem test_witness_transactions :
    (∃ t, exec (.setc (.one 15) .off 4095) calm = .next t) ∧ (∃ t, exec (.setf .all .off false) calm = .next t) ∧
      (∃ t, exec .rdall calm = .next t) ∧ ∃ t, exec (.addr .all .on) (calmWith [.fail 1 0]) = .next t :=
  ⟨next_of_isSome (by decide), next_of_isSome (by decide), next_of_isSome (by decide), next_of_isSome (by decide)⟩
/-- One transaction more for each success: two, none, one. -/
theorem test_witness_sequencer :
    (nextState (exec (.setc (.one 3) .on 0) calm)).map (·.position) = some 2 ∧
      (nextState (exec (.setc (.one 3) .on 0) (calmWith [.fail 1 0]))).map (·.position) = some 0 ∧
      (nextState (exec (.setc (.one 3) .on 0) (calmWith [.ok, .fail 1 0]))).map (·.position) = some 1 ∧
      (nextState (exec (.addr (.one 3) .on) calm)).map (·.pointer) = some 0 := by decide
theorem test_witness_invalid_input :
    (Instr.setc .all .off 4096).wf = true ∧ calm.resetAfter = none ∧ 4095 < (4096 : Word).toNat ∧
      (List.replicate 33 (0 : Word)).length ≠ 32 ∧ ([] : List Word).length ≠ 32 ∧
      (nextState (exec (.setonoff (.one 15) 0 4096) calm)).map (·.responses) = some [.invalidInput] ∧
      (nextState (exec (.setonoff (.one 15) 4096 0) calm)).map (·.responses) = some [.invalidInput] ∧
      (nextState (exec (.wrall []) calm)).map (·.responses) = some [.invalidInput] := by decide
theorem test_witness_one_response :
    (nextState (exec (.getonoff .all) calm)).map (·.responses) = some [.ok [0x1234, 0x1678]] ∧
      (nextState (exec (.setc .all .on 4096) calm)).map (·.responses) = some [.invalidInput] ∧
      (nextState (exec .rdall (calmWith [.fail 9 0]))).map (·.responses) = some [.transport 9] := by decide
theorem test_witness_reading :
    (∃ t, exec (.getc (.one 15) .off) calm = .next t) ∧ (∃ t, exec (.getpulse .all) calm = .next t) ∧
      (∃ t, exec (.getonoff (.one 0)) (calmWith [.fail 1 2]) = .next t) ∧
      (∃ t, exec .rdall { calm with resetAfter := some 0 } = .next t) ∧
      (∃ t, exec (.addr .all .off) calm = .next t) ∧ (∃ t, exec (.plen 0 0) calm = .next t) ∧
      ∃ t, exec (.plenplain 0xFFFF 0) calm = .next t :=
  ⟨next_of_isSome (by decide), next_of_isSome (by decide), next_of_isSome (by decide), next_of_isSome (by decide),
    next_of_isSome (by decide), next_of_isSome (by decide), next_of_isSome (by decide)⟩
theorem test_witness_writing :
    (∃ t, exec (.setc .all .off 4095) calm = .next t) ∧ (∃ t, exec (.setf (.one 15) .on true) calm = .next t) ∧
      (∃ t, exec (.setonoff (.one 15) 4095 0) (calmWith [.fail 1 3]) = .next t) ∧
      (∃ t, exec (.wrall (List.replicate 32 0xFFFF)) calm = .next t) ∧ ∃ t, exec (.wrall []) calm = .next t :=
  ⟨next_of_isSome (by decide), next_of_isSome (by decide), next_of_isSome (by decide), next_of_isSome (by decide),
    next_of_isSome (by decide)⟩
/-- Two blocks that differ in everything a block holds between commands. -/
theorem test_witness_nothing_outlives :
    calm.phase = .idle ∧
      ({ calm with buf := [], position := 7, pointer := 0x33, responses := [.illegalCommand], trace := [.writeRead 6 64],
                   resetAfter := some 1 } : State).phase = .idle ∧
      ∃ t, step (calmAsked [.command { header := 0x2003, operands := [1] } none]) = .next t :=
  ⟨by decide, by decide, next_of_isSome (by decide)⟩
/-- A read of All that fails, its value renamed: the answers a step can need are listed. -/
theorem test_witness_error_values :
    2 ≤ ({ calmWith [.fail 7 0, .ok] with
        inbox := [.command { header := 0x1010, operands := [] } none] } : State).answers.length ∧
      (State.mapError (fun e : ErrorCode => e == 7) (calmWith [.fail 7 0, .ok])).answers = [.fail true 0, .ok] := by
  decide
theorem test_witness_banks :
    Memory.wf Config.default [(0x06, 1), (0x45, 0x00)] ∧
      ∀ a : Nat, Memory.read Config.default [(0x06, 1), (0x45, 0x00)] a =
        Memory.read Config.default [(0x06, 1), (0x45, 0x00)] a := ⟨by decide, fun _ => rfl⟩
theorem test_witness_mapped_pairs :
    (Config.wf { chBase := 0xBC, allBase := 0xFC, rsvdStored := false }) ∧ Channel.wf (.one 15) = true ∧
      Channel.wf .all = true ∧ ((Channel.one 15, Kind.off) ≠ (Channel.all, Kind.on)) ∧
      ((Channel.one 3, Kind.off) ≠ (Channel.one 3, Kind.on)) ∧ (14 : Nat) < 15 := by decide
/-- GETC, GETONOFF, GETPULSE, SETONOFF, RDALL, WRALL: `calm` and its failing twin meet the hypotheses of each. -/
theorem test_witness_reads_and_writes :
    calm.config.wf ∧ calm.resetAfter = none ∧ calm.ai = true ∧ AnswersOk 1 calm ∧
      (calmWith [.fail 7 3]).answers = .fail 7 3 :: [] ∧ (calmWith [.fail 7 3]).config.wf ∧
      (calmWith [.fail 7 3]).ai = true ∧ bulkValues.length = 32 ∧ bulkValues[2 * 15]? = some 0x0F00 ∧
      bulkValues[2 * 15 + 1]? = some 0x1F80 := by decide
/-- WRALL whose write stored 3, 4, 63 or all 64 bytes: a last byte that is new, and (but for 64) a first one that is not,
each in range of its clause. -/
theorem test_witness_wrall_prefixes :
    (calmWith [.fail 7 3]).answers = .fail 7 3 :: [] ∧ (calmWith [.fail 7 4]).answers = .fail 7 4 :: [] ∧
      (calmWith [.fail 7 63]).answers = .fail 7 63 :: [] ∧ (calmWith [.fail 7 64]).answers = .fail 7 64 :: [] ∧
      bulkValues[2 / 2]? = some 0x0080 ∧ bulkValues[3 / 2]? = some 0x0080 ∧ bulkValues[62 / 2]? = some 0x1F80 ∧
      bulkValues[63 / 2]? = some 0x1F80 ∧ (0x09 : Address).toNat = calm.config.chBase.toNat + 3 ∧
      (0x45 : Address).toNat = calm.config.chBase.toNat + 63 ∧
      calm.config.chBase.toNat + min 64 64 ≤ (0x46 : Address).toNat := by decide
/-- The statements on a failed write at every number of bytes stored, none among them, whichever transaction it is. -/
theorem test_witness_prefix_lengths (m : Nat) :
    (calmWith [.fail 7 m]).answers = .fail 7 m :: [] ∧ (calmWith [.ok, .fail 7 m]).answers = .ok :: .fail 7 m :: [] ∧
      (calmWith [.fail 7 m]).config.wf ∧ (calmWith [.fail 7 m]).resetAfter = none ∧
      (calmWith [.fail 7 m]).ai = true := ⟨rfl, rfl, (by decide : Config.default.wf), rfl, rfl⟩
/-- SETC and SETF of which the second transaction failed with its whole data stored, and reads of All with draws listed. -/
theorem test_witness_stored_whole :
    (calmWith [.ok, .fail 7 2]).answers = .ok :: .fail 7 2 :: [] ∧ (calmWith [.ok, .fail 7 2]).ai = true ∧
      (calmWith [.ok, .fail 7 2]).config.wf ∧ (calmWith [.ok, .fail 7 2]).resetAfter = none ∧ 2 ≤ 2 ∧
      (calmWith [.ok, .fail 7 2]).slotDraws = 0x34 :: [0x12, 0x78, 0x16] ∧
      (0x34 : Byte).toNat / 16 % 2 ≠ 0 ∧ (0x34 : Byte).toNat / 32 = 1 := by decide
/-- SETF finds the flag set on channel 3 ON and on channel 15 OFF, and clear on channel 15 ON. -/
theorem test_witness_setf :
    (calm.reg 3 .on).toNat / 4096 % 2 = 1 ∧ (calm.reg 15 .off).toNat / 4096 % 2 = 1 ∧
      (calm.reg 15 .on).toNat / 4096 % 2 = 0 := by decide
theorem test_witness_set_then_get :
    15 < 16 ∧ (4095 : Word).toNat ≤ 4095 ∧ AnswersOk 3 calm ∧
      (calmAsked [.command (encode (.setc (.one 15) .off 4095)) none,
          .command (encode (.getc (.one 15) .off)) none]).inbox =
        .command (encode (.setc (.one 15) .off 4095)) none ::
          .command (encode (.getc (.one 15) .off)) none :: [] := by decide
theorem test_witness_bulk_round_trip :
    AnswersOk 2 calm ∧ bulkValues.length = 32 ∧
      (calmAsked [.command (encode (.wrall bulkValues)) none, .command (encode .rdall) none]).inbox =
        .command (encode (.wrall bulkValues)) none :: .command (encode .rdall) none :: [] ∧
      (calmAsked [.command (encode (.wrall bulkValues)) none, .command (encode (.getonoff (.one 3))) none]).inbox =
        .command (encode (.wrall bulkValues)) none :: .command (encode (.getonoff (.one 3))) none :: [] ∧
      (calmAsked [.command (encode (.setonoff (.one 3) 4095 0)) none, .command (encode .rdall) none]).inbox =
        .command (encode (.setonoff (.one 3) 4095 0)) none :: .command (encode .rdall) none :: [] := by decide

end Sys2Proof.Tests
end

section
/-! PROOFS. The scope's statements: a step runs the decoded command, the invariant holds at every start, no step faults
(O7, O12, O14); renaming the error values commutes with the step (O24); nothing of the block outlives a command (O23). -/

namespace Sys2Proof.Machine

/-! ### The step's cases, for every type of error values -/

section StepWith

variable {E : Type} {run : Instr → State E → Host.Outcome (State E) Fault Refusal} {s : State E}

theorem stepWith_busy (h : s.phase = .busy) : stepWith run s = .next s := by
  simp only [stepWith, h]

theorem stepWith_waits (h : s.phase = .idle) (hi : s.inbox = []) : stepWith run s = .next s := by
  simp only [stepWith, h, hi]

theorem stepWith_command {p : Packet} {r : Option Nat} {rest : List HostAction} (h : s.phase = .idle)
    (hi : s.inbox = .command p r :: rest) : stepWith run s = runPacket run p (accept r rest s) := by
  simp only [stepWith, h, hi]

theorem stepWith_enableAutoIncrement {rest : List HostAction} (h : s.phase = .idle)
    (hi : s.inbox = .enableAutoIncrement :: rest) :
    stepWith run s = .next (enableAutoIncrement { s with inbox := rest }) := by
  simp only [stepWith, h, hi]

theorem stepWith_resetBlock {rest : List HostAction} (h : s.phase = .idle)
    (hi : s.inbox = .resetBlock :: rest) : stepWith run s = .next (resetBlock { s with inbox := rest }) := by
  simp only [stepWith, h, hi]

theorem runPacket_legal {p : Packet} {i : Instr} (h : decode p = .ok i) : runPacket run p s = run i s := by
  simp only [runPacket, h]

theorem runPacket_illegal {p : Packet} {c : IllegalCause} (h : decode p = .error c) :
    runPacket run p s = raise .illegalCommand s := by
  simp only [runPacket, h]

end StepWith

/-- Settles O7: the packet is accepted, and a decoded command is well-formed. -/
theorem stepRunsTheDecodedInstruction : Obligations.StepRunsTheDecodedInstruction := by
  intro s p r rest i hp hi hd
  exact ⟨(decode_wf hd).1, (stepWith_command hp hi).trans (runPacket_legal hd)⟩

/-! ### The start -/

/-- R30 to R34: the invariant at a start whose parameters and bank are admitted. -/
theorem start_inv {c : Config} {bank0 : Memory} (hc : c.wf) (hw : Memory.wf c bank0) (hl : bankLegal c bank0)
    (aiReset : Bool) : Inv (State.start c bank0 aiReset) :=
  ⟨hc, hw, hl, rfl, rfl, List.length_replicate, fun _ ht => absurd ht List.not_mem_nil⟩

/-- R7: the default bases leave both windows below 256 and apart. -/
theorem default_config_wf : Config.default.wf := by decide

/-- Settles O12: State.reset is the start at the default parameters with nothing listed in the bank. -/
theorem invariantHoldsAtEveryStart : Obligations.InvariantHoldsAtEveryStart := by
  refine ⟨start_inv default_config_wf ?_ ?_ false, fun c bank0 aiReset hc hw hl => ?_⟩
  · exact ⟨List.Pairwise.nil, fun _ hx => absurd hx List.not_mem_nil⟩
  · exact fun _ hx => absurd hx List.not_mem_nil
  · exact ⟨start_inv hc hw hl aiReset, rfl, rfl, rfl, rfl⟩

/-- Settles O14: of the ends of a command (`Ends`) a fault needs bases that R7 excludes, and every other step answers a
next state. -/
theorem stepStopsOnlyForWantOfAutoIncrement : Obligations.StepStopsOnlyForWantOfAutoIncrement := by
  rintro s ⟨hc, -⟩
  rcases step_cases s with hs | ⟨p, r, rest, -, -, -, hends⟩ | ⟨rest, -, -, hs⟩ | ⟨rest, -, -, hs⟩
  · exact .inl ⟨_, hs⟩
  · cases ho : step s with
    | next t => exact .inl ⟨t, rfl⟩
    | fault f =>
      rw [ho] at hends
      exact absurd hc hends
    | refused x =>
      rw [ho] at hends
      obtain ⟨rfl, hai⟩ := hends
      exact .inr ⟨hai, rfl⟩
  · exact .inl ⟨_, hs⟩
  · exact .inl ⟨_, hs⟩

/-! ### Renaming the error values -/

section Renaming

variable {E F : Type} (f : E → F)

/-- A command of one read. -/
theorem tryRead_mapError {p : Address} {n : Nat} {s : State E} (h : s.answers ≠ []) (g : List Byte → List Word) :
    tryBus (busWriteRead p n (s.mapError f)) (fun bs u => respondOk (g bs) u) =
      mapErrorOutcome f (tryBus (busWriteRead p n s) fun bs u => respondOk (g bs) u) := by
  rw [busWriteRead_mapError f p n h]
  exact tryBus_mapError f fun _ u _ => respondOk_mapError f _ u

/-- A command of one write, or the write that ends one. -/
theorem tryWrite_mapError {p : Address} {data : List Byte} {s : State E} (h : s.answers ≠ []) :
    tryBus (busWrite p data (s.mapError f)) (fun _ u => respondOk [] u) =
      mapErrorOutcome f (tryBus (busWrite p data s) fun _ u => respondOk [] u) := by
  rw [busWrite_mapError f p data h]
  exact tryBus_mapError f fun _ u _ => respondOk_mapError f _ u

/-- The read that a second transaction follows: where two answers are listed, one is left after it. -/
theorem tryReadThen_mapError {p : Address} {n : Nat} {s : State E} (h : 2 ≤ s.answers.length)
    {go : List Byte → State E → Host.Outcome (State E) Fault Refusal}
    {go' : List Byte → State F → Host.Outcome (State F) Fault Refusal}
    (hgo : ∀ bs u, u.answers ≠ [] → go' bs (u.mapError f) = mapErrorOutcome f (go bs u)) :
    tryBus (busWriteRead p n (s.mapError f)) go' = mapErrorOutcome f (tryBus (busWriteRead p n s) go) := by
  rw [busWriteRead_mapError f p n (List.ne_nil_of_length_pos (by omega))]
  refine tryBus_mapError f fun bs u hu => hgo bs u (List.ne_nil_of_length_pos ?_)
  rw [busWriteRead_done_answers hu, List.length_tail]
  omega

/-- R182: no command looks at an error value. -/
theorem execFor_mapError (i : Instr) {s : State E} (h : 2 ≤ s.answers.length) :
    execFor i (s.mapError f) = mapErrorOutcome f (execFor i s) := by
  have h1 : s.answers ≠ [] := List.ne_nil_of_length_pos (by omega)
  cases i with
  | addr ch k => exact respondOk_mapError f _ s
  | getc ch k => exact tryRead_mapError f h1 _
  | setc ch k v =>
    simp only [execFor, execSetc]
    split
    · exact tryReadThen_mapError f h fun _ _ hu => tryWrite_mapError f hu
    · exact raise_invalidInput_mapError f s
  | setf ch k b =>
    refine tryReadThen_mapError f h fun bs u hu => ?_
    split
    · exact respondOk_mapError f _ u
    · exact tryWrite_mapError f hu
  | setonoff ch v w =>
    simp only [execFor, execSetonoff]
    split
    · exact tryWrite_mapError f h1
    · exact raise_invalidInput_mapError f s
  | getonoff ch => exact tryRead_mapError f h1 _
  | rdall => exact tryRead_mapError f h1 _
  | wrall vs =>
    simp only [execFor, execWrall]
    split
    · exact tryWrite_mapError f h1
    · exact raise_invalidInput_mapError f s
  | plen v w => exact respondOk_mapError f _ s
  | plenplain v w => exact respondOk_mapError f _ s
  | getpulse ch => exact tryRead_mapError f h1 _

theorem runPacket_mapError (p : Packet) {s : State E} (h : 2 ≤ s.answers.length) :
    runPacket execFor p (s.mapError f) = mapErrorOutcome f (runPacket execFor p s) := by
  cases hd : decode p with
  | ok i => rw [runPacket_legal hd, runPacket_legal hd, execFor_mapError f i h]
  | error c => rw [runPacket_illegal hd, runPacket_illegal hd, raise_illegalCommand_mapError]

theorem stepFor_mapError {s : State E} (h : 2 ≤ s.answers.length) :
    stepFor (s.mapError f) = mapErrorOutcome f (stepFor s) := by
  have h1 : s.answers ≠ [] := List.ne_nil_of_length_pos (by omega)
  unfold stepFor
  cases hp : s.phase with
  | busy => rw [stepWith_busy hp, stepWith_busy (s := s.mapError f) hp]; rfl
  | idle =>
    have hp' : (s.mapError f).phase = .idle := hp
    match hi : s.inbox with
    | [] => rw [stepWith_waits hp hi, stepWith_waits hp' hi]; rfl
    | .command p r :: rest =>
      rw [stepWith_command hp hi, stepWith_command hp' hi, accept_mapError]
      exact runPacket_mapError f p (s := accept r rest s) h
    | .enableAutoIncrement :: rest =>
      rw [stepWith_enableAutoIncrement hp hi, stepWith_enableAutoIncrement hp' hi]
      exact congrArg Host.Outcome.next
        (enableAutoIncrement_mapError f (s := { s with inbox := rest }) h1)
    | .resetBlock :: rest => rw [stepWith_resetBlock hp hi, stepWith_resetBlock hp' hi]; rfl

end Renaming

/-- The machine the host runs is the machine for every `E` at R7's default. -/
theorem exec_eq_execFor (i : Instr) (s : State) : exec i s = execFor i s := by
  cases i <;> rfl

theorem step_eq_stepFor (s : State) : step s = stepFor s :=
  congrArg (stepWith · s) (funext fun i => funext (exec_eq_execFor i))

/-- Settles O24: renaming commutes with each command, and so with the step. -/
theorem errorValuesAreNeverInterpreted : Obligations.ErrorValuesAreNeverInterpreted :=
  ⟨exec_eq_execFor, step_eq_stepFor, fun _ _ f _ h => stepFor_mapError f h⟩

/-! ### Two runs that differ in what the block holds -/

/-- Two runs, begun in `a` and `a'` and now in `u` and `u'`, agree: on everything that a step may depend on but the
reset still to come, and on what they have answered and issued since. `BUF`, the sequencer position and the register
pointer may differ. -/
structure Agree (a a' u u' : State) : Prop where
  config    : u'.config = u.config
  phase     : u'.phase = u.phase
  bank      : u'.bank = u.bank
  ai        : u'.ai = u.ai
  inbox     : u'.inbox = u.inbox
  answers   : u'.answers = u.answers
  slotDraws : u'.slotDraws = u.slotDraws
  freeCount : u'.freeCount = u.freeCount
  responses : ∃ rs, u.responses = a.responses ++ rs ∧ u'.responses = a'.responses ++ rs
  trace     : ∃ new, u.trace = a.trace ++ new ∧ u'.trace = a'.trace ++ new

/-- Two runs inside the same command agree on the reset still to come as well. -/
structure AgreeInside (a a' u u' : State) : Prop extends Agree a a' u u' where
  resetAfter : u'.resetAfter = u.resetAfter

/-- Two transactions that end the same way, in states that agree. -/
inductive SameResult {α : Type} (a a' : State) : BusResult ErrorCode α → BusResult ErrorCode α → Prop
  | done (x : α) {u u' : State} (h : AgreeInside a a' u u') : SameResult a a' (.done x u) (.done x u')
  | failed (e : ErrorCode) {u u' : State} (h : AgreeInside a a' u u') : SameResult a a' (.failed e u) (.failed e u')
  | abandoned {u u' : State} (h : Agree a a' u u') : SameResult a a' (.abandoned u) (.abandoned u')
  | faulted (r : Fault) : SameResult a a' (.faulted r) (.faulted r)
  | refused (r : Refusal) : SameResult a a' (.refused r) (.refused r)

/-- Two outcomes of the same kind, in states that agree. -/
inductive SameOutcome (a a' : State) :
    Host.Outcome State Fault Refusal → Host.Outcome State Fault Refusal → Prop
  | next {t t' : State} (h : Agree a a' t t') : SameOutcome a a' (.next t) (.next t')
  | fault (r : Fault) : SameOutcome a a' (.fault r) (.fault r)
  | refused (r : Refusal) : SameOutcome a a' (.refused r) (.refused r)

section Agreement

variable {a a' u u' : State}

/-! ### The operations keep the agreement -/

theorem accept_agree (h : Agree a a' u u') (r : Option Nat) (rest : List HostAction) :
    AgreeInside a a' (accept r rest u) (accept r rest u') :=
  { h with phase := rfl, inbox := rfl, resetAfter := rfl }

theorem release_agree (h : Agree a a' u u') : Agree a a' (release u) (release u') :=
  { h with phase := rfl, freeCount := congrArg (· + 1) h.freeCount }

theorem resetBlock_agree (h : Agree a a' u u') : Agree a a' (resetBlock u) (resetBlock u') :=
  { release_agree h with }

theorem takeAnswer_agree (h : Agree a a' u u') :
    (takeAnswer u').1 = (takeAnswer u).1 ∧ Agree a a' (takeAnswer u).2 (takeAnswer u').2 := by
  unfold takeAnswer
  rw [h.answers]
  split
  · exact ⟨rfl, { h with answers := rfl }⟩
  · exact ⟨congrArg (freeAnswer _) h.freeCount,
      { h with answers := rfl, freeCount := congrArg (· + 1) h.freeCount }⟩

theorem enableAutoIncrement_agree (h : Agree a a' u u') :
    Agree a a' (enableAutoIncrement u) (enableAutoIncrement u') := by
  obtain ⟨h1, h2⟩ := takeAnswer_agree h
  rw [enableAutoIncrement_eq u, enableAutoIncrement_eq u', h1]
  refine { h with ai := ?_, answers := congrArg List.tail h.answers, freeCount := h2.freeCount }
  simp only [h.ai]

theorem issue_agree (h : AgreeInside a a' u u') (x : Transaction) :
    AgreeInside a a' (issue x u) (issue x u') := by
  obtain ⟨new, e, e'⟩ := h.trace
  exact { h with
    resetAfter := congrArg (Option.map (· - 1)) h.resetAfter
    trace := ⟨new ++ [x], by simp [e], by simp [e']⟩ }

theorem takeAnswer_agreeInside (h : AgreeInside a a' u u') :
    AgreeInside a a' (takeAnswer u).2 (takeAnswer u').2 :=
  { (takeAnswer_agree h.toAgree).2 with resetAfter := by simp [h.resetAfter] }

theorem drawSlotByte_agree (h : AgreeInside a a' u u') :
    (drawSlotByte u').1 = (drawSlotByte u).1 ∧ AgreeInside a a' (drawSlotByte u).2 (drawSlotByte u').2 := by
  unfold drawSlotByte
  rw [h.slotDraws]
  split
  · exact ⟨rfl, { h with slotDraws := rfl }⟩
  · exact ⟨congrArg Config.freeByte h.freeCount,
      { h with slotDraws := rfl, freeCount := congrArg (· + 1) h.freeCount }⟩

theorem loadByte_agree (h : AgreeInside a a' u u') (p : Address) :
    (loadByte p u').1 = (loadByte p u).1 ∧ AgreeInside a a' (loadByte p u).2 (loadByte p u').2 := by
  unfold loadByte
  rw [h.config, h.bank]
  split
  · exact ⟨rfl, h⟩
  · exact drawSlotByte_agree h
  · exact drawSlotByte_agree h

theorem loadBytes_agree (h : AgreeInside a a' u u') (n : Nat) (p : Address) :
    (loadBytes n p u').1 = (loadBytes n p u).1 ∧ AgreeInside a a' (loadBytes n p u).2 (loadBytes n p u').2 := by
  induction n generalizing p u u' with
  | zero => exact ⟨rfl, h⟩
  | succ n ih =>
    obtain ⟨hb, h1⟩ := loadByte_agree h p
    obtain ⟨hbs, h2⟩ := ih h1 (p + 1)
    exact ⟨congrArg₂ _ hb hbs, h2⟩

/-! ### The ends of a command -/

theorem AgreeInside.resetDue_eq (h : AgreeInside a a' u u') : resetDue u' = resetDue u :=
  congrArg (· == some 0) h.resetAfter

theorem respond_agree (h : AgreeInside a a' u u') (r : Response) :
    Agree a a' (respond r u) (respond r u') := by
  unfold respond
  rw [h.resetDue_eq]
  split
  · exact resetBlock_agree h.toAgree
  · obtain ⟨rs, e, e'⟩ := h.responses
    exact { release_agree h.toAgree with responses := ⟨rs ++ [r], by simp [e], by simp [e']⟩ }

theorem respondOk_sameOutcome (h : AgreeInside a a' u u') (data : List Word) :
    SameOutcome a a' (respondOk data u) (respondOk data u') := .next (respond_agree h _)

theorem raise_sameOutcome (h : AgreeInside a a' u u') (e : CommandError) :
    SameOutcome a a' (raise e u) (raise e u') := .next (respond_agree h _)

/-! ### The transactions -/

theorem checked_sameResult {α : Type} (h : AgreeInside a a' u u') (p : Address) (n : Nat)
    {go go' : BusResult ErrorCode α} (hgo : SameResult a a' go go') :
    SameResult a a' (checked p n u go) (checked p n u' go') := by
  unfold checked
  rw [h.resetDue_eq, h.config, h.ai]
  split
  · exact .abandoned (resetBlock_agree h.toAgree)
  · split
    · exact .faulted _
    · split
      · exact .refused _
      · exact hgo

/-- A transaction that goes out is answered alike, and the states before the answer's effect agree. -/
theorem issue_answered (h : AgreeInside a a' u u') (x : Transaction) :
    ∃ ans v v', takeAnswer (issue x u) = (ans, v) ∧
      takeAnswer (issue x u') = (ans, v') ∧ AgreeInside a a' v v' :=
  ⟨(takeAnswer (issue x u)).1, _, (takeAnswer (issue x u')).2, rfl,
    Prod.ext (takeAnswer_agree (issue_agree h x).toAgree).1 rfl, takeAnswer_agreeInside (issue_agree h x)⟩

theorem storeBytes_agree (h : AgreeInside a a' u u') (p : Address) (data : List Byte) :
    AgreeInside a a' { u with bank := storeBytes u.config u.bank p data }
      { u' with bank := storeBytes u'.config u'.bank p data } :=
  { h with bank := by simp only [h.config, h.bank] }

theorem busWrite_sameResult (h : AgreeInside a a' u u') (p : Address) (data : List Byte) :
    SameResult a a' (busWrite p data u) (busWrite p data u') := by
  refine checked_sameResult h p data.length ?_
  obtain ⟨ans, v, v', e, e', hv⟩ := issue_answered h (.write p data)
  rw [e, e']
  cases ans with
  | ok => exact .done () { storeBytes_agree hv p data with }
  | fail err m => exact .failed err (storeBytes_agree hv p (data.take m))

theorem busWriteRead_sameResult (h : AgreeInside a a' u u') (p : Address) (n : Nat) :
    SameResult a a' (busWriteRead p n u) (busWriteRead p n u') := by
  refine checked_sameResult h p n ?_
  obtain ⟨ans, v, v', e, e', hv⟩ := issue_answered h (.writeRead p n)
  rw [e, e']
  cases ans with
  | ok =>
    obtain ⟨hbs, hl⟩ := loadBytes_agree hv n p
    dsimp only
    rw [hbs]
    exact .done _ { hl with }
  | fail err m => exact .failed err hv

theorem tryBus_sameOutcome {α : Type} {r r' : BusResult ErrorCode α} (h : SameResult a a' r r')
    {go go' : α → State → Host.Outcome State Fault Refusal}
    (hgo : ∀ x v v', AgreeInside a a' v v' → SameOutcome a a' (go x v) (go' x v')) :
    SameOutcome a a' (tryBus r go) (tryBus r' go') := by
  cases h with
  | done x h => exact hgo x _ _ h
  | failed e h => exact raise_sameOutcome h _
  | abandoned h => exact .next h
  | faulted r => exact .fault r
  | refused r => exact .refused r

/-! ### The commands -/

/-- A command of one read. -/
theorem tryRead_sameOutcome (h : AgreeInside a a' u u') (p : Address) (n : Nat) (g : List Byte → List Word) :
    SameOutcome a a' (tryBus (busWriteRead p n u) fun bs v => respondOk (g bs) v)
      (tryBus (busWriteRead p n u') fun bs v => respondOk (g bs) v) :=
  tryBus_sameOutcome (busWriteRead_sameResult h p n) fun _ _ _ hv => respondOk_sameOutcome hv _

/-- A command of one write, or the write that ends one. -/
theorem tryWrite_sameOutcome (h : AgreeInside a a' u u') (p : Address) (data : List Byte) :
    SameOutcome a a' (tryBus (busWrite p data u) fun _ v => respondOk [] v)
      (tryBus (busWrite p data u') fun _ v => respondOk [] v) :=
  tryBus_sameOutcome (busWrite_sameResult h p data) fun _ _ _ hv => respondOk_sameOutcome hv _

/-- R27: no command looks at `BUF`, the sequencer position, the register pointer or what was answered and issued
before. -/
theorem exec_sameOutcome (h : AgreeInside a a' u u') (i : Instr) :
    SameOutcome a a' (exec i u) (exec i u') := by
  cases i with
  | addr ch k =>
    simp only [exec, execAddr, h.config]
    exact respondOk_sameOutcome h _
  | getc ch k =>
    simp only [exec, execGetc, h.config]
    exact tryRead_sameOutcome h _ _ _
  | setc ch k v =>
    simp only [exec, execSetc, h.config]
    split
    · refine tryBus_sameOutcome (busWriteRead_sameResult h _ _) fun bs v v' hv => ?_
      rw [hv.config]
      exact tryWrite_sameOutcome hv _ _
    · exact raise_sameOutcome h _
  | setf ch k f =>
    simp only [exec, execSetf, h.config]
    refine tryBus_sameOutcome (busWriteRead_sameResult h _ _) fun bs v v' hv => ?_
    split
    · exact respondOk_sameOutcome hv _
    · rw [hv.config]
      exact tryWrite_sameOutcome hv _ _
  | setonoff ch v w =>
    simp only [exec, execSetonoff, h.config]
    split
    · exact tryWrite_sameOutcome h _ _
    · exact raise_sameOutcome h _
  | getonoff ch =>
    simp only [exec, execGetonoff, h.config]
    exact tryRead_sameOutcome h _ _ _
  | rdall =>
    simp only [exec, execRdall, h.config]
    exact tryRead_sameOutcome h _ _ _
  | wrall vs =>
    simp only [exec, execWrall, h.config]
    split
    · exact tryWrite_sameOutcome h _ _
    · exact raise_sameOutcome h _
  | plen v w => exact respondOk_sameOutcome h _
  | plenplain v w => exact respondOk_sameOutcome h _
  | getpulse ch =>
    simp only [exec, execGetpulse, h.config]
    exact tryRead_sameOutcome h _ _ _

theorem runPacket_sameOutcome (h : AgreeInside a a' u u') (p : Packet) :
    SameOutcome a a' (runPacket exec p u) (runPacket exec p u') := by
  cases hd : decode p with
  | ok i =>
    rw [runPacket_legal hd, runPacket_legal hd]
    exact exec_sameOutcome h i
  | error c =>
    rw [runPacket_illegal hd, runPacket_illegal hd]
    exact raise_sameOutcome h _

/-- The host's action is taken from both queues. -/
theorem takeAction_agree (h : Agree a a' u u') (rest : List HostAction) :
    Agree a a' { u with inbox := rest } { u' with inbox := rest } := { h with inbox := rfl }

/-- Two runs that agree between commands take the same step; what the reset still to come says is not asked, since a
command sets it when it is accepted. -/
theorem step_sameOutcome (h : Agree a a' u u') : SameOutcome a a' (step u) (step u') := by
  unfold step
  cases hp : u.phase with
  | busy =>
    rw [stepWith_busy hp, stepWith_busy (h.phase.trans hp)]
    exact .next h
  | idle =>
    have hp' := h.phase.trans hp
    match hi : u.inbox with
    | [] =>
      rw [stepWith_waits hp hi, stepWith_waits hp' (h.inbox.trans hi)]
      exact .next h
    | .command p r :: rest =>
      rw [stepWith_command hp hi, stepWith_command hp' (h.inbox.trans hi)]
      exact runPacket_sameOutcome (accept_agree h r rest) p
    | .enableAutoIncrement :: rest =>
      rw [stepWith_enableAutoIncrement hp hi, stepWith_enableAutoIncrement hp' (h.inbox.trans hi)]
      exact .next (enableAutoIncrement_agree (takeAction_agree h rest))
    | .resetBlock :: rest =>
      rw [stepWith_resetBlock hp hi, stepWith_resetBlock hp' (h.inbox.trans hi)]
      exact .next (resetBlock_agree (takeAction_agree h rest))

end Agreement

/-- Settles O23: the two states agree with nothing answered or issued yet, and the step keeps the agreement. -/
theorem nothingOfTheBlockOutlivesACommand : Obligations.NothingOfTheBlockOutlivesACommand := by
  intro s s' t hp hp' hc hb ha hi han hs hf ht
  have h0 : Agree s s' s s' :=
    ⟨hc, hp'.trans hp.symm, hb, ha, hi, han, hs, hf, ⟨[], by simp, by simp⟩, ⟨[], by simp, by simp⟩⟩
  have h := step_sameOutcome h0
  rw [ht] at h
  generalize step s' = o' at h ⊢
  cases h with
  | @next _ t' h =>
    obtain ⟨rs, er, er'⟩ := h.responses
    obtain ⟨new, en, en'⟩ := h.trace
    exact ⟨t', rs, new, rfl, er, er', en, en', h.bank, h.ai, h.inbox, h.answers, h.slotDraws, h.freeCount, h.phase⟩

end Sys2Proof.Machine
end

section
/-! PROOFS. The state's statements: a block with nothing to accept waits (O8), every step keeps the invariant (O13) and
nothing clears auto-increment (O16), and the bank's canonical form is one (O25). -/

namespace Sys2Proof.Machine

/-- Settles O8: neither a busy block nor an idle one with an empty queue has a command to take. -/
theorem blockWithNothingToAcceptWaits : Obligations.BlockWithNothingToAcceptWaits := by
  rintro s (hp | hi)
  · exact stepWith_busy hp
  · cases hp : s.phase with
    | busy => exact stepWith_busy hp
    | idle => exact stepWith_waits hp hi

/-! ### What every step keeps -/

/-- A command that ends keeps the invariant, from the state that accepted it. -/
theorem Ended.inv {s t : State} {r : Option Nat} {rest : List HostAction} (hs : Inv s)
    (h : Ended (accept r rest s) t) : Inv t := by
  obtain ⟨hc, hwf, hlegal, -, -, -, htrace⟩ := hs
  obtain ⟨new, hnew, hin⟩ := h.trace
  have hcfg : t.config = s.config := h.config
  refine ⟨hcfg ▸ hc, hcfg ▸ h.wf hwf, hcfg ▸ h.legal hc hlegal, h.phase, h.resetAfter, h.buf, fun x hx => ?_⟩
  rw [hcfg]
  rw [hnew, List.mem_append] at hx
  exact hx.elim (htrace x) (hin x)

/-- Settles O13: of the cases of a step (`step_cases`) only a command's end touches what the invariant speaks of. -/
theorem everyStepKeepsTheInvariant : Obligations.EveryStepKeepsTheInvariant := by
  intro s t hs ht
  rcases step_cases s with h | ⟨p, r, rest, -, -, -, hends⟩ | ⟨rest, -, -, h⟩ | ⟨rest, -, -, h⟩
  · cases h.symm.trans ht
    exact hs
  · rw [ht] at hends
    exact Ended.inv hs hends
  · cases h.symm.trans ht
    rw [enableAutoIncrement_eq]
    exact hs
  · cases h.symm.trans ht
    obtain ⟨hc, hwf, hlegal, -, -, -, htrace⟩ := hs
    exact ⟨hc, hwf, hlegal, rfl, rfl, by simp, htrace⟩

/-- Settles O16: a command ends with `AI` as it was (`Ended`), and EnableAutoIncrement can only set it. -/
theorem nothingClearsAutoIncrement : Obligations.NothingClearsAutoIncrement := by
  intro s t ht
  rcases step_cases s with h | ⟨p, r, rest, -, -, -, hends⟩ | ⟨rest, -, hi, h⟩ | ⟨rest, -, -, h⟩
  · cases h.symm.trans ht
    exact ⟨id, rfl, fun hne => absurd rfl hne⟩
  · rw [ht] at hends
    have hai : t.ai = s.ai := hends.ai
    exact ⟨hai.trans, hends.config, fun hne => absurd hai hne⟩
  · cases h.symm.trans ht
    rw [enableAutoIncrement_eq]
    refine ⟨fun hai => ?_, rfl, fun _ => ⟨rest, hi⟩⟩
    dsimp only
    split
    · rfl
    · exact hai
  · cases h.symm.trans ht
    exact ⟨id, rfl, fun hne => absurd rfl hne⟩

/-! ### The canonical form of the bank -/

/-- In a canonical bank every entry is found at its address. -/
theorem lookup_eq_some_iff_mem {m : Memory} (hm : (m.map Prod.fst).Pairwise (· < ·)) (a : Nat) (b : Byte) :
    Memory.lookup m a = some b ↔ (a, b) ∈ m := by
  induction m with
  | nil => simp
  | cons kv m ih =>
    obtain ⟨k, v⟩ := kv
    rw [List.map_cons, List.pairwise_cons] at hm
    obtain ⟨hk, hm⟩ := hm
    rw [lookup_cons, List.mem_cons, Prod.mk.injEq]
    split
    · next hka =>
      have hnot : (a, b) ∉ m := fun hmem => (hk a (List.mem_map_of_mem hmem)).ne hka
      simp [hka, hnot, eq_comm]
    · next hka => simp [ih hm, Ne.symm hka]

/-- The canonical form lists a byte exactly where it differs from what an unlisted address reads as (log 3). -/
theorem mem_iff_read {c : Config} {m : Memory} (hm : Memory.wf c m) (a : Nat) (b : Byte) :
    (a, b) ∈ m ↔ Memory.read c m a = b ∧ b ≠ unlistedByte c a := by
  rw [← lookup_eq_some_iff_mem hm.1, Memory.read]
  cases hl : Memory.lookup m a with
  | none => simp +contextual
  | some d =>
    have hd : d ≠ unlistedByte c a := hm.2 (a, d) ((lookup_eq_some_iff_mem hm.1 a d).1 hl)
    constructor
    · rintro ⟨⟩
      exact ⟨rfl, hd⟩
    · rintro ⟨rfl, -⟩
      rfl

/-- Settles O25: what is read says what is listed, and a strictly rising list is its entries. -/
theorem banksThatReadAlikeAreEqual : Obligations.BanksThatReadAlikeAreEqual := by
  intro c m m' hm hm' hread
  have : Std.Irrefl fun x y : Host.Cell => x.1 < y.1 := ⟨fun x => Nat.lt_irrefl x.1⟩
  refine (List.pairwise_map.1 hm.1).eq_of_mem_iff (List.pairwise_map.1 hm'.1) fun ⟨a, b⟩ => ?_
  rw [mem_iff_read hm, mem_iff_read hm', hread]

end Sys2Proof.Machine
end

section
/-! PROOFS. The shape every command has, and what follows from it by induction: the sequencer position and the register
pointer (O18), and a reset of the block in mid-command (O11). -/

namespace Sys2Proof.Machine

/-! ### The shape of a command -/

/-- How a command runs under the parameters `c`: at most `b` transactions, each inside a window, any write the last of
them, and one response at the end. -/
inductive CommandShape (c : Config) : Nat → (State → Host.Outcome State Fault Refusal) → Prop
  | respond {b : Nat} (r : Response) : CommandShape c b fun s => .next (respond r s)
  | read {b n : Nat} {p : Address} {go : List Byte → State → Host.Outcome State Fault Refusal}
      (hw : reaches c p n = true) (hgo : ∀ bs, CommandShape c b (go bs)) :
      CommandShape c (b + 1) fun s => tryBus (busWriteRead p n s) go
  | write {b : Nat} {p : Address} {data : List Byte} (hw : reaches c p data.length = true) :
      CommandShape c (b + 1) fun s => tryBus (busWrite p data s) fun _ u => respondOk [] u

theorem CommandShape.ok {c : Config} {b : Nat} (data : List Word) : CommandShape c b (respondOk data) := .respond _

theorem CommandShape.invalid {c : Config} {b : Nat} : CommandShape c b (raise .invalidInput) := .respond _

/-- What follows a read may take the parameters from the state the read leaves. -/
theorem tryRead_congr {p : Address} {n : Nat} {s : State}
    {go go' : List Byte → State → Host.Outcome State Fault Refusal}
    (h : ∀ bs u, u.config = s.config → go bs u = go' bs u) :
    tryBus (busWriteRead p n s) go = tryBus (busWriteRead p n s) go' := by
  have hs := busWriteRead_spec p n s
  generalize busWriteRead p n s = r at hs ⊢
  cases r with
  | done bs u => exact h bs u hs.1.config
  | failed e u => rfl
  | abandoned u => rfl
  | faulted f => rfl
  | refused x => rfl

/-- R53, R110: every well-formed command has the shape, with two transactions at most. -/
theorem exec_shape {i : Instr} {c : Config} (hi : i.wf = true) (hc : c.wf) :
    ∃ o, CommandShape c 2 o ∧ ∀ s, s.config = c → exec i s = o s := by
  cases i with
  | addr ch k => exact ⟨_, .ok [addressWord (addrOf c ch k)], by rintro s rfl; rfl⟩
  | getc ch k =>
    exact ⟨_, .read (reaches_pair hc hi k) fun bs => .ok [counterWord (counter (wordAt bs 0))], by rintro s rfl; rfl⟩
  | setc ch k v =>
    by_cases hv : counterInRange v
    · refine ⟨_, .read (reaches_high hc hi k) fun bs =>
        .write (p := addrOf c ch k) (data := wordBytes [merge (bs.getD 0 0) v])
          (by simpa using reaches_pair hc hi k), ?_⟩
      rintro s rfl
      exact (if_pos hv).trans (tryRead_congr fun bs u hu => by rw [hu])
    · exact ⟨_, .invalid, fun s _ => if_neg hv⟩
  | setf ch k f =>
    refine ⟨_, .read (go := fun bs u => if highFlag (bs.getD 0 0) = f then respondOk [] u else
      tryBus (busWrite (highAddrOf c ch k) [withHighFlag (bs.getD 0 0) f] u) fun _ v => respondOk [] v)
      (reaches_high hc hi k) fun bs => ?_, ?_⟩
    · split
      · exact .ok []
      · exact .write (reaches_high hc hi k)
    · rintro s rfl
      exact tryRead_congr fun bs u hu => by rw [hu]
  | setonoff ch v w =>
    by_cases hv : counterInRange v && counterInRange w
    · refine ⟨_, .write (p := addrOf c ch .on) (data := wordBytes [v, w])
        (by simpa using reaches_channel hc hi), ?_⟩
      rintro s rfl
      exact if_pos hv
    · exact ⟨_, .invalid, fun s _ => if_neg hv⟩
  | getonoff ch =>
    exact ⟨_, .read (reaches_channel hc hi) fun bs => .ok [wordAt bs 0, wordAt bs 1], by rintro s rfl; rfl⟩
  | rdall =>
    exact ⟨_, .read (reaches_bulk c) fun bs => .ok ((List.range ndr).map (wordAt bs)), by rintro s rfl; rfl⟩
  | wrall vs =>
    by_cases hv : vs.length = ndr
    · refine ⟨_, .write (p := c.chBase) (data := wordBytes vs)
        (by rw [wordBytes_length, hv]; exact reaches_bulk c), ?_⟩
      rintro s rfl
      exact if_pos hv
    · exact ⟨_, .invalid, fun s _ => if_neg hv⟩
  | plen v w => exact ⟨_, .ok [lengthWord (pulse v w)], fun _ _ => rfl⟩
  | plenplain v w => exact ⟨_, .ok [lengthWord (plain v w)], fun _ _ => rfl⟩
  | getpulse ch =>
    exact ⟨_, .read (reaches_channel hc hi) fun bs => .ok [lengthWord (pulse (wordAt bs 0) (wordAt bs 1))],
      by rintro s rfl; rfl⟩

/-! ### A transaction that goes out -/

/-- The state after the transaction `x` went out and was answered, against the state before: what holds whatever the
answer was. -/
structure WentOut (x : Transaction) (s u : State) : Prop where
  config     : u.config = s.config
  ai         : u.ai = s.ai
  responses  : u.responses = s.responses
  trace      : u.trace = s.trace ++ [x]
  answers    : u.answers = s.answers.tail
  pointer    : u.pointer = x.pointer
  resetAfter : s.resetAfter = none → u.resetAfter = none

/-- How the transaction `x` ends where no reset of the block arrives: it goes out and ends by the answer taken (R50), a
success advancing the sequencer position by one (R21); or it is refused for want of auto-increment (R49). -/
inductive Attempted {α : Type} (x : Transaction) (s : State) : BusResult ErrorCode α → Prop
  | done (a : α) {u : State} (out : WentOut x s u) (answer : (takeAnswer s).1 = .ok)
      (position : u.position = s.position + 1) : Attempted x s (.done a u)
  | failed {e : ErrorCode} {m : Nat} {u : State} (out : WentOut x s u) (answer : (takeAnswer s).1 = .fail e m)
      (position : u.position = s.position) : Attempted x s (.failed e u)
  | refused (hai : s.ai = false) : Attempted x s (.refused .autoIncrementOff)

theorem takeAnswer_issue_fst (x : Transaction) (s : State) : (takeAnswer (issue x s)).1 = (takeAnswer s).1 := by
  unfold takeAnswer
  rw [issue_answers, issue_freeCount]
  split <;> rfl

theorem issue_wentOut (x : Transaction) (s : State) : WentOut x s (takeAnswer (issue x s)).2 :=
  ⟨by simp, by simp, by simp, by simp, by simp, by simp, fun h => by simp [h]⟩

theorem checked_attempted {α : Type} {x : Transaction} {s : State} {go : BusResult ErrorCode α}
    (hr : s.resetAfter = none) (hw : inWindows s.config x) (hgo : Attempted x s go) :
    Attempted x s (checked x.pointer x.size s go) := by
  by_cases ha : 1 < x.size ∧ s.ai = false
  · rw [checked, if_neg (by simp [resetDue_of_none hr]), if_neg (by simp [hw]), if_pos ha]
    exact .refused ha.2
  · rw [checked_go (resetDue_of_none hr) hw (by simpa [imp_iff_not_or] using ha)]
    exact hgo

theorem busWrite_attempted {p : Address} {data : List Byte} {s : State} (hr : s.resetAfter = none)
    (hw : reaches s.config p data.length = true) : Attempted (.write p data) s (busWrite p data s) := by
  refine checked_attempted (x := .write p data) hr hw ?_
  have hout := issue_wentOut (.write p data) s
  have hans := takeAnswer_issue_fst (.write p data) s
  have hpos := takeAnswer_position (issue (.write p data) s)
  generalize takeAnswer (issue (.write p data) s) = r at hout hans hpos ⊢
  obtain ⟨_ | ⟨e, m⟩, u⟩ := r
  · exact .done () { hout with } hans.symm (congrArg (· + 1) hpos)
  · exact .failed { hout with } hans.symm hpos

theorem busWriteRead_attempted {p : Address} {n : Nat} {s : State} (hr : s.resetAfter = none)
    (hw : reaches s.config p n = true) : Attempted (.writeRead p n) s (busWriteRead p n s) := by
  refine checked_attempted (x := .writeRead p n) hr hw ?_
  have hout := issue_wentOut (.writeRead p n) s
  have hans := takeAnswer_issue_fst (.writeRead p n) s
  have hpos := takeAnswer_position (issue (.writeRead p n) s)
  generalize takeAnswer (issue (.writeRead p n) s) = r at hout hans hpos ⊢
  obtain ⟨_ | ⟨e, m⟩, u⟩ := r
  · have hload : SameButDraws u (loadBytes n p u).2 := loadBytes_same n p u
    dsimp only
    rw [hload]
    exact .done _ { hout with } hans.symm (congrArg (· + 1) hpos)
  · exact .failed hout hans.symm hpos

/-! ### The sequencer position and the register pointer -/

/-- What a command of at most `b` transactions that issued `new` leaves in the position and the pointer: if its first
`j` transactions succeed, and it issues no more than those or the next one fails, the position has advanced by those it
issued (R21); the pointer is the last one's (R28). -/
structure Followed (b : Nat) (s t : State) (new : List Transaction) : Prop where
  trace    : t.trace = s.trace ++ new
  length   : new.length ≤ b
  position : ∀ j, AnswersOk j s → (new.length ≤ j ∨ ∃ e m, s.answers[j]? = some (.fail e m)) →
    t.position = s.position + min j new.length
  pointer  : t.pointer = (new.getLast?.map Transaction.pointer).getD s.pointer

theorem respond_followed {s : State} (hr : s.resetAfter = none) (b : Nat) (r : Response) :
    Followed b s (respond r s) [] := by
  rw [respond_none hr]
  exact ⟨by simp, by simp, by simp, by simp⟩

theorem takeAnswer_of_answersOk {j : Nat} {s : State} (h : AnswersOk (j + 1) s) : (takeAnswer s).1 = .ok := by
  rw [takeAnswer_cons (answers_of_answersOk (Nat.succ_pos j) h)]

/-- A transaction that succeeds, and what follows it. -/
theorem Followed.after_done {b : Nat} {s u t : State} {x : Transaction} {new : List Transaction}
    (h : Followed b u t new) (out : WentOut x s u) (answer : (takeAnswer s).1 = .ok)
    (position : u.position = s.position + 1) : Followed (b + 1) s t (x :: new) where
  trace := by rw [h.trace, out.trace, List.append_assoc, List.singleton_append]
  length := Nat.succ_le_succ h.length
  position := by
    intro j hok hj
    cases j with
    | zero =>
      obtain hlen | ⟨e, m, hf⟩ := hj
      · simp at hlen
      · cases hs : s.answers with
        | nil => simp [hs] at hf
        | cons a as =>
          rw [hs] at hf
          rw [takeAnswer_cons hs] at answer
          cases hf.symm.trans (congrArg some answer)
    | succ j =>
      rw [h.position j (answersOk_tail hok out.answers), position, List.length_cons]
      · omega
      · rw [out.answers]
        simpa using hj
  pointer := by
    rw [h.pointer, out.pointer]
    cases new with
    | nil => rfl
    | cons y ys => rw [List.getLast?_cons_cons, List.getLast?_cons]; rfl

/-- A transaction that fails, and its response. -/
theorem Followed.after_failed {b : Nat} {s u : State} {x : Transaction} {e : ErrorCode} {m : Nat}
    (hr : s.resetAfter = none) (out : WentOut x s u) (answer : (takeAnswer s).1 = .fail e m)
    (position : u.position = s.position) (r : Response) : Followed (b + 1) s (respond r u) [x] := by
  rw [respond_none (out.resetAfter hr)]
  refine ⟨out.trace, by simp, fun j hok _ => ?_, by simp [out.pointer]⟩
  cases j with
  | zero => simpa using position
  | succ j => cases (takeAnswer_of_answersOk hok).symm.trans answer

theorem tryBus_followed {α : Type} {b : Nat} {s t : State} {x : Transaction} {r : BusResult ErrorCode α}
    {go : α → State → Host.Outcome State Fault Refusal} (hr : s.resetAfter = none) (hx : Attempted x s r)
    (hgo : ∀ a u, WentOut x s u → go a u = .next t → ∃ new, Followed b u t new) (ht : tryBus r go = .next t) :
    ∃ new, Followed (b + 1) s t new := by
  cases hx with
  | done a out answer position =>
    obtain ⟨new, h⟩ := hgo a _ out ht
    exact ⟨x :: new, h.after_done out answer position⟩
  | failed out answer position =>
    cases ht
    exact ⟨[x], .after_failed hr out answer position _⟩
  | refused hai => cases ht

theorem CommandShape.followed {c : Config} {b : Nat} {o : State → Host.Outcome State Fault Refusal}
    (h : CommandShape c b o) {s t : State} (hc : s.config = c) (hr : s.resetAfter = none) (ht : o s = .next t) :
    ∃ new, Followed b s t new := by
  induction h generalizing s with
  | @respond b r =>
    cases ht
    exact ⟨[], respond_followed hr b r⟩
  | read hw hgo ih =>
    exact tryBus_followed hr (busWriteRead_attempted hr (hc ▸ hw))
      (fun bs u out => ih bs (out.config.trans hc) (out.resetAfter hr)) ht
  | @write b p data hw =>
    refine tryBus_followed hr (busWrite_attempted hr (hc ▸ hw)) (fun _ u out hu => ?_) ht
    cases hu
    exact ⟨[], respond_followed (out.resetAfter hr) b _⟩

/-- Settles O18, by induction on the shape of the command (`CommandShape.followed`): the three clauses on the answers are
its position at two, no and one success. -/
theorem sequencerAndPointerFollowTheTransactions : Obligations.SequencerAndPointerFollowTheTransactions := by
  intro i s t hi hc hr ht
  obtain ⟨o, hshape, hexec⟩ := exec_shape hi hc
  obtain ⟨new, h⟩ := hshape.followed rfl hr ((hexec s rfl).symm.trans ht)
  refine ⟨new, h.trace, fun hok => ?_, fun e m as hf => ?_, fun e m as hf => ?_, fun hnew => ?_, fun x hx => ?_⟩
  · rw [h.position 2 hok (.inl h.length), Nat.min_eq_right h.length]
  · simpa using h.position 0 rfl (.inr ⟨e, m, by simp [hf]⟩)
  · exact h.position 1 (by simp [AnswersOk, hf]) (.inr ⟨e, m, by simp [hf]⟩)
  · simpa [hnew] using h.pointer
  · simpa [hx] using h.pointer

/-! ### A reset of the block on its way -/

/-- The state with a reset of the block on its way, or with none (R32; log 9). -/
def withReset (r : Option Nat) (s : State) : State := { s with resetAfter := r }

@[simp] theorem withReset_config (r : Option Nat) (s : State) : (withReset r s).config = s.config := rfl
@[simp] theorem withReset_ai (r : Option Nat) (s : State) : (withReset r s).ai = s.ai := rfl
@[simp] theorem withReset_trace (r : Option Nat) (s : State) : (withReset r s).trace = s.trace := rfl
@[simp] theorem resetDue_withReset_succ (k : Nat) (s : State) : resetDue (withReset (some (k + 1)) s) = false := rfl

/-- A transaction's result with every state in it changed by `f`. -/
def BusResult.mapState {α : Type} (f : State → State) : BusResult ErrorCode α → BusResult ErrorCode α
  | .done a s => .done a (f s)
  | .failed e s => .failed e (f s)
  | .abandoned s => .abandoned (f s)
  | .faulted r => .faulted r
  | .refused r => .refused r

theorem takeAnswer_withReset (r : Option Nat) (s : State) :
    takeAnswer (withReset r s) = ((takeAnswer s).1, withReset r (takeAnswer s).2) := by
  unfold takeAnswer
  simp only [withReset]
  split <;> rfl

theorem drawSlotByte_withReset (r : Option Nat) (s : State) :
    drawSlotByte (withReset r s) = ((drawSlotByte s).1, withReset r (drawSlotByte s).2) := by
  unfold drawSlotByte
  simp only [withReset]
  split <;> rfl

theorem loadByte_withReset (r : Option Nat) (a : Address) (s : State) :
    loadByte a (withReset r s) = ((loadByte a s).1, withReset r (loadByte a s).2) := by
  unfold loadByte
  simp only [drawSlotByte_withReset]
  simp only [withReset]
  split <;> rfl

theorem loadBytes_withReset (r : Option Nat) (n : Nat) (a : Address) (s : State) :
    loadBytes n a (withReset r s) = ((loadBytes n a s).1, withReset r (loadBytes n a s).2) := by
  induction n generalizing a s with
  | zero => rfl
  | succ n ih => simp only [loadBytes, loadByte_withReset, ih]

/-- A reset due at once abandons the command before the transaction is issued. -/
theorem checked_withReset_zero {α : Type} (p : Address) (n : Nat) (s : State) (go : BusResult ErrorCode α) :
    checked p n (withReset (some 0) s) go = .abandoned (resetBlock (withReset (some 0) s)) := if_pos rfl

/-- A reset due later does not keep a transaction from being issued. -/
theorem checked_withReset_succ {α : Type} (p : Address) (n k : Nat) {s : State} (hr : s.resetAfter = none)
    {go go' : BusResult ErrorCode α} (hgo : go' = go.mapState (withReset (some k))) :
    checked p n (withReset (some (k + 1)) s) go' = (checked p n s go).mapState (withReset (some k)) := by
  simp only [checked, resetDue_withReset_succ, resetDue_of_none hr, withReset_config, withReset_ai,
    Bool.false_eq_true, if_false]
  by_cases hw : reaches s.config p n = false
  · simp only [hw, if_true]
    rfl
  · by_cases ha : 1 < n ∧ s.ai = false
    · simp only [hw, ha]
      rfl
    · simp only [hw, ha, if_false]
      exact hgo

theorem issue_withReset_succ (x : Transaction) (k : Nat) (s : State) :
    issue x (withReset (some (k + 1)) s) = withReset (some k) (issue x s) := rfl

theorem busWrite_withReset_succ (p : Address) (data : List Byte) (k : Nat) {s : State} (hr : s.resetAfter = none) :
    busWrite p data (withReset (some (k + 1)) s) = (busWrite p data s).mapState (withReset (some k)) := by
  refine checked_withReset_succ p data.length k hr ?_
  rw [issue_withReset_succ, takeAnswer_withReset]
  generalize takeAnswer (issue (.write p data) s) = r
  obtain ⟨_ | ⟨e, m⟩, u⟩ := r <;> rfl

theorem busWriteRead_withReset_succ (p : Address) (n k : Nat) {s : State} (hr : s.resetAfter = none) :
    busWriteRead p n (withReset (some (k + 1)) s) = (busWriteRead p n s).mapState (withReset (some k)) := by
  refine checked_withReset_succ p n k hr ?_
  rw [issue_withReset_succ, takeAnswer_withReset]
  generalize takeAnswer (issue (.writeRead p n) s) = r
  obtain ⟨_ | ⟨e, m⟩, u⟩ := r
  · dsimp only
    rw [loadBytes_withReset]
    rfl
  · rfl

/-! ### A command cut short by a reset of the block -/

/-- `t` is where a command ends when a reset arrives after `n` of its transactions, `t0` where it ends without the
reset, having issued `new`. The bank is `bank0` where a transaction of the command was still to come. -/
structure CutAfter (n : Nat) (bank0 : Memory) (s t t0 : State) (new : List Transaction) : Prop where
  trace   : t0.trace = s.trace ++ new
  answers : t0.answers = s.answers.drop new.length
  cut     : n ≤ new.length → t.responses = s.responses ∧ t.trace = s.trace ++ new.take n ∧
    t.answers = s.answers.drop n ∧ t.bank = (if n < new.length then bank0 else t0.bank)
  late    : new.length < n → t.responses = t0.responses ∧ t.trace = t0.trace ∧ t.bank = t0.bank ∧
    t.answers = t0.answers ∧ t.slotDraws = t0.slotDraws

/-- Both runs end in a state, `o` with the reset after `n` transactions and `o0` without it. -/
def EndsCutAfter (n : Nat) (bank0 : Memory) (s : State) (o o0 : Host.Outcome State Fault Refusal) : Prop :=
  ∃ t t0 new, o = .next t ∧ o0 = .next t0 ∧ CutAfter n bank0 s t t0 new

/-- A response: a reset due at once takes it back, a later one comes too late. -/
theorem respond_endsCutAfter (n : Nat) (bank0 : Memory) {s : State} (hr : s.resetAfter = none) (r : Response) :
    EndsCutAfter n bank0 s (.next (respond r (withReset (some n) s))) (.next (respond r s)) := by
  rw [respond_none hr]
  refine ⟨_, _, [], rfl, rfl, by simp, by simp, fun hn => ?_, fun hn => ?_⟩
  · obtain rfl : n = 0 := Nat.le_zero.1 hn
    exact ⟨rfl, by simp [respond, resetDue, withReset], rfl, rfl⟩
  · obtain ⟨k, rfl⟩ := Nat.exists_eq_succ_of_ne_zero (Nat.ne_of_gt hn)
    exact ⟨rfl, rfl, rfl, rfl, rfl⟩

section

variable {x : Transaction} {s u : State} {o o0 : Host.Outcome State Fault Refusal}

/-- A reset that arrives before a transaction goes out leaves everything as it was. -/
theorem EndsCutAfter.before_transaction (out : WentOut x s u) {m : Memory} (h : EndsCutAfter 0 m u o o0) :
    EndsCutAfter 0 s.bank s (.next (resetBlock (withReset (some 0) s))) o0 := by
  obtain ⟨t, t0, new, -, ht0, hcut⟩ := h
  refine ⟨_, t0, x :: new, rfl, ht0, ?_, ?_, fun _ => ⟨rfl, by simp, rfl, rfl⟩,
    fun hn => absurd hn (Nat.not_lt_zero _)⟩
  · rw [hcut.trace, out.trace, List.append_assoc, List.singleton_append]
  · rw [hcut.answers, out.answers, List.length_cons, List.drop_tail]

/-- A reset that arrives later is counted from the transaction that went out. -/
theorem EndsCutAfter.after_transaction (out : WentOut x s u) {n : Nat} {m : Memory} (h : EndsCutAfter n m u o o0) :
    EndsCutAfter (n + 1) m s o o0 := by
  obtain ⟨t, t0, new, ht, ht0, hcut⟩ := h
  refine ⟨t, t0, x :: new, ht, ht0, ?_, ?_, fun hn => ?_, fun hn => hcut.late (Nat.lt_of_succ_lt_succ hn)⟩
  · rw [hcut.trace, out.trace, List.append_assoc, List.singleton_append]
  · rw [hcut.answers, out.answers, List.length_cons, List.drop_tail]
  · obtain ⟨hresp, htrace, hans, hbank⟩ := hcut.cut (Nat.le_of_succ_le_succ hn)
    refine ⟨hresp.trans out.responses, ?_, ?_, ?_⟩
    · rw [htrace, out.trace, List.append_assoc, List.singleton_append, List.take_succ_cons]
    · rw [hans, out.answers, List.drop_tail]
    · simpa using hbank

end

/-- A transaction and what follows it, with a reset on its way. -/
theorem tryBus_endsCutAfter {α : Type} {x : Transaction} {s : State} (run : State → BusResult ErrorCode α)
    {go : α → State → Host.Outcome State Fault Refusal} (hr : s.resetAfter = none) (hai : s.ai = true)
    (hx : Attempted x s (run s))
    (hzero : run (withReset (some 0) s) = .abandoned (resetBlock (withReset (some 0) s)))
    (hsucc : ∀ k, run (withReset (some (k + 1)) s) = (run s).mapState (withReset (some k)))
    (hgo : ∀ a u k, run s = .done a u → WentOut x s u →
      EndsCutAfter k s.bank u (go a (withReset (some k) u)) (go a u))
    (n : Nat) : EndsCutAfter n s.bank s (tryBus (run (withReset (some n) s)) go) (tryBus (run s) go) := by
  generalize hrun : run s = r at hx hgo hsucc
  cases n with
  | zero =>
    rw [hzero]
    cases hx with
    | done a out => exact (hgo a _ 0 rfl out).before_transaction out
    | failed out => exact (respond_endsCutAfter 0 s.bank (out.resetAfter hr) _).before_transaction out
    | refused h => cases h.symm.trans hai
  | succ k =>
    rw [hsucc]
    cases hx with
    | done a out => exact (hgo a _ k rfl out).after_transaction out
    | failed out => exact (respond_endsCutAfter k s.bank (out.resetAfter hr) _).after_transaction out
    | refused h => cases h.symm.trans hai

theorem CommandShape.endsCutAfter {c : Config} {b : Nat} {o : State → Host.Outcome State Fault Refusal}
    (h : CommandShape c b o) (n : Nat) {s : State} (hc : s.config = c) (hai : s.ai = true) (hr : s.resetAfter = none) :
    EndsCutAfter n s.bank s (o (withReset (some n) s)) (o s) := by
  induction h generalizing n s with
  | respond r => exact respond_endsCutAfter n s.bank hr r
  | @read b m p go hw hgo ih =>
    refine tryBus_endsCutAfter (busWriteRead p m) hr hai (busWriteRead_attempted hr (hc ▸ hw))
      (checked_withReset_zero ..) (fun k => busWriteRead_withReset_succ p m k hr) (fun bs u k hdone out => ?_) n
    have hbank : u.bank = s.bank := by
      have := busWriteRead_bank p m s
      rwa [hdone] at this
    exact hbank ▸ ih bs k (out.config.trans hc) (out.ai.trans hai) (out.resetAfter hr)
  | @write b p data hw =>
    exact tryBus_endsCutAfter (busWrite p data) hr hai (busWrite_attempted hr (hc ▸ hw))
      (checked_withReset_zero ..) (fun k => busWrite_withReset_succ p data k hr)
      (fun _ u k _ out => respond_endsCutAfter k s.bank (out.resetAfter hr) _) n

/-- Settles O11, by induction on the shape of the command (`CommandShape.endsCutAfter`): the run with the reset on
its way and the one without it go on together until the reset is due. -/
theorem resetInMidCommandAbandonsTheRest : Obligations.ResetInMidCommandAbandonsTheRest := by
  intro i s n hi hc hai hn
  obtain ⟨o, hshape, hexec⟩ := exec_shape hi hc
  obtain ⟨t, t0, new, ht, ht0, hcut⟩ := hshape.endsCutAfter n (s := withReset none s) rfl hai rfl
  have hs : withReset (some n) (withReset none s) = s := by rw [← hn]; rfl
  have hrun : exec i s = .next t := (hexec s rfl).trans (hs ▸ ht)
  have hends := exec_ends i s hi
  rw [hrun] at hends
  have hrun0 : exec i (withReset none s) = .next t0 := (hexec (withReset none s) rfl).trans ht0
  exact ⟨t, t0, new, hrun, hrun0, hcut.trace, hcut.answers, hends.phase, hends.resetAfter, hends.ai, hends.config,
    hcut.cut, hcut.late⟩

end Sys2Proof.Machine
end

section
/-! PROOFS. The memory's statements: every transaction of a command is on R53's list and stays in its window (O17), and
EnableAutoIncrement sets the mode bit unless it fails (O9). -/

namespace Sys2Proof.Machine

/-! ### The list of R53 -/

/-- R53's list: where a transaction of a command points and how many bytes it moves. -/
inductive Listed (c : Config) : Address → Nat → Prop
  | highByte {ch : Channel} (h : ch.wf = true) (k : Kind) : Listed c (highAddrOf c ch k) 1
  | pair {ch : Channel} (h : ch.wf = true) (k : Kind) : Listed c (addrOf c ch k) 2
  | fourBytes {ch : Channel} (h : ch.wf = true) : Listed c (addrOf c ch .on) 4
  | bulk : Listed c c.chBase 64

theorem Listed.shape {c : Config} {p : Address} {n : Nat} (h : Listed c p n) :
    (n = 1 ∧ ∃ ch k, ch.wf = true ∧ p = highAddrOf c ch k) ∨
      (n = 2 ∧ ∃ ch k, ch.wf = true ∧ p = addrOf c ch k) ∨
      (n = 4 ∧ ∃ ch, ch.wf = true ∧ p = addrOf c ch .on) ∨
      (n = 64 ∧ p = c.chBase) := by
  cases h with
  | highByte h k => exact .inl ⟨rfl, _, k, h, rfl⟩
  | pair h k => exact .inr (.inl ⟨rfl, _, k, h, rfl⟩)
  | fourBytes h => exact .inr (.inr (.inl ⟨rfl, _, h, rfl⟩))
  | bulk => exact .inr (.inr (.inr ⟨rfl, rfl⟩))

/-- R53: no listed transaction crosses a window's end. -/
theorem Listed.inside {c : Config} {p : Address} {n : Nat} (hc : c.wf) (h : Listed c p n) : reaches c p n = true := by
  cases h with
  | highByte h k => exact reaches_high hc h k
  | pair h k => exact reaches_pair hc h k
  | fourBytes h => exact reaches_channel hc h
  | bulk => exact reaches_bulk c

/-- R7, R53: both windows end at or below 255, so what lies in one never wraps. -/
theorem reaches_no_wrap {c : Config} {p : Address} {n : Nat} (hc : c.wf) (h : reaches c p n = true) :
    p.toNat + n ≤ 256 := by
  obtain ⟨hch, hall, -⟩ := hc
  rcases reaches_cases h with ⟨-, hend⟩ | ⟨-, hend⟩ <;> omega

/-! ### What a command issues -/

/-- How a transaction `x` can end as far as the trace goes, a reset of the block on its way or not: it went out, or
nothing did. -/
def GoesOut {α : Type} (x : Transaction) (s : State) : BusResult ErrorCode α → Prop
  | .done _ u => WentOut x s u
  | .failed _ u => WentOut x s u
  | .abandoned u => u.trace = s.trace
  | .faulted _ => True
  | .refused _ => True

theorem checked_goesOut {α : Type} {x : Transaction} {p : Address} {n : Nat} {s : State} {go : BusResult ErrorCode α}
    (h : GoesOut x s go) : GoesOut x s (checked p n s go) := by
  unfold checked
  split_ifs
  · exact resetBlock_trace s
  · trivial
  · trivial
  · exact h

theorem busWrite_goesOut (p : Address) (data : List Byte) (s : State) :
    GoesOut (.write p data) s (busWrite p data s) := by
  refine checked_goesOut ?_
  have hout := issue_wentOut (.write p data) s
  generalize takeAnswer (issue (.write p data) s) = r at hout ⊢
  obtain ⟨_ | ⟨e, m⟩, u⟩ := r
  · exact { hout with }
  · exact { hout with }

theorem busWriteRead_goesOut (p : Address) (n : Nat) (s : State) :
    GoesOut (.writeRead p n) s (busWriteRead p n s) := by
  refine checked_goesOut ?_
  have hout := issue_wentOut (.writeRead p n) s
  generalize takeAnswer (issue (.writeRead p n) s) = r at hout ⊢
  obtain ⟨_ | ⟨e, m⟩, u⟩ := r
  · have hload : SameButDraws u (loadBytes n p u).2 := loadBytes_same n p u
    dsimp only
    rw [hload]
    exact { hout with }
  · exact hout

/-- The outcome, if it is a state, has at most `b` more transactions in its trace than `s`, all on R53's list. -/
def Issues (b : Nat) (s : State) (o : Host.Outcome State Fault Refusal) : Prop :=
  ∀ t, o = .next t → ∃ new, t.trace = s.trace ++ new ∧ new.length ≤ b ∧
    ∀ x ∈ new, Listed s.config x.pointer x.size

theorem issues_of_trace_eq {s u : State} (b : Nat) (h : u.trace = s.trace) : Issues b s (.next u) := by
  rintro _ ⟨⟩
  exact ⟨[], by simp [h], Nat.zero_le b, by simp⟩

theorem respond_trace (r : Response) (s : State) : (respond r s).trace = s.trace := by
  unfold respond
  split <;> rfl

theorem respond_issues (b : Nat) (r : Response) (s : State) : Issues b s (.next (respond r s)) :=
  issues_of_trace_eq b (respond_trace r s)

/-- A transaction that went out, and what follows it. -/
theorem WentOut.issues {b : Nat} {x : Transaction} {s u : State} {o : Host.Outcome State Fault Refusal}
    (out : WentOut x s u) (hx : Listed s.config x.pointer x.size) (h : Issues b u o) : Issues (b + 1) s o := by
  intro t ht
  obtain ⟨new, htrace, hlen, hlisted⟩ := h t ht
  rw [out.config] at hlisted
  exact ⟨x :: new, by rw [htrace, out.trace, List.append_assoc, List.singleton_append], Nat.succ_le_succ hlen,
    List.forall_mem_cons.2 ⟨hx, hlisted⟩⟩

/-- `try` a listed transaction. -/
theorem tryBus_issues {α : Type} {b : Nat} {x : Transaction} {s : State} {r : BusResult ErrorCode α}
    {go : α → State → Host.Outcome State Fault Refusal} (hr : GoesOut x s r)
    (hx : Listed s.config x.pointer x.size) (hgo : ∀ a u, Issues b u (go a u)) : Issues (b + 1) s (tryBus r go) := by
  cases r with
  | done a u => exact WentOut.issues hr hx (hgo a u)
  | failed e u => exact WentOut.issues hr hx (respond_issues b _ u)
  | abandoned u => exact issues_of_trace_eq _ hr
  | faulted f => exact fun t ht => nomatch ht
  | refused y => exact fun t ht => nomatch ht

theorem tryRead_issues {b n : Nat} {p : Address} {s : State} {go : List Byte → State → Host.Outcome State Fault Refusal}
    (hp : Listed s.config p n) (hgo : ∀ bs u, Issues b u (go bs u)) :
    Issues (b + 1) s (tryBus (busWriteRead p n s) go) :=
  tryBus_issues (busWriteRead_goesOut p n s) hp hgo

/-- The write a command ends with. -/
theorem tryWrite_issues {b : Nat} {p : Address} {data : List Byte} {s : State} (hp : Listed s.config p data.length) :
    Issues (b + 1) s (tryBus (busWrite p data s) fun _ u => respondOk [] u) :=
  tryBus_issues (busWrite_goesOut p data s) hp fun _ u => respond_issues b _ u

/-- R53: every well-formed command issues two transactions at most, each on the list, whatever fails and wherever a
reset of the block arrives. -/
theorem exec_issues {i : Instr} (hi : i.wf = true) (s : State) : Issues 2 s (exec i s) := by
  cases i with
  | addr ch k => exact respond_issues 2 _ s
  | getc ch k => exact tryRead_issues (.pair hi k) fun _ u => respond_issues 1 _ u
  | setc ch k v =>
    simp only [exec, execSetc]
    split
    · exact tryRead_issues (.highByte hi k) fun _ u => tryWrite_issues (.pair hi k)
    · exact respond_issues 2 _ s
  | setf ch k f =>
    refine tryRead_issues (.highByte hi k) fun bs u => ?_
    split
    · exact respond_issues 1 _ u
    · exact tryWrite_issues (.highByte hi k)
  | setonoff ch v w =>
    simp only [exec, execSetonoff]
    split
    · exact tryWrite_issues (.fourBytes hi)
    · exact respond_issues 2 _ s
  | getonoff ch => exact tryRead_issues (.fourBytes hi) fun _ u => respond_issues 1 _ u
  | rdall => exact tryRead_issues .bulk fun _ u => respond_issues 1 _ u
  | wrall vs =>
    simp only [exec, execWrall]
    split
    next hv => exact tryWrite_issues (by rw [wordBytes_length, hv]; exact .bulk)
    next => exact respond_issues 2 _ s
  | plen v w => exact respond_issues 2 _ s
  | plenplain v w => exact respond_issues 2 _ s
  | getpulse ch => exact tryRead_issues (.fourBytes hi) fun _ u => respond_issues 1 _ u

/-- Settles O17: what a command issues is on R53's list (`exec_issues`), and every entry of the list lies in a window. -/
theorem everyTransactionIsOneOfTheFourAndStaysInItsWindow :
    Obligations.EveryTransactionIsOneOfTheFourAndStaysInItsWindow := by
  intro i s t hi hc ht
  obtain ⟨new, htrace, hlen, hlisted⟩ := exec_issues hi s t ht
  refine ⟨new, htrace, hlen, fun x hx => ?_⟩
  have hwindow := (hlisted x hx).inside hc
  exact ⟨(hlisted x hx).shape, reaches_cases hwindow, reaches_no_wrap hc hwindow⟩

/-! ### EnableAutoIncrement -/

/-- Settles O9: a busy block waits, and of an idle one EnableAutoIncrement moves the mode bit, the inbox and the draw of
its answer alone (`enableAutoIncrement_eq`). -/
theorem enableAutoIncrementSetsTheModeBitUnlessItFails :
    Obligations.EnableAutoIncrementSetsTheModeBitUnlessItFails := by
  refine fun s rest hi => ⟨stepWith_busy, fun hp => ⟨_, stepWith_enableAutoIncrement hp hi, ?_⟩⟩
  rw [enableAutoIncrement_eq]
  refine ⟨fun as hok => ?_, fun e m as hf => ?_, fun hai => ?_, rfl, rfl, rfl, rfl, hp, rfl, rfl, rfl, rfl⟩
  · rw [takeAnswer_cons (s := { s with inbox := rest }) hok]
    exact ⟨rfl, congrArg List.tail hok⟩
  · rw [takeAnswer_cons (s := { s with inbox := rest }) hf]
    exact ⟨rfl, congrArg List.tail hf⟩
  · dsimp only
    split
    · rfl
    · exact hai

end Sys2Proof.Machine
end

section
/-! PROOFS. The encoding's statements about packets: the two round trips (O1, O2), the rows of R83's map (O3), the
causes of R86 (O4), the spec's own packets (O5) and the pseudo-instructions (O6). -/

namespace Sys2Proof

/-! ### Headers an operation admits -/

/-- R86, causes 3 to 6: the fields a header may hold beside an opcode. A field the operation does not use is 0, and a
channel used is one of the 17. -/
structure Op.Admits (op : Op) (k f : Bool) (ch : BitVec 5) : Prop where
  kind      : k = true → op.usesKind = true
  flag      : f = true → op.usesFlag = true
  channel   : op.usesChannel = true → ch.toNat ≤ 16
  noChannel : op.usesChannel = false → ch = 0

theorem Op.Admits.withChannel {op : Op} {k f : Bool} {ch : Channel} (hch : ch.wf = true) (hused : op.usesChannel = true)
    (hk : k = true → op.usesKind = true) (hf : f = true → op.usesFlag = true) : op.Admits k f ch.field :=
  ⟨hk, hf, fun _ => Channel.field_le hch, fun hunused => Bool.noConfusion (hused.symm.trans hunused)⟩

theorem Op.Admits.zeros (op : Op) : op.Admits false false 0 := ⟨nofun, nofun, fun _ => Nat.zero_le 16, fun _ => rfl⟩

theorem Op.Admits.kind_unused {op : Op} {k f : Bool} {ch : BitVec 5} (h : op.Admits k f ch)
    (hunused : op.usesKind = false) : k = false :=
  Bool.eq_false_iff.2 fun hset => Bool.noConfusion (hunused.symm.trans (h.kind hset))

theorem Op.Admits.flag_unused {op : Op} {k f : Bool} {ch : BitVec 5} (h : op.Admits k f ch)
    (hunused : op.usesFlag = false) : f = false :=
  Bool.eq_false_iff.2 fun hset => Bool.noConfusion (hunused.symm.trans (h.flag hset))

/-- R81, R86: a header put together from admitted fields passes causes 1 to 6, so what it decodes to hangs on the
operand words alone. -/
theorem decode_headerWord {op : Op} {k f : Bool} {ch : BitVec 5} (h : op.Admits k f ch) (ws : List Word) :
    decode { header := headerWord op k f ch, operands := ws } =
      decodeOperands op (Channel.ofField ch) (Kind.ofBit k) f ws := by
  obtain ⟨hop, hk, hf, hrsv, hch⟩ := headerWord_fields op k f ch ws
  simp only [decode, hop, Op.ofCode_code, hk, hf, hrsv, hch]
  rw [if_neg (not_not_intro rfl), if_neg, if_neg, if_neg, if_neg]
  · exact fun ⟨hunused, hne⟩ => hne (h.noChannel hunused)
  · exact fun ⟨hused, hgt⟩ => Nat.not_lt.2 (h.channel hused) hgt
  · exact fun ⟨hset, hunused⟩ => Bool.noConfusion (hset.symm.trans (h.kind_unused hunused))
  · exact fun ⟨hset, hunused⟩ => Bool.noConfusion (hset.symm.trans (h.flag_unused hunused))

/-- A legal packet is put together from the fields read from it, which its command's operation admits. -/
theorem decode_ok_fields {p : Packet} {i : Instr} (h : decode p = .ok i) :
    i.op.Admits p.k p.f p.ch ∧ headerWord i.op p.k p.f p.ch = p.header ∧
      decodeOperands i.op (Channel.ofField p.ch) (Kind.ofBit p.k) p.f p.operands = .ok i := by
  obtain ⟨op, hop, hrsv, hf, hk, hch, hno, hd⟩ := decode_ok h
  obtain rfl : i.op = op := (decodeOperands_ok hd fun hu => Channel.ofField_wf (hch hu)).2
  exact ⟨⟨hk, hf, hch, hno⟩, headerWord_of_fields p i.op (Op.code_of_ofCode hop) hrsv, hd⟩

/-! ### The round trips -/

/-- R82: a channel and a kind put into a header are read back. -/
theorem decodeOperands_fields {ch : Channel} (hch : ch.wf = true) (op : Op) (k : Kind) (f : Bool) (ws : List Word) :
    decodeOperands op (Channel.ofField ch.field) (Kind.ofBit k.bit) f ws = decodeOperands op ch k f ws := by
  rw [Channel.ofField_field hch, Kind.ofBit_bit]

/-- R81 to R84: the packet of a well-formed command is put together from admitted fields, and the operand words attached
to those give the command. -/
theorem encode_fields {i : Instr} (hi : i.wf = true) :
    ∃ k f ch, i.op.Admits k f ch ∧ (encode i).header = headerWord i.op k f ch ∧
      decodeOperands i.op (Channel.ofField ch) (Kind.ofBit k) f (encode i).operands = .ok i := by
  cases i with
  | addr ch k =>
    exact ⟨k.bit, false, ch.field, .withChannel hi rfl (fun _ => rfl) nofun, rfl, decodeOperands_fields hi _ k _ _⟩
  | getc ch k =>
    exact ⟨k.bit, false, ch.field, .withChannel hi rfl (fun _ => rfl) nofun, rfl, decodeOperands_fields hi _ k _ _⟩
  | setc ch k v =>
    exact ⟨k.bit, false, ch.field, .withChannel hi rfl (fun _ => rfl) nofun, rfl, decodeOperands_fields hi _ k _ _⟩
  | setf ch k f =>
    exact ⟨k.bit, f, ch.field, .withChannel hi rfl (fun _ => rfl) (fun _ => rfl), rfl,
      decodeOperands_fields hi _ k _ _⟩
  | setonoff ch v w =>
    exact ⟨false, false, ch.field, .withChannel hi rfl nofun nofun, rfl, decodeOperands_fields hi _ .on _ _⟩
  | getonoff ch =>
    exact ⟨false, false, ch.field, .withChannel hi rfl nofun nofun, rfl, decodeOperands_fields hi _ .on _ _⟩
  | rdall => exact ⟨false, false, 0, .zeros _, rfl, rfl⟩
  | wrall vs => exact ⟨false, false, 0, .zeros _, rfl, rfl⟩
  | plen v w => exact ⟨false, false, 0, .zeros _, rfl, rfl⟩
  | plenplain v w => exact ⟨false, false, 0, .zeros _, rfl, rfl⟩
  | getpulse ch =>
    exact ⟨false, false, ch.field, .withChannel hi rfl nofun nofun, rfl, decodeOperands_fields hi _ .on _ _⟩

/-- Settles O1: the encoder puts admitted fields together (`encode_fields`), and the decoder reads them back
(`decode_headerWord`). -/
theorem decodeOfEncodeReturnsTheInstruction : Obligations.DecodeOfEncodeReturnsTheInstruction := by
  intro i hi
  obtain ⟨k, f, ch, hadmits, hheader, hoperands⟩ := encode_fields hi
  calc decode (encode i)
      = decode { header := headerWord i.op k f ch, operands := (encode i).operands } := by rw [← hheader]
    _ = decodeOperands i.op (Channel.ofField ch) (Kind.ofBit k) f (encode i).operands := decode_headerWord hadmits _
    _ = .ok i := hoperands

theorem Kind.bit_ofBit (k : Bool) : (Kind.ofBit k).bit = k := by cases k <;> rfl

theorem Channel.field_ofField (c : BitVec 5) : (Channel.ofField c).field = c := by
  unfold Channel.ofField
  split
  next hc => exact (BitVec.eq_of_toNat_eq hc).symm
  next => simp [Channel.field]

/-- What the decoder puts together from admitted fields and operand words is encoded back to them. -/
theorem encode_of_decodeOperands {op : Op} {k f : Bool} {ch : BitVec 5} {ws : List Word} {i : Instr}
    (hadmits : op.Admits k f ch) (h : decodeOperands op (Channel.ofField ch) (Kind.ofBit k) f ws = .ok i) :
    encode i = { header := headerWord op k f ch, operands := ws } := by
  cases op with
  | addr =>
    obtain ⟨rfl, rfl⟩ := withNoOperand_ok h
    rw [hadmits.flag_unused rfl, encode, Kind.bit_ofBit, Channel.field_ofField]
  | getc =>
    obtain ⟨rfl, rfl⟩ := withNoOperand_ok h
    rw [hadmits.flag_unused rfl, encode, Kind.bit_ofBit, Channel.field_ofField]
  | setc =>
    obtain ⟨v, rfl, rfl⟩ := withOneOperand_ok h
    rw [hadmits.flag_unused rfl, encode, Kind.bit_ofBit, Channel.field_ofField]
  | setf =>
    obtain ⟨rfl, rfl⟩ := withNoOperand_ok h
    rw [encode, Kind.bit_ofBit, Channel.field_ofField]
  | setonoff =>
    obtain ⟨v, w, rfl, rfl⟩ := withTwoOperands_ok h
    rw [hadmits.flag_unused rfl, hadmits.kind_unused rfl, encode, Channel.field_ofField]
  | getonoff =>
    obtain ⟨rfl, rfl⟩ := withNoOperand_ok h
    rw [hadmits.flag_unused rfl, hadmits.kind_unused rfl, encode, Channel.field_ofField]
  | rdall =>
    obtain ⟨rfl, rfl⟩ := withNoOperand_ok h
    rw [hadmits.flag_unused rfl, hadmits.kind_unused rfl, hadmits.noChannel rfl, encode]
  | wrall =>
    cases h
    rw [hadmits.flag_unused rfl, hadmits.kind_unused rfl, hadmits.noChannel rfl, encode]
  | plen =>
    obtain ⟨v, w, rfl, rfl⟩ := withTwoOperands_ok h
    rw [hadmits.flag_unused rfl, hadmits.kind_unused rfl, hadmits.noChannel rfl, encode]
  | plenplain =>
    obtain ⟨v, w, rfl, rfl⟩ := withTwoOperands_ok h
    rw [hadmits.flag_unused rfl, hadmits.kind_unused rfl, hadmits.noChannel rfl, encode]
  | getpulse =>
    obtain ⟨rfl, rfl⟩ := withNoOperand_ok h
    rw [hadmits.flag_unused rfl, hadmits.kind_unused rfl, encode, Channel.field_ofField]

/-- Settles O2: a legal packet's fields are admitted (`decode_ok_fields`), and what they decode to is encoded back to
them. -/
theorem encodeOfDecodeReturnsThePacket : Obligations.EncodeOfDecodeReturnsThePacket := by
  intro p i h
  obtain ⟨hadmits, hheader, hoperands⟩ := decode_ok_fields h
  exact ⟨(decode_wf h).1, by rw [encode_of_decodeOperands hadmits hoperands, hheader]⟩

/-! ### The rows of R83's map -/

/-- R83: the opcode bits are set in every mask, so a header that meets a row has the row's opcode. -/
theorem opcode_of_row {h : Word} {op : Op} (hrow : h &&& op.maskWord = op.matchWord) :
    h.extractLsb' 12 4 = op.code := by
  have hmask : op.maskWord.extractLsb' 12 4 = BitVec.allOnes 4 := by cases op <;> decide
  have hmatch : op.matchWord.extractLsb' 12 4 = op.code := by cases op <;> decide
  rw [← hmatch, ← hrow, BitVec.extractLsb'_and, hmask, BitVec.and_allOnes]

theorem Op.code_injective {op op' : Op} (h : op.code = op'.code) : op = op' :=
  Option.some.inj (by rw [← Op.ofCode_code op, ← Op.ofCode_code op', h])

/-- Settles O3: a row met gives the opcode, and no two rows share one; a legal packet's fields are admitted, so its
header meets its command's row. -/
theorem headerSelectsAtMostOneRow : Obligations.HeaderSelectsAtMostOneRow := by
  have hone : ∀ (h : Word) (op op' : Op), h &&& op.maskWord = op.matchWord → h &&& op'.maskWord = op'.matchWord →
      op = op' :=
    fun h op op' hrow hrow' => Op.code_injective ((opcode_of_row hrow).symm.trans (opcode_of_row hrow'))
  refine ⟨hone, fun p i hd op => ?_⟩
  obtain ⟨hadmits, hheader, -⟩ := decode_ok_fields hd
  have hown : p.header &&& i.op.maskWord = i.op.matchWord :=
    hheader ▸ Laws.headerWord_row _ _ _ _ hadmits.kind hadmits.flag hadmits.noChannel
  exact ⟨fun hrow => hone _ _ _ hrow hown, by rintro rfl; exact hown⟩

/-! ### The causes of R86 as numbers -/

section Fields

variable (p : Packet)

theorem Packet.op_toNat : p.op.toNat = p.header.toNat / 4096 := by
  have := p.header.isLt
  rw [Packet.op, BitVec.extractLsb'_toNat, Nat.shiftRight_eq_div_pow]
  omega

theorem Packet.k_iff : p.k = true ↔ p.header.toNat / 2048 % 2 = 1 := by
  simp [Packet.k, BitVec.getLsbD, Nat.testBit_eq_decide_div_mod_eq]

theorem Packet.f_iff : p.f = true ↔ p.header.toNat / 1024 % 2 = 1 := by
  simp [Packet.f, BitVec.getLsbD, Nat.testBit_eq_decide_div_mod_eq]

theorem Packet.rsv_toNat : p.rsv.toNat = p.header.toNat / 32 % 32 := by
  simp [Packet.rsv, Nat.shiftRight_eq_div_pow]

theorem Packet.ch_toNat : p.ch.toNat = p.header.toNat % 32 := by
  simp [Packet.ch]

end Fields

theorem ne_zero_iff_toNat {n : Nat} (x : BitVec n) : x ≠ 0 ↔ x.toNat ≠ 0 := by
  simp [← BitVec.toNat_inj]

theorem Op.ofCode_eq_none_iff (c : BitVec 4) : Op.ofCode c = none ↔ 11 ≤ c.toNat := by
  revert c
  decide

section Columns

variable (op : Op)

theorem Op.code_lt : op.code.toNat < 11 := by cases op <;> decide

theorem Op.usesFlag_eq_false_iff : op.usesFlag = false ↔ op.code.toNat ≠ 3 := by cases op <;> decide

theorem Op.usesKind_eq_false_iff : op.usesKind = false ↔ 4 ≤ op.code.toNat := by cases op <;> decide

theorem Op.usesChannel_iff : op.usesChannel = true ↔ op.code.toNat ≤ 5 ∨ op.code.toNat = 10 := by
  cases op <;> decide

theorem Op.usesChannel_eq_false_iff : op.usesChannel = false ↔ 6 ≤ op.code.toNat ∧ op.code.toNat ≤ 9 := by
  cases op <;> decide

/-- R86 cause 7 by the opcode. -/
theorem Op.operandWords_ne_iff (m : Nat) : (∃ n, op.operandWords = some n ∧ m ≠ n) ↔ op.code.toNat ≠ 7 ∧
    m ≠ if op.code.toNat = 2 then 1
      else if op.code.toNat = 4 ∨ op.code.toNat = 8 ∨ op.code.toNat = 9 then 2 else 0 := by
  cases op <;> simp [Op.operandWords, Op.code]

end Columns

namespace Machine

/-- R86, R183: an illegal packet that is next ends in IllegalCommand, and nothing of the bus target is touched. -/
theorem step_illegal {p : Packet} {c : IllegalCause} (hd : decode p = .error c) {s : State} {rest : List HostAction}
    (hp : s.phase = .idle) (hi : s.inbox = .command p none :: rest) :
    Completes (step s) (AnsweredAlone .illegalCommand (accept none rest s)) :=
  ⟨_, (stepWith_command hp hi).trans (runPacket_illegal hd), answeredAlone_respond rfl _⟩

/-- Settles O4: the decoder's causes (`decode_error_iff`) as numbers of the header, and what an illegal packet's step
leaves (`step_illegal`). -/
theorem packetIsIllegalExactlyForTheSevenCauses : Obligations.PacketIsIllegalExactlyForTheSevenCauses := by
  refine fun p => ⟨?_, fun s rest hp hi ⟨c, hd⟩ => ?_⟩
  · rw [decode_error_iff, Op.ofCode_eq_none_iff]
    simp only [← Packet.op_toNat, ← Packet.k_iff, ← Packet.f_iff, ← Packet.rsv_toNat, ← Packet.ch_toNat,
      ← ne_zero_iff_toNat]
    refine or_congr_right' fun hle => ?_
    cases hop : Op.ofCode p.op with
    | none => exact absurd ((Op.ofCode_eq_none_iff _).1 hop) hle
    | some op =>
      have hcode : op.code = p.op := Op.code_of_ofCode hop
      simp only [Option.some.injEq, exists_eq_left', decodeOperands_error_iff, Op.usesFlag_eq_false_iff,
        Op.usesKind_eq_false_iff, Op.usesChannel_iff, Op.usesChannel_eq_false_iff, Op.operandWords_ne_iff, hcode,
        and_assoc, Nat.succ_le_iff]
  · obtain ⟨t, ht, hresp, htrace, hbank, hpointer, -, hans, hdraws, hcfg, hai, hinbox, hphase, -⟩ :=
      step_illegal hd hp hi
    exact ⟨t, ht, hresp, htrace, hbank, hai, hpointer, hcfg, hans, hdraws, hinbox, hphase, rfl⟩

/-! ### Packets of the spec -/

/-- Settles O5: the decoder run on each of the six packets. -/
theorem wordsOfTheSpecDecodeToTheirCommands : Obligations.WordsOfTheSpecDecodeToTheirCommands :=
  ⟨rfl, rfl, rfl, rfl, rfl, rfl⟩

/-- Settles O6: a pseudo-instruction expands to the packet of its command, which is read back (O1). -/
theorem pseudoInstructionsSpellTheirCommands : Obligations.PseudoInstructionsSpellTheirCommands := by
  intro ch v f hch
  have hread := fun (i : Instr) (hi : i.wf = true) => decodeOfEncodeReturnsTheInstruction i hi
  exact ⟨⟨_, rfl, hread (.setc ch .on v) hch⟩, ⟨_, rfl, hread (.setc ch .off v) hch⟩,
    ⟨_, rfl, hread (.getc ch .on) hch⟩, ⟨_, rfl, hread (.getc ch .off) hch⟩,
    ⟨_, rfl, hread (.setf ch .on f) hch⟩, ⟨_, rfl, hread (.setf ch .off f) hch⟩, rfl⟩

end Machine

end Sys2Proof
end

section
/-! PROOFS. The encoding's statements about a command's ends: one response of the command's kinds (O20), and the frame
of the bulk write (O37). -/

namespace Sys2Proof

/-- R90: how many data words the command's OK carries. -/
def Instr.dataWords : Instr → Nat
  | .addr _ _ => 1
  | .getc _ _ => 1
  | .setc _ _ _ => 0
  | .setf _ _ _ => 0
  | .setonoff _ _ _ => 0
  | .getonoff _ => 2
  | .rdall => 32
  | .wrall _ => 0
  | .plen _ _ => 1
  | .plenplain _ _ => 1
  | .getpulse _ => 1

/-- R196: the commands that validate their operands. -/
inductive Instr.Validates : Instr → Prop
  | setc (ch : Channel) (k : Kind) (v : Word) : Validates (.setc ch k v)
  | setonoff (ch : Channel) (v w : Word) : Validates (.setonoff ch v w)
  | wrall (vs : List Word) : Validates (.wrall vs)

/-- R196: the commands that issue no transaction. -/
inductive Instr.StaysOffTheBus : Instr → Prop
  | addr (ch : Channel) (k : Kind) : StaysOffTheBus (.addr ch k)
  | plen (v w : Word) : StaysOffTheBus (.plen v w)
  | plenplain (v w : Word) : StaysOffTheBus (.plenplain v w)

theorem Instr.Validates.cases {i : Instr} (h : i.Validates) :
    (∃ ch k v, i = .setc ch k v) ∨ (∃ ch v w, i = .setonoff ch v w) ∨ ∃ vs, i = .wrall vs := by
  cases h with
  | setc ch k v => exact .inl ⟨ch, k, v, rfl⟩
  | setonoff ch v w => exact .inr (.inl ⟨ch, v, w, rfl⟩)
  | wrall vs => exact .inr (.inr ⟨vs, rfl⟩)

namespace Machine

/-! ### The response a command ends in -/

/-- R90, R196: the responses a command can end in. -/
inductive MayAnswer (i : Instr) : Response → Prop
  | ok {data : List Word} (h : data.length = i.dataWords) : MayAnswer i (.ok data)
  | invalidInput (h : i.Validates) : MayAnswer i .invalidInput
  | transport (h : ¬ i.StaysOffTheBus) (e : ErrorCode) : MayAnswer i (.transport e)

/-- The outcome, if it is a state, has one more response than `s`, one that `i` can end in. -/
def AnswersOnce (i : Instr) (s : State) (o : Host.Outcome State Fault Refusal) : Prop :=
  ∀ t, o = .next t → ∃ r, t.responses = s.responses ++ [r] ∧ MayAnswer i r

theorem respond_answersOnce {i : Instr} {r : Response} {s : State} (hr : s.resetAfter = none) (h : MayAnswer i r) :
    AnswersOnce i s (.next (respond r s)) := by
  rintro _ ⟨⟩
  exact ⟨r, by rw [respond_none hr]; rfl, h⟩

/-- `try`: a transaction answers nothing itself, and ends the command only by failing. -/
theorem tryBus_answersOnce {α : Type} {i : Instr} {p : Address} {n : Nat} {s : State} {r : BusResult ErrorCode α}
    {go : α → State → Host.Outcome State Fault Refusal} (hbus : ¬ i.StaysOffTheBus) (hr : s.resetAfter = none)
    (hspec : BusSpec p n s r) (hgo : ∀ a u, u.resetAfter = none → AnswersOnce i u (go a u)) :
    AnswersOnce i s (tryBus r go) := by
  cases r with
  | done a u =>
    obtain ⟨during, -⟩ := hspec
    exact fun t ht => during.responses ▸ hgo a u (during.resetAfter hr) t ht
  | failed e u =>
    obtain ⟨during, -⟩ := hspec
    exact fun t ht => during.responses ▸ respond_answersOnce (during.resetAfter hr) (.transport hbus e) t ht
  | abandoned u => exact absurd hspec.1 (by simp [resetDue_of_none hr])
  | faulted f => exact fun t ht => nomatch ht
  | refused x => exact fun t ht => nomatch ht

section Command

variable {i : Instr} {s : State}

/-- A read, and what is answered with its bytes. -/
theorem tryRead_answersOnce {p : Address} {n : Nat} {go : List Byte → State → Host.Outcome State Fault Refusal}
    (hbus : ¬ i.StaysOffTheBus) (hr : s.resetAfter = none)
    (hgo : ∀ bs u, u.resetAfter = none → AnswersOnce i u (go bs u)) :
    AnswersOnce i s (tryBus (busWriteRead p n s) go) :=
  tryBus_answersOnce hbus hr (busWriteRead_spec p n s) hgo

/-- The write a command ends with. -/
theorem tryWrite_answersOnce {p : Address} {data : List Byte} (hbus : ¬ i.StaysOffTheBus)
    (hwords : i.dataWords = 0) (hr : s.resetAfter = none) :
    AnswersOnce i s (tryBus (busWrite p data s) fun _ u => respondOk [] u) :=
  tryBus_answersOnce hbus hr (busWrite_spec p data s) fun _ _ hu => respond_answersOnce hu (.ok hwords.symm)

end Command

/-- R90, R196: every command answers once, as its row says. -/
theorem exec_answersOnce (i : Instr) {s : State} (hr : s.resetAfter = none) : AnswersOnce i s (exec i s) := by
  cases i with
  | addr ch k => exact respond_answersOnce hr (.ok rfl)
  | getc ch k => exact tryRead_answersOnce nofun hr fun _ _ hu => respond_answersOnce hu (.ok rfl)
  | setc ch k v =>
    simp only [exec, execSetc]
    split
    · exact tryRead_answersOnce nofun hr fun _ _ hu => tryWrite_answersOnce nofun rfl hu
    · exact respond_answersOnce hr (.invalidInput (.setc ch k v))
  | setf ch k f =>
    refine tryRead_answersOnce nofun hr fun bs u hu => ?_
    split
    · exact respond_answersOnce hu (.ok rfl)
    · exact tryWrite_answersOnce nofun rfl hu
  | setonoff ch v w =>
    simp only [exec, execSetonoff]
    split
    · exact tryWrite_answersOnce nofun rfl hr
    · exact respond_answersOnce hr (.invalidInput (.setonoff ch v w))
  | getonoff ch => exact tryRead_answersOnce nofun hr fun _ _ hu => respond_answersOnce hu (.ok rfl)
  | rdall => exact tryRead_answersOnce nofun hr fun _ _ hu => respond_answersOnce hu (.ok rfl)
  | wrall vs =>
    simp only [exec, execWrall]
    split
    · exact tryWrite_answersOnce nofun rfl hr
    · exact respond_answersOnce hr (.invalidInput (.wrall vs))
  | plen v w => exact respond_answersOnce hr (.ok rfl)
  | plenplain v w => exact respond_answersOnce hr (.ok rfl)
  | getpulse ch => exact tryRead_answersOnce nofun hr fun _ _ hu => respond_answersOnce hu (.ok rfl)

/-- Settles O20: a command answers once (`exec_answersOnce`), and the three kinds of answer are the statement's. -/
theorem everyCommandEndsInOneResponseOfItsKinds : Obligations.EveryCommandEndsInOneResponseOfItsKinds := by
  intro i s t _ hr ht
  obtain ⟨r, hresp, hmay⟩ := exec_answersOnce i hr t ht
  refine ⟨r, hresp, ?_⟩
  cases hmay with
  | ok h => exact ⟨h, rfl⟩
  | invalidInput h => exact ⟨h.cases, rfl⟩
  | transport h e =>
    refine ⟨?_, ?_, ?_, rfl⟩
    · rintro ch k rfl
      exact h (.addr ch k)
    · rintro v w rfl
      exact h (.plen v w)
    · rintro v w rfl
      exact h (.plenplain v w)

/-! ### The frame of the bulk write -/

theorem lo8_eq_ofNat (v : Word) : lo8 v = BitVec.ofNat 8 v.toNat := BitVec.eq_of_toNat_eq (by simp)

theorem hi8_eq_ofNat (v : Word) : hi8 v = BitVec.ofNat 8 (v.toNat / 256) := by
  have := v.isLt
  apply BitVec.eq_of_toNat_eq
  rw [hi8_toNat, BitVec.toNat_ofNat]
  omega

/-- R142: a WRALL of 32 words whose write is answered ok. -/
theorem wrall_ok {s : State} {vs : List Word} (hlen : vs.length = 32) (hr : s.resetAfter = none) (hok : AnswersOk 1 s)
    (hai : s.ai = true) :
    Completes (exec (.wrall vs) s) (Answered (.ok []) [.write s.config.chBase (wordBytes vs)]
      (storeBytes s.config s.bank s.config.chBase (wordBytes vs)) s.slotDraws s) := by
  rw [exec, execWrall, if_pos hlen]
  exact tryWrite_ok hr (by rw [wordBytes_length, hlen]; exact reaches_bulk _) (.inr hai) hok

/-- R73: the frame of a write at `p` is the pointer and then the words, each low byte first. -/
theorem wireFrame_wordBytes_get (p : Address) {vs : List Word} {i : Nat} {v : Word} (h : vs[i]? = some v) :
    (wireFrame (.write p (wordBytes vs)))[1 + 2 * i]? = some (lo8 v) ∧
      (wireFrame (.write p (wordBytes vs)))[2 + 2 * i]? = some (hi8 v) := by
  obtain ⟨hlo, hhi⟩ := wordBytes_get vs i
  rw [h] at hlo hhi
  rw [Nat.add_comm 1, Nat.add_comm 2]
  exact ⟨hlo, hhi⟩

/-- Settles O37: the one write of WRALL (`wrall_ok`) and its frame, byte by byte (`wireFrame_wordBytes_get`). -/
theorem bulkWriteFrameIsPointerAndLittleEndianPayload :
    Obligations.BulkWriteFrameIsPointerAndLittleEndianPayload := by
  rintro s vs hlen ⟨-, hr, hok⟩ hai
  obtain ⟨t, ht, answered⟩ := wrall_ok hlen hr hok hai
  refine ⟨t, ht, _, answered.trace, by simp [wireFrame, hlen], rfl, fun i v hv => ?_⟩
  rw [← lo8_eq_ofNat, ← hi8_eq_ofNat]
  exact wireFrame_wordBytes_get _ hv

end Machine

end Sys2Proof
end

section
/-! PROOFS. The address mapper: what ADDR answers (O26), and where two registers' byte pairs stand to one another
(O27). -/

namespace Sys2Proof.Machine

theorem kindIndex_injective : Function.Injective kindIndex := by
  intro k k'
  cases k <;> cases k' <;> decide

/-- The `2*K` of R101 and R102: OFF stands two bytes above ON. -/
theorem two_mul_kindIndex (k : Kind) : 2 * kindIndex k = if k = .off then 2 else 0 := by cases k <;> rfl

/-- Settles O26: ADDR answers alone, whatever the bus does, and its word is the mapped address without wrap (R101,
R102). -/
theorem addrAnswersTheMappedAddress : Obligations.AddrAnswersTheMappedAddress := by
  intro s ch k hch hc hr
  refine ⟨_, rfl, addressWord (addrOf s.config ch k), answeredAlone_respond hr _, ?_, ?_⟩
  · rintro n rfl
    have hn : n < 16 := by simpa [Channel.wf] using hch
    rw [addressWord_toNat, addrOf_one_toNat hc hn, two_mul_kindIndex]
  · rintro rfl
    rw [addressWord_toNat, addrOf_all_toNat hc, two_mul_kindIndex]

section Mapped

variable {c : Config} {ch ch' : Channel} {k k' : Kind}

/-- R105 (c): two registers of one window are two bytes apart or more, and the two windows do not meet (R7). -/
theorem addrOf_pairs_disjoint (hc : c.wf) (h : ch.wf = true) (h' : ch'.wf = true) (hne : (ch, k) ≠ (ch', k')) :
    (addrOf c ch k).toNat + 1 < (addrOf c ch' k').toNat ∨ (addrOf c ch' k').toNat + 1 < (addrOf c ch k).toNat := by
  have hp := addrOf_pointsAt hc h k
  have hp' := addrOf_pointsAt hc h' k'
  obtain ⟨-, -, hwindows⟩ := hc
  have hk := kindIndex_le k
  have hk' := kindIndex_le k'
  cases ch with
  | one n =>
    have hn : n < 16 := by simpa [Channel.wf] using h
    cases ch' with
    | one n' =>
      have hslot : n ≠ n' ∨ kindIndex k ≠ kindIndex k' := by
        by_contra! heq
        obtain ⟨rfl, hidx⟩ := heq
        exact hne (by rw [kindIndex_injective hidx])
      simp only [PointsAt] at hp hp'
      omega
    | all =>
      simp only [PointsAt] at hp hp'
      omega
  | all =>
    cases ch' with
    | one n' =>
      have hn' : n' < 16 := by simpa [Channel.wf] using h'
      simp only [PointsAt] at hp hp'
      omega
    | all =>
      have hkind : kindIndex k ≠ kindIndex k' := fun hidx => hne (by rw [kindIndex_injective hidx])
      simp only [PointsAt] at hp hp'
      omega

/-- R105 (d): of a channel and of All. -/
theorem addrOf_off_toNat (hc : c.wf) (h : ch.wf = true) :
    (addrOf c ch .off).toNat = (addrOf c ch .on).toNat + 2 := by
  cases ch with
  | one n =>
    have hn : n < 16 := by simpa [Channel.wf] using h
    rw [addrOf_one_toNat hc hn, addrOf_one_toNat hc hn]
    rfl
  | all =>
    rw [addrOf_all_toNat hc, addrOf_all_toNat hc]
    rfl

/-- R105 (e), for either kind. -/
theorem addrOf_succ_toNat (hc : c.wf) {n : Nat} (hn : n < 15) :
    (addrOf c (.one (n + 1)) k).toNat = (addrOf c (.one n) k).toNat + 4 := by
  rw [addrOf_one_toNat hc (by omega), addrOf_one_toNat hc (by omega)]
  omega

/-- A mapped address is even where both bases are. -/
theorem addrOf_even (hc : c.wf) (h : ch.wf = true) (hch : c.chBase.toNat % 2 = 0) (hall : c.allBase.toNat % 2 = 0) :
    (addrOf c ch k).toNat % 2 = 0 := by
  cases ch with
  | one n =>
    have hn : n < 16 := by simpa [Channel.wf] using h
    rw [addrOf_one_toNat hc hn]
    omega
  | all =>
    rw [addrOf_all_toNat hc]
    omega

end Mapped

/-- Settles O27: R105 (c) to (f), one lemma each; the default bases are even. -/
theorem mappedRegisterPairsAreDisjoint : Obligations.MappedRegisterPairsAreDisjoint :=
  ⟨fun _ _ _ _ _ hc h h' hne => addrOf_pairs_disjoint hc h h' hne,
    fun _ _ hc h => addrOf_off_toNat hc h,
    fun _ _ hc hn => addrOf_succ_toNat hc hn,
    fun _ _ h => addrOf_even default_config_wf h (by decide) (by decide)⟩

end Sys2Proof.Machine
end

section
/-! PROOFS. The bytes of the bank a writing command can touch, however it ends (O22). -/

namespace Sys2Proof.Machine

/-! ### The bytes a write touches -/

section Stored

variable {s t : State} {ch : Channel} {k : Kind} {p : Address} {data : List Byte}

/-- R47, R66: a write of at most two bytes at a register touches only that register's pair. -/
theorem onlyPair_of_stored (hc : s.config.wf) (hcfg : t.config = s.config) (h : ch.wf = true) (hl : data.length ≤ 2)
    (hb : t.bank = storeBytes s.config s.bank (addrOf s.config ch k) data) : OnlyPair ch k s t := by
  intro x hx
  have hk := kindIndex_le k
  refine byteAt_other hc hcfg h (addrOf_pointsAt hc h k) (by omega) hb fun n hn r hlo hhi hxr => ?_
  obtain ⟨hlow, hhigh⟩ := addrOf_offset hc (mem_channelsOf_lt h hn) k
  obtain ⟨hxlow, hxhigh⟩ := hx n hn
  obtain rfl | rfl : r = 2 * kindIndex k ∨ r = 2 * kindIndex k + 1 := by omega
  · exact hxlow (BitVec.eq_of_toNat_eq (hxr.trans hlow.symm))
  · exact hxhigh (BitVec.eq_of_toNat_eq (hxr.trans hhigh.symm))

/-- R47, R66: a write of at most one byte at a high byte touches only that byte. -/
theorem onlyHighByte_of_stored (hc : s.config.wf) (hcfg : t.config = s.config) (h : ch.wf = true)
    (hl : data.length ≤ 1) (hb : t.bank = storeBytes s.config s.bank (highAddrOf s.config ch k) data) :
    OnlyHighByte ch k s t := by
  intro x hx
  have hk := kindIndex_le k
  refine byteAt_other hc hcfg h (highAddrOf_pointsAt hc h k) (by omega) hb fun n hn r hlo hhi hxr => ?_
  obtain ⟨-, hhigh⟩ := addrOf_offset hc (mem_channelsOf_lt h hn) k
  obtain rfl : r = 2 * kindIndex k + 1 := by omega
  exact hx n hn (BitVec.eq_of_toNat_eq (hxr.trans hhigh.symm))

theorem exists_kindIndex_eq {i : Nat} (hi : i < 2) : ∃ k, kindIndex k = i := by
  obtain rfl | rfl : i = 0 ∨ i = 1 := by omega
  · exact ⟨.on, rfl⟩
  · exact ⟨.off, rfl⟩

/-- R47, R66: a write of at most four bytes at a channel touches only that channel. -/
theorem onlyChannel_of_stored (hc : s.config.wf) (hcfg : t.config = s.config) (h : ch.wf = true)
    (hl : data.length ≤ 4) (hb : t.bank = storeBytes s.config s.bank (addrOf s.config ch .on) data) :
    OnlyChannel ch s t := by
  intro x hx
  have hp : PointsAt s.config ch 0 (addrOf s.config ch .on) := addrOf_pointsAt hc h .on
  refine byteAt_other hc hcfg h hp (by omega) hb fun n hn r hlo hhi hxr => ?_
  obtain ⟨k, hk⟩ := exists_kindIndex_eq (i := r / 2) (by omega)
  obtain ⟨hlow, hhigh⟩ := addrOf_offset hc (mem_channelsOf_lt h hn) k
  obtain ⟨hxlow, hxhigh⟩ := hx n hn k
  obtain hr | hr : r = 2 * kindIndex k ∨ r = 2 * kindIndex k + 1 := by omega
  · exact hxlow (BitVec.eq_of_toNat_eq (hxr.trans (hr ▸ hlow.symm)))
  · exact hxhigh (BitVec.eq_of_toNat_eq (hxr.trans (hr ▸ hhigh.symm)))

/-- A write stores nothing outside the channel window (R47). -/
theorem storedAt_outside {c : Config} {x : Address}
    (hx : x.toNat < c.chBase.toNat ∨ c.chBase.toNat + 64 ≤ x.toNat) : storedAt c p data x = none := by
  unfold storedAt
  cases hw : windowOf c x with
  | channel o =>
    have := windowOf_channel.1 hw
    omega
  | broadcast j => cases windowOf c p <;> rfl
  | outside => cases windowOf c p <;> rfl

theorem onlyWindow_of_stored (hc : s.config.wf) (hcfg : t.config = s.config)
    (hr : reaches s.config p data.length = true) (hb : t.bank = storeBytes s.config s.bank p data) :
    OnlyWindow s t := by
  intro x hx
  rw [byteAt_stored hc hcfg hb hr x, storedAt_outside hx]

end Stored

/-! ### What a writing command stores -/

/-- The outcome, if it is a state, has the bank of `s` with at most `n` bytes stored from `p` on. -/
def Stores (p : Address) (n : Nat) (s : State) (o : Host.Outcome State Fault Refusal) : Prop :=
  ∀ t, o = .next t → ∃ data, data.length ≤ n ∧ t.bank = storeBytes s.config s.bank p data

theorem stores_of_bank_eq {p : Address} {n : Nat} {s u : State} (h : u.bank = s.bank) : Stores p n s (.next u) := by
  rintro _ ⟨⟩
  exact ⟨[], Nat.zero_le n, h⟩

@[simp] theorem respond_bank (r : Response) (s : State) : (respond r s).bank = s.bank := by
  unfold respond
  split <;> rfl

theorem respond_stores {p : Address} {n : Nat} (r : Response) {s u : State} (h : u.bank = s.bank) :
    Stores p n s (.next (respond r u)) := stores_of_bank_eq (by simp [h])

/-- R43: a read stores nothing, so what a command stores it stores after its reads. -/
theorem tryRead_stores {p q : Address} {n m : Nat} {s : State}
    {go : List Byte → State → Host.Outcome State Fault Refusal}
    (hgo : ∀ bs u, u.config = s.config → Stores p n u (go bs u)) :
    Stores p n s (tryBus (busWriteRead q m s) go) := by
  have hspec := busWriteRead_spec q m s
  have hbank := busWriteRead_bank q m s
  generalize busWriteRead q m s = r at hspec hbank ⊢
  cases r with
  | done bs u =>
    obtain ⟨during, -⟩ := hspec
    have hu : u.bank = s.bank := hbank
    rw [tryBus_done, Stores, ← hu, ← during.config]
    exact hgo bs u during.config
  | failed e u => exact respond_stores _ hbank
  | abandoned u => exact stores_of_bank_eq hbank
  | faulted f => exact fun t ht => nomatch ht
  | refused x => exact fun t ht => nomatch ht

/-- R42, R51: the write a command ends with stores its data, the first bytes of it, or nothing. -/
theorem tryWrite_stores {p : Address} {n : Nat} {data : List Byte} {s : State} (hl : data.length ≤ n) :
    Stores p n s (tryBus (busWrite p data s) fun _ u => respondOk [] u) := by
  have hcfg : (takeAnswer (issue (.write p data) s)).2.config = s.config := takeAnswer_config _
  have hbank : (takeAnswer (issue (.write p data) s)).2.bank = s.bank := takeAnswer_bank _
  unfold busWrite checked
  split_ifs
  · exact stores_of_bank_eq rfl
  · exact fun t ht => nomatch ht
  · exact fun t ht => nomatch ht
  · generalize takeAnswer (issue (.write p data) s) = r at hcfg hbank ⊢
    obtain ⟨_ | ⟨e, m⟩, u⟩ := r
    · rintro _ ⟨⟩
      exact ⟨data, hl, by rw [respond_bank, ← hcfg, ← hbank]; rfl⟩
    · rintro _ ⟨⟩
      exact ⟨data.take m, (List.length_take_le' m data).trans hl, by rw [respond_bank, ← hcfg, ← hbank]⟩

theorem setc_stores (ch : Channel) (k : Kind) (v : Word) (s : State) :
    Stores (addrOf s.config ch k) 2 s (exec (.setc ch k v) s) := by
  simp only [exec, execSetc]
  split
  · exact tryRead_stores fun bs u hu => hu ▸ tryWrite_stores (by simp)
  · exact respond_stores _ rfl

theorem setf_stores (ch : Channel) (k : Kind) (f : Bool) (s : State) :
    Stores (highAddrOf s.config ch k) 1 s (exec (.setf ch k f) s) := by
  refine tryRead_stores fun bs u hu => ?_
  split
  · exact respond_stores _ rfl
  · exact hu ▸ tryWrite_stores (by simp)

theorem setonoff_stores (ch : Channel) (v w : Word) (s : State) :
    Stores (addrOf s.config ch .on) 4 s (exec (.setonoff ch v w) s) := by
  simp only [exec, execSetonoff]
  split
  · exact tryWrite_stores (by simp)
  · exact respond_stores _ rfl

theorem wrall_stores (vs : List Word) (s : State) : Stores s.config.chBase 64 s (exec (.wrall vs) s) := by
  simp only [exec, execWrall]
  split
  next hlen => exact tryWrite_stores (by simp [hlen, ndr])
  next => exact respond_stores _ rfl

theorem exec_frame {i : Instr} {s t : State} (hi : i.wf = true) (ht : exec i s = .next t) : Frame s t := by
  have hends := exec_ends i s hi
  rw [ht] at hends
  exact ⟨hends.config, hends.ai, hends.inbox, hends.phase, hends.resetAfter⟩

/-- Settles O22: each command stores at most so many bytes from one address on (`Stores`), and such a write touches only
the bytes named. -/
theorem writingCommandsChangeOnlyTheirOwnBytes : Obligations.WritingCommandsChangeOnlyTheirOwnBytes := by
  intro s t ch k v w f vs hc h
  refine ⟨fun ht => ?_, fun ht => ?_, fun ht => ?_, fun ht => ?_⟩
  · have hframe := exec_frame (i := .setc ch k v) h ht
    obtain ⟨data, hl, hb⟩ := setc_stores ch k v s t ht
    exact ⟨onlyPair_of_stored hc hframe.1 h hl hb, hframe⟩
  · have hframe := exec_frame (i := .setf ch k f) h ht
    obtain ⟨data, hl, hb⟩ := setf_stores ch k f s t ht
    exact ⟨onlyHighByte_of_stored hc hframe.1 h hl hb, hframe⟩
  · have hframe := exec_frame (i := .setonoff ch v w) h ht
    obtain ⟨data, hl, hb⟩ := setonoff_stores ch v w s t ht
    exact ⟨onlyChannel_of_stored hc hframe.1 h hl hb, hframe⟩
  · have hframe := exec_frame (i := .wrall vs) rfl ht
    obtain ⟨data, hl, hb⟩ := wrall_stores vs s t ht
    exact ⟨onlyWindow_of_stored hc hframe.1 (reaches_mono hl (reaches_bulk _)) hb, hframe⟩

end Sys2Proof.Machine
end

section
/-! PROOFS. The codec's reads: GETC (O28) and GETONOFF (O33). -/

namespace Sys2Proof.Machine

/-- What a read of `n` bytes at an address `p` of `ch` returns, and the bytes it leaves to draw: the bank's bytes and all
of them, or of All the first draws and the rest (R48). -/
structure BytesRead (ch : Channel) (p : Address) (n : Nat) (s : State) (bs left : List Byte) : Prop where
  one : ∀ m, ch = .one m → bs = ((List.range n).map fun i => s.byteAt (p + BitVec.ofNat 8 i)) ∧ left = s.slotDraws
  all : ch = .all → n ≤ s.slotDraws.length → bs = s.slotDraws.take n ∧ left = s.slotDraws.drop n

/-- R112, R117: a command of one read whose read is answered ok. -/
theorem tryRead_ok {s : State} {ch : Channel} {b n : Nat} {p : Address} (hc : s.config.wf) (h : ch.wf = true)
    (hp : PointsAt s.config ch b p) (hn : b + n ≤ 4) (hr : s.resetAfter = none) (hai : s.ai = true)
    (hok : AnswersOk 1 s) (f : List Byte → List Word) :
    ∃ bs left, BytesRead ch p n s bs left ∧
      Completes (tryBus (busWriteRead p n s) fun bs u => respondOk (f bs) u)
        (Answered (.ok (f bs)) [.writeRead p n] s.bank left s) := by
  obtain ⟨bs, u, hdone, -, hread, hone, hall⟩ := busWriteRead_channel hc h hp hn (resetDue_of_none hr) (.inr hai) hok
  refine ⟨bs, u.slotDraws, ⟨hone, hall⟩, ?_⟩
  rw [hdone, tryBus_done]
  exact ⟨_, rfl, hread.answered hr _⟩

theorem Answered.config {r : Response} {new : List Transaction} {m : Memory} {ds : List Byte} {s t : State}
    (h : Answered r new m ds s t) : t.config = s.config := h.frame.1

theorem Answered.answers_tail {r : Response} {x : Transaction} {m : Memory} {ds : List Byte} {s t : State}
    (h : Answered r [x] m ds s t) : t.answers = s.answers.tail := by simpa using h.answers

/-- R101, R102: the OFF register stands two bytes above the ON register. -/
theorem addrOf_off (c : Config) (ch : Channel) : addrOf c ch .off = addrOf c ch .on + 2 := by
  cases ch with
  | one n => simp [addrOf, kindIndex, BitVec.ofNat_add, BitVec.add_assoc]
  | all => simp [addrOf, kindIndex]

/-- R65: two bytes read at a register of the bank are the register. -/
theorem BytesRead.word_eq_reg {m : Nat} {k : Kind} {s : State} {bs left : List Byte}
    (h : BytesRead (.one m) (addrOf s.config (.one m) k) 2 s bs left) : wordAt bs 0 = s.reg m k := by
  obtain ⟨rfl, -⟩ := h.one m rfl
  simp [wordAt, State.reg, highAddrOf, List.range_succ]

/-- R65: four bytes read at a channel of the bank are its two registers. -/
theorem BytesRead.words_eq_regs {m : Nat} {s : State} {bs left : List Byte}
    (h : BytesRead (.one m) (addrOf s.config (.one m) .on) 4 s bs left) :
    wordAt bs 0 = s.reg m .on ∧ wordAt bs 1 = s.reg m .off := by
  obtain ⟨rfl, -⟩ := h.one m rfl
  simp [wordAt, State.reg, highAddrOf, addrOf_off, List.range_succ, BitVec.add_assoc]

/-- Settles O28: the word of the two bytes read is the register, or the two draws, and GETC answers its counter. -/
theorem getcAnswersTheCounter : Obligations.GetcAnswersTheCounter := by
  intro s ch k h hc hr hai
  refine ⟨fun hok => ?_, fun e m as hf => tryRead_fail hr (reaches_pair hc h k) (.inr hai) hf _⟩
  have hk := kindIndex_le k
  obtain ⟨bs, left, hread, t, ht, answered⟩ := tryRead_ok hc h (addrOf_pointsAt hc h k) (n := 2) (by omega) hr hai hok
    fun bs => [counterWord (counter (wordAt bs 0))]
  refine ⟨t, ht, wordAt bs 0, _, answered.responses, by simp, ?_, ?_, answered.answers_tail, answered.trace,
    answered.bank, answered.frame⟩
  · rintro n rfl
    exact ⟨hread.word_eq_reg, answered.slotDraws.trans (hread.one n rfl).2⟩
  · rintro rfl d0 d1 ds hds
    obtain ⟨rfl, rfl⟩ := hread.all rfl (by simp [hds])
    exact ⟨by simp [hds, wordAt], by simp [answered.slotDraws, hds]⟩

/-- Settles O33: the words of the four bytes read are both registers, or the four draws, and GETONOFF answers them. -/
theorem getonoffAnswersBothRegistersRaw : Obligations.GetonoffAnswersBothRegistersRaw := by
  intro s ch h hc hr hai
  refine ⟨fun hok => ?_, fun e m as hf => tryRead_fail hr (reaches_channel hc h) (.inr hai) hf _⟩
  have hp : PointsAt s.config ch 0 (addrOf s.config ch .on) := addrOf_pointsAt hc h .on
  obtain ⟨bs, left, hread, t, ht, answered⟩ := tryRead_ok hc h hp (n := 4) (by omega) hr hai hok
    fun bs => [wordAt bs 0, wordAt bs 1]
  refine ⟨t, ht, wordAt bs 0, wordAt bs 1, answered.responses, ?_, ?_, answered.answers_tail, answered.trace,
    answered.bank, answered.frame⟩
  · rintro n rfl
    obtain ⟨hon, hoff⟩ := hread.words_eq_regs
    exact ⟨hon, hoff, answered.slotDraws.trans (hread.one n rfl).2⟩
  · rintro rfl d0 d1 d2 d3 ds hds
    obtain ⟨rfl, rfl⟩ := hread.all rfl (by simp [hds])
    exact ⟨by simp [hds, wordAt], by simp [hds, wordAt], by simp [answered.slotDraws, hds]⟩

end Sys2Proof.Machine
end

section
/-! PROOFS. SETC: what it leaves when nothing fails (O29) and when its read or its write fails (O30). -/

namespace Sys2Proof.Machine

/-- A register as a number, from its two bytes, in a state with the parameters of `s`. -/
theorem reg_toNat_of_config {s t : State} (hcfg : t.config = s.config) (n : Nat) (k : Kind) :
    (t.reg n k).toNat =
      (t.byteAt (addrOf s.config (.one n) k)).toNat + 256 * (t.byteAt (highAddrOf s.config (.one n) k)).toNat := by
  rw [reg_toNat, hcfg]

theorem highByte_toNat (s : State) (n : Nat) (k : Kind) :
    (s.byteAt (highAddrOf s.config (.one n) k)).toNat = (s.reg n k).toNat / 256 := by
  have hlow := (s.byteAt (addrOf s.config (.one n) k)).isLt
  rw [reg_toNat]
  omega

theorem HighByteRead.toNat_of_one {ch : Channel} {k : Kind} {s : State} {b : Byte} {left : List Byte}
    (h : HighByteRead ch k s b left) (n : Nat) (hn : ch = .one n) :
    b.toNat = (s.reg n k).toNat / 256 ∧ left = s.slotDraws := by
  obtain ⟨rfl, hleft⟩ := h.one n hn
  exact ⟨highByte_toNat s n k, hleft⟩

/-- R113, R114: the data bytes of SETC's write: the value's low byte, and its high nibble under the upper half of the
byte read. -/
theorem wordBytes_merge (b : Byte) {v : Word} (hv : v.toNat ≤ 4095) :
    wordBytes [merge b v] = [BitVec.ofNat 8 v.toNat, BitVec.ofNat 8 (b.toNat / 16 * 16 + v.toNat / 256)] := by
  have hm := merge_toNat b hv
  have hlow : lo8 (merge b v) = BitVec.ofNat 8 v.toNat :=
    BitVec.eq_of_toNat_eq (by rw [lo8_toNat, BitVec.toNat_ofNat]; omega)
  have hhigh : hi8 (merge b v) = BitVec.ofNat 8 (b.toNat / 16 * 16 + v.toNat / 256) := by
    rw [hi8_eq_ofNat]
    congr 1
    omega
  rw [wordBytes_cons, hlow, hhigh]
  rfl

section Merged

variable {s t : State} {ch : Channel} {k : Kind} {v : Word} {b : Byte} {n : Nat}

/-- R46, R114: a register SETC has written: the value, the flag of the byte read, its reserved bits where the bank stores
them. -/
theorem reg_of_merge_stored (hc : s.config.wf) (hcfg : t.config = s.config) (h : ch.wf = true) (hv : v.toNat ≤ 4095)
    (hb : t.bank = storeBytes s.config s.bank (addrOf s.config ch k) (wordBytes [merge b v])) (hn : n ∈ channelsOf ch) :
    (t.reg n k).toNat % 4096 = v.toNat ∧ (t.reg n k).toNat / 4096 % 2 = b.toNat / 16 % 2 ∧
      (t.reg n k).toNat / 8192 = if s.config.rsvdStored then b.toNat / 32 else 0 := by
  obtain ⟨hlow, hhigh⟩ := byteAt_pair hc hcfg h (by simp) hb hn
  have hlow' : t.byteAt (addrOf s.config (.one n) k) = lo8 (merge b v) := hlow
  have hhigh' : t.byteAt (highAddrOf s.config (.one n) k) = keep s.config 1 (hi8 (merge b v)) := hhigh
  have hbyte := b.isLt
  rw [reg_toNat_of_config hcfg, hlow', hhigh', keep_high_toNat _ rfl, lo8_toNat, hi8_toNat, merge_toNat b hv]
  split <;> omega

/-- R51: the pair after the first `m` bytes of SETC's write. -/
theorem pair_of_merge_take (hc : s.config.wf) (hcfg : t.config = s.config) (h : ch.wf = true) (hv : v.toNat ≤ 4095)
    {m : Nat}
    (hb : t.bank = storeBytes s.config s.bank (addrOf s.config ch k) ((wordBytes [merge b v]).take m))
    (hn : n ∈ channelsOf ch) :
    t.byteAt (addrOf s.config (.one n) k) =
        (if m = 0 then s.byteAt (addrOf s.config (.one n) k) else BitVec.ofNat 8 v.toNat) ∧
      (m ≤ 1 → t.byteAt (highAddrOf s.config (.one n) k) = s.byteAt (highAddrOf s.config (.one n) k)) := by
  obtain ⟨hlow, hhigh⟩ := byteAt_pair hc hcfg h ((List.length_take_le' ..).trans (by simp)) hb hn
  rw [hlow, hhigh, wordBytes_merge b hv]
  match m with
  | 0 => exact ⟨rfl, fun _ => rfl⟩
  | 1 => exact ⟨rfl, fun _ => rfl⟩
  | m + 2 => exact ⟨rfl, by omega⟩

end Merged

/-- Settles O29: SETC's two transactions succeed (`setc_ok`), and the pair it stores is the merged word. -/
theorem setcSetsTheCounterAndKeepsTheFlag : Obligations.SetcSetsTheCounterAndKeepsTheFlag := by
  rintro s ch k v h ⟨hc, hr, hok⟩ hai hv
  obtain ⟨b, left, hread, t, ht, answered⟩ := setc_ok (k := k) h hc hr hok hai hv
  have hcfg := answered.config
  rw [← answered.slotDraws] at hread
  refine ⟨t, ht, b, hread.toNat_of_one, hread.all, fun n hn => reg_of_merge_stored hc hcfg h hv answered.bank hn, ?_,
    answered.answers, answered.responses, onlyPair_of_stored hc hcfg h (by simp) answered.bank, answered.frame⟩
  rw [← wordBytes_merge b hv]
  exact answered.trace

/-- Settles O30: a failed read ends SETC (`tryRead_fail`); a failed write leaves the first bytes of the merged word
(`setc_writeFails`). -/
theorem setcThatFailsLeavesAPrefixOfItsWrite : Obligations.SetcThatFailsLeavesAPrefixOfItsWrite := by
  intro s ch k v h hc hr hai hv
  refine ⟨fun e m as hf => ?_, fun e m as hf => ?_⟩
  · rw [exec, execSetc, if_pos ((counterInRange_iff v).2 hv)]
    exact tryRead_fail hr (reaches_high hc h k) (.inr hai) hf _
  · obtain ⟨b, left, hread, t, ht, answered⟩ := setc_writeFails (k := k) h hc hr hf hai hv
    have hcfg := answered.config
    rw [← answered.slotDraws] at hread
    have hlen : ((wordBytes [merge b v]).take m).length ≤ 2 := (List.length_take_le' ..).trans (by simp)
    refine ⟨t, ht, b, hread.toNat_of_one, hread.all, answered.responses, fun n hn => ?_, ?_, ?_,
      onlyPair_of_stored hc hcfg h hlen answered.bank, answered.frame⟩
    · obtain ⟨hlow, hhigh⟩ := pair_of_merge_take hc hcfg h hv answered.bank hn
      refine ⟨hlow, hhigh, fun hm => reg_of_merge_stored hc hcfg h hv ?_ hn⟩
      rw [answered.bank, List.take_of_length_le (by simpa using hm)]
    · rw [← wordBytes_merge b hv]
      exact answered.trace
    · simpa [hf] using answered.answers

end Sys2Proof.Machine
end

section
/-! PROOFS. SETF: the flag written only if it differs, and how it fails (O31). -/

namespace Sys2Proof.Machine

theorem highFlag_eq_iff (b : Byte) (f : Bool) : highFlag b = f ↔ b.toNat / 16 % 2 = if f then 1 else 0 := by
  have hset := highFlag_iff b
  cases f with
  | true => exact hset
  | false =>
    rw [Bool.eq_false_iff, Ne, hset]
    simp

/-- R115: the byte SETF writes, where the flag it read is not the one asked for. -/
theorem withHighFlag_of_ne {b : Byte} {f : Bool} (hne : b.toNat / 16 % 2 ≠ if f then 1 else 0) :
    withHighFlag b f = BitVec.ofNat 8 (if f then b.toNat + 16 else b.toNat - 16) := by
  have hbyte := b.isLt
  apply BitVec.eq_of_toNat_eq
  rw [withHighFlag_toNat, BitVec.toNat_ofNat]
  split_ifs at hne ⊢ <;> omega

section Setf

variable {s t : State} {ch : Channel} {k : Kind} {f : Bool} {b : Byte}

/-- R46, R115: a register whose high byte SETF has written: the flag asked for, the counter nibble and the stored reserved
bits of the byte read, its own low byte. -/
theorem reg_of_flag_stored (hc : s.config.wf) (hcfg : t.config = s.config) (h : ch.wf = true)
    (hb : t.bank = storeBytes s.config s.bank (highAddrOf s.config ch k) [withHighFlag b f]) {n : Nat}
    (hn : n ∈ channelsOf ch) :
    (t.reg n k).toNat / 256 % 32 = b.toNat % 16 + (if f then 16 else 0) ∧
      (t.reg n k).toNat / 8192 = (if s.config.rsvdStored then b.toNat / 32 else 0) ∧
      (t.reg n k).toNat % 256 = (s.reg n k).toNat % 256 := by
  obtain ⟨hlow, hhigh⟩ := byteAt_highByte hc hcfg h (by simp) hb hn
  have hhigh' : t.byteAt (highAddrOf s.config (.one n) k) = keep s.config 1 (withHighFlag b f) := hhigh
  have hbyte := b.isLt
  have hlt := (s.byteAt (addrOf s.config (.one n) k)).isLt
  rw [reg_toNat_of_config hcfg, reg_toNat s, hlow, hhigh', keep_high_toNat _ rfl, withHighFlag_toNat]
  split_ifs <;> omega

theorem onlyHighByte_of_bank_eq (hcfg : t.config = s.config) (hb : t.bank = s.bank) : OnlyHighByte ch k s t :=
  fun x _ => by rw [State.byteAt, hcfg, hb]; rfl

/-- What SETF leaves once its read has returned `b`: with the flag as asked for, nothing changed; otherwise the response
`r`, after a write that stored the first `m` bytes of its data. -/
structure SetfEnded (ch : Channel) (k : Kind) (f : Bool) (r : Response) (m : Nat) (b : Byte) (s t : State) : Prop where
  read    : HighByteRead ch k s b t.slotDraws
  same    : (b.toNat / 16 % 2 = if f then 1 else 0) → t.bank = s.bank ∧ t.responses = s.responses ++ [.ok []] ∧
    t.trace = s.trace ++ [.writeRead (highAddrOf s.config ch k) 1] ∧ t.answers = s.answers.tail
  differs : (b.toNat / 16 % 2 ≠ if f then 1 else 0) → t.responses = s.responses ++ [r] ∧
    t.bank = storeBytes s.config s.bank (highAddrOf s.config ch k) ([withHighFlag b f].take m) ∧
    t.trace = s.trace ++ [.writeRead (highAddrOf s.config ch k) 1, .write (highAddrOf s.config ch k)
      [BitVec.ofNat 8 (if f then b.toNat + 16 else b.toNat - 16)]] ∧
    t.answers = s.answers.drop 2
  only    : OnlyHighByte ch k s t
  frame   : Frame s t

/-- R115: SETF ends by the flag it read, given how its write ends. -/
theorem setf_ends {u : State} {r : Response} {m : Nat} (h : ch.wf = true) (hc : s.config.wf) (hr : s.resetAfter = none)
    (hdone : busWriteRead (highAddrOf s.config ch k) 1 s = .done [b] u) (hread : HighByteRead ch k s b u.slotDraws)
    (hafter : AfterRead (highAddrOf s.config ch k) 1 s u)
    (hwrite : highFlag b ≠ f → Completes (exec (.setf ch k f) s) (Answered r
      [.writeRead (highAddrOf s.config ch k) 1, .write (highAddrOf s.config ch k) [withHighFlag b f]]
      (storeBytes s.config s.bank (highAddrOf s.config ch k) ([withHighFlag b f].take m)) u.slotDraws s)) :
    Completes (exec (.setf ch k f) s) (SetfEnded ch k f r m b s) := by
  by_cases hflag : highFlag b = f
  · obtain ⟨t, ht, answered⟩ := setf_same hdone hafter hr hflag
    rw [highFlag_eq_iff] at hflag
    exact ⟨t, ht, answered.slotDraws ▸ hread,
      fun _ => ⟨answered.bank, answered.responses, answered.trace, answered.answers_tail⟩,
      fun hne => absurd hflag hne, onlyHighByte_of_bank_eq answered.config answered.bank, answered.frame⟩
  · obtain ⟨t, ht, answered⟩ := hwrite hflag
    rw [highFlag_eq_iff] at hflag
    refine ⟨t, ht, answered.slotDraws ▸ hread, fun heq => absurd heq hflag, fun _ => ⟨answered.responses, answered.bank,
      withHighFlag_of_ne hflag ▸ answered.trace, answered.answers⟩, ?_, answered.frame⟩
    exact onlyHighByte_of_stored hc answered.config h (List.length_take_le' m _) answered.bank

theorem setf_ok (h : ch.wf = true) (hc : s.config.wf) (hr : s.resetAfter = none) (hok : AnswersOk 2 s) :
    ∃ b, Completes (exec (.setf ch k f) s) (SetfEnded ch k f (.ok []) 1 b s) := by
  obtain ⟨b, u, hdone, hread, hafter⟩ := readHigh_ok hc h k hr (answersOk_mono (by omega) hok)
  exact ⟨b, setf_ends h hc hr hdone hread hafter (setf_differs h hc hdone hafter hr hok)⟩

theorem setf_secondFails {e : ErrorCode} {m : Nat} {as : List BusAnswer} (h : ch.wf = true) (hc : s.config.wf)
    (hr : s.resetAfter = none) (hf : s.answers = .ok :: .fail e m :: as) :
    ∃ b, Completes (exec (.setf ch k f) s) (SetfEnded ch k f (.transport e) m b s) := by
  obtain ⟨b, u, hdone, hread, hafter⟩ := readHigh_ok hc h k hr (answersOk_of_ok_cons hf)
  exact ⟨b, setf_ends h hc hr hdone hread hafter (setf_writeFails h hc hdone hafter hr hf)⟩

end Setf

/-- Settles O31: SETF ends by the flag it read (`SetfEnded`), its whole data stored where the write is answered ok and
the first bytes of it where it fails; a failed read ends it at once. -/
theorem setfWritesTheFlagOnlyIfItDiffers : Obligations.SetfWritesTheFlagOnlyIfItDiffers := by
  intro s ch k f h hc hr
  refine ⟨fun hok => ?_, fun e m as hf => tryRead_fail hr (reaches_high hc h k) (.inl (Nat.le_refl 1)) hf _,
    fun e m as hf => ?_⟩
  · obtain ⟨b, t, ht, ended⟩ := setf_ok (k := k) (f := f) h hc hr hok
    refine ⟨t, ht, b, ended.read.toNat_of_one, ended.read.all, fun heq => ?_, fun hne => ?_, ?_, ended.only, ended.frame⟩
    · obtain ⟨hbank, -, htrace, hanswers⟩ := ended.same heq
      exact ⟨hbank, htrace, hanswers⟩
    · obtain ⟨-, hbank, htrace, hanswers⟩ := ended.differs hne
      exact ⟨fun n hn => reg_of_flag_stored hc ended.frame.1 h hbank hn, htrace, hanswers⟩
    · by_cases hflag : b.toNat / 16 % 2 = if f then 1 else 0
      · obtain ⟨-, hresponses, -⟩ := ended.same hflag
        exact hresponses
      · obtain ⟨hresponses, -⟩ := ended.differs hflag
        exact hresponses
  · obtain ⟨b, t, ht, ended⟩ := setf_secondFails (k := k) (f := f) h hc hr hf
    refine ⟨t, ht, b, ended.read.toNat_of_one, ended.read.all, ended.same, fun hne => ?_, ended.only, ended.frame⟩
    obtain ⟨hresponses, hbank, htrace, hanswers⟩ := ended.differs hne
    refine ⟨hresponses, ?_, fun hm n hn => ?_, htrace, by simpa [hf] using hanswers⟩
    · rintro rfl
      exact hbank
    · rw [List.take_of_length_le (by simpa using hm)] at hbank
      exact reg_of_flag_stored hc ended.frame.1 h hbank hn

end Sys2Proof.Machine
end

section
/-! PROOFS. SETONOFF: both registers overwritten by one write, and what a failed one leaves (O32). -/

namespace Sys2Proof.Machine

theorem keep_high_of_lt {c : Config} {d : Byte} (hd : d.toNat < 32) : keep c 1 d = d := by
  apply BitVec.eq_of_toNat_eq
  rw [keep_high_toNat d rfl]
  split
  · rfl
  · exact Nat.mod_eq_of_lt hd

/-- R65: the data bytes of SETONOFF's write. -/
theorem wordBytes_two (v w : Word) :
    wordBytes [v, w] = [BitVec.ofNat 8 v.toNat, BitVec.ofNat 8 (v.toNat / 256),
      BitVec.ofNat 8 w.toNat, BitVec.ofNat 8 (w.toNat / 256)] := by
  rw [← lo8_eq_ofNat, ← hi8_eq_ofNat, ← lo8_eq_ofNat, ← hi8_eq_ofNat]
  rfl

section Setonoff

variable {s t : State} {ch : Channel} {v w : Word}

/-- R51, R116: a register after the first `m` bytes of SETONOFF's write, byte by byte: `x` is the value written to it. -/
theorem reg_of_fourBytes_take (hc : s.config.wf) (hcfg : t.config = s.config) (h : ch.wf = true) {m : Nat}
    (hb : t.bank = storeBytes s.config s.bank (addrOf s.config ch .on) ((wordBytes [v, w]).take m)) {n : Nat}
    (hn : n ∈ channelsOf ch) {k : Kind} {x : Word} (hx : [v, w][kindIndex k]? = some x) (hle : x.toNat ≤ 4095) :
    (t.reg n k).toNat % 256 = (if 2 * kindIndex k + 1 ≤ m then x else s.reg n k).toNat % 256 ∧
      (t.reg n k).toNat / 256 = (if 2 * kindIndex k + 2 ≤ m then x else s.reg n k).toNat / 256 := by
  obtain ⟨hlow, hhigh⟩ := byteAt_fourBytes hc hcfg h ((List.length_take_le' ..).trans (by simp)) hb hn k
  obtain ⟨hlo, hhi⟩ := wordBytes_get [v, w] (kindIndex k)
  have hold := (s.byteAt (addrOf s.config (.one n) k)).isLt
  have hnew := (t.byteAt (addrOf s.config (.one n) k)).isLt
  have hkeep : keep s.config 1 (hi8 x) = hi8 x := keep_high_of_lt (by rw [hi8_toNat]; omega)
  rw [List.getD_eq_getElem?_getD, List.getElem?_take, hlo, hx] at hlow
  rw [List.getElem?_take, hhi, hx] at hhigh
  have hlow' : (t.byteAt (addrOf s.config (.one n) k)).toNat =
      (if 2 * kindIndex k + 1 ≤ m then x else s.reg n k).toNat % 256 := by
    rw [hlow]
    by_cases hm : 2 * kindIndex k + 1 ≤ m
    · simp [hm, Nat.lt_of_succ_le hm]
    · rw [if_neg hm, if_neg (by omega), reg_toNat, Option.getD_none]
      omega
  have hhigh' : (t.byteAt (highAddrOf s.config (.one n) k)).toNat =
      (if 2 * kindIndex k + 2 ≤ m then x else s.reg n k).toNat / 256 := by
    rw [hhigh]
    by_cases hm : 2 * kindIndex k + 2 ≤ m
    · simp [hm, Nat.lt_of_succ_le hm, hkeep]
    · rw [if_neg hm, if_neg (by omega), ← highByte_toNat]
      rfl
  rw [reg_toNat_of_config hcfg]
  omega

/-- R116: a register after the whole of SETONOFF's write. -/
theorem reg_of_fourBytes (hc : s.config.wf) (hcfg : t.config = s.config) (h : ch.wf = true)
    (hb : t.bank = storeBytes s.config s.bank (addrOf s.config ch .on) (wordBytes [v, w])) {n : Nat}
    (hn : n ∈ channelsOf ch) {k : Kind} {x : Word} (hx : [v, w][kindIndex k]? = some x) (hle : x.toNat ≤ 4095) :
    t.reg n k = x := by
  have hk := kindIndex_le k
  obtain ⟨hlow, hhigh⟩ := reg_of_fourBytes_take (m := 4) hc hcfg h hb hn hx hle
  rw [if_pos (by omega)] at hlow hhigh
  exact BitVec.eq_of_toNat_eq (by omega)

end Setonoff

/-- Settles O32: SETONOFF is its one write (`tryWrite_ok`, `tryWrite_fail`), and the registers hold what was
written of the words. -/
theorem setonoffOverwritesBothRegisters : Obligations.SetonoffOverwritesBothRegisters := by
  intro s ch v w h hc hr hai hv hw
  have hexec : exec (.setonoff ch v w) s =
      tryBus (busWrite (addrOf s.config ch .on) (wordBytes [v, w]) s) fun _ u => respondOk [] u :=
    if_pos (by simp [counterInRange_iff, hv, hw])
  have hreach : reaches s.config (addrOf s.config ch .on) (wordBytes [v, w]).length = true := reaches_channel hc h
  rw [hexec, ← wordBytes_two]
  refine ⟨fun hok => ?_, fun e m as hf => ?_⟩
  · obtain ⟨t, ht, answered⟩ := tryWrite_ok hr hreach (.inr hai) hok
    have hcfg := answered.config
    exact ⟨t, ht, fun n hn => ⟨reg_of_fourBytes hc hcfg h answered.bank hn rfl hv,
      reg_of_fourBytes hc hcfg h answered.bank hn rfl hw⟩, answered.trace, answered.answers_tail, answered.slotDraws,
      answered.responses, onlyChannel_of_stored hc hcfg h (by simp) answered.bank, answered.frame⟩
  · obtain ⟨t, ht, answered⟩ := tryWrite_fail hr hreach (.inr hai) hf
    have hcfg := answered.config
    refine ⟨t, ht, answered.responses, fun n hn => ?_, answered.trace, by simpa [hf] using answered.answers,
      answered.slotDraws, onlyChannel_of_stored hc hcfg h (List.length_take_le' m _) answered.bank, answered.frame⟩
    obtain ⟨honLow, honHigh⟩ := reg_of_fourBytes_take hc hcfg h answered.bank hn (k := .on) rfl hv
    obtain ⟨hoffLow, hoffHigh⟩ := reg_of_fourBytes_take hc hcfg h answered.bank hn (k := .off) rfl hw
    exact ⟨honLow, honHigh, hoffLow, hoffHigh⟩

end Sys2Proof.Machine
end

section
/-! PROOFS. SETC and then GETC, as two steps of the host (O34). -/

namespace Sys2Proof.Machine

/-- R9, R27: an idle block to which the packet of a well-formed command is presented runs the command. -/
theorem step_encoded {s : State} {i : Instr} {rest : List HostAction} (hi : i.wf = true) (hp : s.phase = .idle)
    (hin : s.inbox = .command (encode i) none :: rest) : step s = exec i (accept none rest s) :=
  (stepWith_command hp hin).trans (runPacket_legal (decodeOfEncodeReturnsTheInstruction i hi))

theorem reg_of_bank_eq {s t : State} (hcfg : t.config = s.config) (hb : t.bank = s.bank) (n : Nat) (k : Kind) :
    t.reg n k = s.reg n k := by
  rw [State.reg, State.byteAt, State.byteAt, hcfg, hb]
  rfl

/-- R105 (c): the pair of one register is none of the other register's bytes. -/
theorem reg_of_onlyPair {s t : State} {n : Nat} {k k' : Kind} (hc : s.config.wf) (hcfg : t.config = s.config)
    (hn : n < 16) (honly : OnlyPair (.one n) k s t) (hne : k' ≠ k) : t.reg n k' = s.reg n k' := by
  have hidx : kindIndex k' ≠ kindIndex k := fun heq => hne (kindIndex_injective heq)
  obtain ⟨hlow, hhigh⟩ := addrOf_offset hc hn k
  obtain ⟨hlow', hhigh'⟩ := addrOf_offset hc hn k'
  have hkept : ∀ x : Address, x.toNat = (addrOf s.config (.one n) k').toNat ∨
      x.toNat = (highAddrOf s.config (.one n) k').toNat → t.byteAt x = s.byteAt x := by
    refine fun x hx => honly x fun m hm => ?_
    obtain rfl : m = n := by simpa [channelsOf] using hm
    constructor
    · rintro rfl
      omega
    · rintro rfl
      omega
  rw [State.reg, State.reg, hcfg, hkept _ (.inl rfl), hkept _ (.inr rfl)]

/-- Settles O34: the SETC step leaves the value and the flag (O29), and the GETC step answers the counter and leaves the
bank (O28). -/
theorem setThenGetRoundTrips : Obligations.SetThenGetRoundTrips := by
  intro s n k v rest hn hv hc hp hai hok hin
  have hch : (Channel.one n).wf = true := by simpa [Channel.wf] using hn
  obtain ⟨t, ht, h, hread, -, hreg, -, hanswers, hresponses, honly, hframe⟩ :=
    setcSetsTheCounterAndKeepsTheFlag (accept none _ s) (.one n) k v hch ⟨hc, rfl, answersOk_mono (by omega) hok⟩ hai hv
  obtain ⟨hcfg, hai', hinbox, hphase, -⟩ : Frame (accept none _ s) t := hframe
  rw [accept_config] at hcfg
  have hok' : AnswersOk 1 t := by
    have hdrop := congrArg (List.drop 2) hok
    rwa [List.drop_take, ← accept_answers none _ s, ← hanswers] at hdrop
  obtain ⟨u, hu, x, y, hresponses', hy, hx, -, -, -, hbank', hcfg', -, hinbox', -⟩ :=
    (getcAnswersTheCounter (accept none rest t) (.one n) k hch (hcfg ▸ hc) rfl (hai'.trans hai)).1 hok'
  obtain ⟨hcounter, hflag, -⟩ := hreg n (by simp [channelsOf])
  obtain ⟨hhigh, -⟩ := hread n rfl
  obtain ⟨rfl, -⟩ := hx n rfl
  have hkept : ∀ k', u.reg n k' = t.reg n k' := reg_of_bank_eq hcfg' hbank' n
  have hyv : y = v := BitVec.eq_of_toNat_eq (hy.trans hcounter)
  refine ⟨t, u, (step_encoded (i := .setc (.one n) k v) hch hp hin).trans ht,
    (step_encoded (i := .getc (.one n) k) hch hphase hinbox).trans hu, ?_, ?_, ?_, hinbox'⟩
  · rw [hresponses', accept_responses, hresponses, accept_responses, hyv, List.append_assoc]
    rfl
  · rw [hkept, hflag, hhigh]
    show (s.reg n k).toNat / 256 / 16 % 2 = _
    omega
  · intro k' hne
    rw [hkept]
    exact reg_of_onlyPair (s := s) hc hcfg hn honly hne

end Sys2Proof.Machine
end

section
/-! PROOFS. RDALL: the 32 registers in slot order (O35). -/

namespace Sys2Proof.Machine

/-! ### Slots -/

/-- The kind of the register in slot `i`: ON in the even slots (R76). -/
def slotKind (i : Nat) : Kind := if i % 2 = 0 then .on else .off

/-- R76: slot `i` is the register of channel `i / 2` whose kind is `slotKind i`. -/
theorem slotOf_slotKind (i : Nat) : slotOf (i / 2) (slotKind i) = i := by
  unfold slotOf slotKind
  split <;> simp only [kindIndex] <;> omega

theorem slotKind_slotOf (n : Nat) (k : Kind) : slotOf n k / 2 = n ∧ slotKind (slotOf n k) = k := by
  cases k with
  | on => simp [slotOf, slotKind, kindIndex]
  | off =>
    simp only [slotOf, slotKind, kindIndex]
    exact ⟨by omega, if_neg (by omega)⟩

/-- The 32 registers as they are, in the slot order of R76. -/
def State.registers (s : State) : List Word := (List.range ndr).map fun i => s.reg (i / 2) (slotKind i)

@[simp] theorem registers_length (s : State) : s.registers.length = 32 := by simp [State.registers]

theorem registers_slot (s : State) {n : Nat} (hn : n < 16) (k : Kind) :
    s.registers[slotOf n k]? = some (s.reg n k) := by
  obtain ⟨hchannel, hkind⟩ := slotKind_slotOf n k
  have hslot : slotOf n k < ndr := by
    have := kindIndex_le k
    rw [slotOf, ndr]
    omega
  rw [State.registers, List.getElem?_map, List.getElem?_range hslot, Option.map_some, hchannel, hkind]

/-! ### The bytes of a bulk read -/

/-- R74, R101: the word of a slot, of the 64 bytes from `CH_BASE` on, is the register of the slot. -/
theorem wordAt_bulk (s : State) {n : Nat} (hn : n < 16) (k : Kind) :
    wordAt ((List.range nbulk).map fun i => s.byteAt (s.config.chBase + BitVec.ofNat 8 i)) (slotOf n k) =
      s.reg n k := by
  have hk := kindIndex_le k
  have hslot : 2 * slotOf n k = 4 * n + 2 * kindIndex k := by
    rw [slotOf]
    omega
  have hlow : 4 * n + 2 * kindIndex k < 64 := by omega
  have hhigh : 4 * n + 2 * kindIndex k + 1 < 64 := by omega
  simp [wordAt, hslot, hlow, hhigh, State.reg, highAddrOf, addrOf, BitVec.ofNat_add, BitVec.add_assoc]

/-- R141: a RDALL whose read is answered ok. -/
theorem rdall_ok {s : State} (hc : s.config.wf) (hr : s.resetAfter = none) (hai : s.ai = true) (hok : AnswersOk 1 s) :
    Completes (exec .rdall s)
      (Answered (.ok s.registers) [.writeRead s.config.chBase 64] s.bank s.slotDraws s) := by
  have hwords : (List.range ndr).map
      (wordAt ((List.range nbulk).map fun i => s.byteAt (s.config.chBase + BitVec.ofNat 8 i))) = s.registers := by
    refine List.map_congr_left fun i hi => ?_
    have hlt : i < 32 := List.mem_range.1 hi
    have hword := wordAt_bulk s (n := i / 2) (by omega) (slotKind i)
    rwa [slotOf_slotKind] at hword
  rw [exec, execRdall, busWriteRead_ok hc (resetDue_of_none hr) le_rfl le_rfl (.inr hai) hok, tryBus_done, hwords]
  exact ⟨_, rfl, respond_answered rfl rfl rfl rfl rfl (by simp [fetched, hr]) rfl rfl (by simp [fetched])⟩

/-- Settles O35: RDALL answers `State.registers` (`rdall_ok`), whose slots are the registers; a failed read ends it
(`tryRead_fail`). -/
theorem rdallAnswersAllRegistersInSlotOrder : Obligations.RdallAnswersAllRegistersInSlotOrder := by
  intro s hc hr hai
  refine ⟨fun hok => ?_, fun e m as hf => tryRead_fail hr (reaches_bulk _) (.inr hai) hf _⟩
  obtain ⟨t, ht, answered⟩ := rdall_ok hc hr hai hok
  exact ⟨t, ht, s.registers, answered.responses, registers_length s,
    fun n hn => ⟨registers_slot s hn .on, registers_slot s hn .off⟩, answered.trace, answered.bank,
    answered.answers_tail, answered.slotDraws, answered.frame⟩

end Sys2Proof.Machine
end

section
/-! PROOFS. WRALL: all 32 registers overwritten by one write, and what a failed one leaves (O36). -/

namespace Sys2Proof.Machine

/-- R73: byte `i` of the data of a write of words is a byte of word `i / 2`, the low one first. -/
theorem wordBytes_byte {vs : List Word} {i : Nat} {v : Word} (h : vs[i / 2]? = some v) :
    (wordBytes vs)[i]? = some (if i % 2 = 0 then lo8 v else hi8 v) := by
  obtain ⟨hlo, hhi⟩ := wordBytes_get vs (i / 2)
  rw [h] at hlo hhi
  split
  next heven =>
    rw [show i = 2 * (i / 2) by omega]
    exact hlo
  next hodd =>
    rw [show i = 2 * (i / 2) + 1 by omega]
    exact hhi

/-- R46, R71: what the bank keeps of byte `i` of the data, as a number. -/
theorem keep_wordByte_toNat (c : Config) (i : Nat) (v : Word) :
    (keep c i (if i % 2 = 0 then lo8 v else hi8 v)).toNat =
      if i % 2 = 0 then v.toNat % 256 else if c.rsvdStored then v.toNat / 256 else v.toNat / 256 % 32 := by
  by_cases hi : i % 2 = 0
  · rw [if_pos hi, if_pos hi, keep_low _ hi, lo8_toNat]
  · rw [if_neg hi, if_neg hi, keep_high_toNat _ (by omega), hi8_toNat]

/-- Data written from `CH_BASE` on goes to the channel window byte by byte (R42, R45). -/
theorem storedAt_bulk {c : Config} {data : List Byte} {i : Nat} {x : Address} (hi : i < 64)
    (hx : x.toNat = c.chBase.toNat + i) : storedAt c c.chBase data x = data[i]? := by
  have hbase : windowOf c c.chBase = .channel 0 := windowOf_channel.2 ⟨rfl, by omega⟩
  have hwindow : windowOf c x = .channel i := windowOf_channel.2 ⟨hx, hi⟩
  simp [storedAt, hbase, hwindow]

section Bulk

variable {s t : State} {x : Address}

/-- The bytes of the window after a write at `CH_BASE`. -/
theorem byteAt_bulk {data : List Byte} (hc : s.config.wf) (hcfg : t.config = s.config) (hl : data.length ≤ 64)
    (hb : t.bank = storeBytes s.config s.bank s.config.chBase data) {i : Nat} (hi : i < 64)
    (hx : x.toNat = s.config.chBase.toNat + i) :
    t.byteAt x = (data[i]?.map (keep s.config i)).getD (s.byteAt x) := by
  have hoffset : offsetOf s.config x = i := by
    rw [offsetOf, hx]
    omega
  rw [byteAt_stored hc hcfg hb (reaches_mono hl (reaches_bulk _)) x, storedAt_bulk hi hx, hoffset]
  cases data[i]? <;> rfl

/-- R51: a write at `CH_BASE` leaves every byte before and behind its data. -/
theorem byteAt_beyond_bulk {data : List Byte} (hc : s.config.wf) (hcfg : t.config = s.config) (hl : data.length ≤ 64)
    (hb : t.bank = storeBytes s.config s.bank s.config.chBase data)
    (hx : x.toNat < s.config.chBase.toNat ∨ s.config.chBase.toNat + data.length ≤ x.toNat) :
    t.byteAt x = s.byteAt x := by
  by_cases hwindow : x.toNat < s.config.chBase.toNat ∨ s.config.chBase.toNat + 64 ≤ x.toNat
  · exact onlyWindow_of_stored hc hcfg (reaches_mono hl (reaches_bulk _)) hb x hwindow
  · rw [byteAt_bulk hc hcfg hl hb (i := x.toNat - s.config.chBase.toNat) (by omega) (by omega),
      List.getElem?_eq_none (by omega)]
    rfl

variable {vs : List Word}

/-- R46, R51: a byte of the window among the first `m` that WRALL's write stored. -/
theorem byteAt_of_words_take (hc : s.config.wf) (hcfg : t.config = s.config) (hlen : vs.length = 32) {m : Nat}
    (hb : t.bank = storeBytes s.config s.bank s.config.chBase ((wordBytes vs).take m)) {i : Nat} {v : Word}
    (hi : i < m) (hv : vs[i / 2]? = some v) (hx : x.toNat = s.config.chBase.toNat + i) :
    (t.byteAt x).toNat =
      if i % 2 = 0 then v.toNat % 256 else if s.config.rsvdStored then v.toNat / 256 else v.toNat / 256 % 32 := by
  obtain ⟨hlt, -⟩ := List.getElem?_eq_some_iff.1 hv
  have hdata : ((wordBytes vs).take m).length ≤ 64 := by
    simp only [List.length_take, wordBytes_length]
    omega
  rw [byteAt_bulk hc hcfg hdata hb (i := i) (by omega) hx, List.getElem?_take_of_lt hi, wordBytes_byte hv,
    ← keep_wordByte_toNat]
  rfl

/-- R142: a register after the whole of WRALL's write: the word of its slot, its reserved bits where the bank stores
them. -/
theorem reg_of_words (hc : s.config.wf) (hcfg : t.config = s.config) (hlen : vs.length = 32)
    (hb : t.bank = storeBytes s.config s.bank s.config.chBase (wordBytes vs)) {n : Nat} (hn : n < 16) {k : Kind}
    {v : Word} (hv : vs[slotOf n k]? = some v) :
    (t.reg n k).toNat = if s.config.rsvdStored then v.toNat else v.toNat % 8192 := by
  have hk := kindIndex_le k
  obtain ⟨hlow, hhigh⟩ := addrOf_offset hc hn k
  rw [← List.take_of_length_le (l := wordBytes vs) (i := 64) (by simp [hlen])] at hb
  have hword : ∀ i, i / 2 = slotOf n k → vs[i / 2]? = some v := fun i hi => hi ▸ hv
  rw [reg_toNat_of_config hcfg,
    byteAt_of_words_take hc hcfg hlen hb (by omega) (hword _ (by rw [slotOf]; omega)) hlow,
    byteAt_of_words_take hc hcfg hlen hb (by omega) (hword _ (by rw [slotOf]; omega)) hhigh,
    if_pos (by omega), if_neg (by omega)]
  split <;> omega

end Bulk

/-- R51, R142: a WRALL of 32 words whose write fails. -/
theorem wrall_fail {s : State} {vs : List Word} {e : ErrorCode} {m : Nat} {as : List BusAnswer}
    (hlen : vs.length = 32) (hr : s.resetAfter = none) (hf : s.answers = .fail e m :: as) (hai : s.ai = true) :
    Completes (exec (.wrall vs) s) (Answered (.transport e) [.write s.config.chBase (wordBytes vs)]
      (storeBytes s.config s.bank s.config.chBase ((wordBytes vs).take m)) s.slotDraws s) := by
  rw [exec, execWrall, if_pos hlen]
  exact tryWrite_fail hr (by rw [wordBytes_length, hlen]; exact reaches_bulk _) (.inr hai) hf

/-- Settles O36: WRALL is its one write (`wrall_ok`, `wrall_fail`), and the window holds what was stored of the words. -/
theorem wrallOverwritesAllRegisters : Obligations.WrallOverwritesAllRegisters := by
  intro s vs hlen hc hr hai
  have hbytes : (wordBytes vs).length = 64 := by rw [wordBytes_length, hlen]
  refine ⟨fun hok => ?_, fun e m as hf => ?_⟩
  · obtain ⟨t, ht, answered⟩ := wrall_ok hlen hr hok hai
    have hcfg := answered.config
    refine ⟨t, ht, fun n v w hn hv hw => ?_, answered.trace, answered.answers_tail, answered.slotDraws,
      answered.responses, ?_, answered.frame⟩
    · exact ⟨reg_of_words hc hcfg hlen answered.bank hn (k := .on) hv,
        reg_of_words hc hcfg hlen answered.bank hn (k := .off) hw⟩
    · exact onlyWindow_of_stored hc hcfg (by rw [hbytes]; exact reaches_bulk _) answered.bank
  · obtain ⟨t, ht, answered⟩ := wrall_fail hlen hr hf hai
    have hcfg := answered.config
    have hstored : ((wordBytes vs).take m).length = min m 64 := by rw [List.length_take, hbytes]
    refine ⟨t, ht, answered.responses, fun i v x hi hv hx => ?_, fun x hx => ?_, answered.trace,
      by simpa [hf] using answered.answers, answered.slotDraws, answered.frame⟩
    · exact byteAt_of_words_take hc hcfg hlen answered.bank hi hv hx
    · exact byteAt_beyond_bulk hc hcfg (by omega) answered.bank (by rwa [hstored])

end Sys2Proof.Machine
end

section
/-! PROOFS. A bulk write or SETONOFF and then a read, as two steps of the host (O38). -/

namespace Sys2Proof.Machine

/-! ### A command of one write, then a read -/

/-- A command whose one transaction, when it is answered ok, is a read that leads to the words `data`. -/
def ReadsBack (i : Instr) (data : State → List Word) : Prop :=
  ∀ s : State, s.config.wf → s.resetAfter = none → s.ai = true → AnswersOk 1 s →
    Completes (exec i s) fun t => t.responses = s.responses ++ [.ok (data s)]

theorem rdall_readsBack : ReadsBack .rdall State.registers := by
  intro s hc hr hai hok
  obtain ⟨t, ht, answered⟩ := rdall_ok hc hr hai hok
  exact ⟨t, ht, answered.responses⟩

theorem getonoff_readsBack {n : Nat} (hn : n < 16) :
    ReadsBack (.getonoff (.one n)) fun s => [s.reg n .on, s.reg n .off] := by
  intro s hc hr hai hok
  obtain ⟨t, ht, v, w, hresponses, hread, -⟩ :=
    (getonoffAnswersBothRegistersRaw s (.one n) (by simpa [Channel.wf] using hn) hc hr hai).1 hok
  obtain ⟨rfl, rfl, -⟩ := hread n rfl
  exact ⟨t, ht, hresponses⟩

/-- R9, R27: two commands the host asks for one after the other, the first of one write that leaves the bank `m`: the
second reads that bank, in the state `r` it is accepted in. -/
theorem step_write_then_read {s : State} {i j : Instr} {rest : List HostAction} {x : Transaction} {m : Memory}
    {ds : List Byte} {data : State → List Word} (hi : i.wf = true) (hj : j.wf = true) (hc : s.config.wf)
    (hp : s.phase = .idle) (hai : s.ai = true) (hok : AnswersOk 2 s)
    (hin : s.inbox = .command (encode i) none :: .command (encode j) none :: rest)
    (hwrite : Completes (exec i (accept none (.command (encode j) none :: rest) s))
      (Answered (.ok []) [x] m ds (accept none (.command (encode j) none :: rest) s)))
    (hread : ReadsBack j data) :
    ∃ t u r, step s = .next t ∧ step t = .next u ∧ r.config = s.config ∧ r.bank = m ∧
      u.responses = s.responses ++ [.ok [], .ok (data r)] := by
  obtain ⟨t, ht, answered⟩ := hwrite
  obtain ⟨hcfg, hai', hinbox, hphase, -⟩ := answered.frame
  have hcfg' : t.config = s.config := hcfg
  have hok' : AnswersOk 1 t := answersOk_tail hok answered.answers_tail
  obtain ⟨u, hu, hresponses⟩ := hread (accept none rest t) (hcfg'.symm ▸ hc) rfl (hai'.trans hai) hok'
  refine ⟨t, u, accept none rest t, (step_encoded hi hp hin).trans ht, (step_encoded hj hphase hinbox).trans hu, hcfg',
    answered.bank, ?_⟩
  rw [hresponses, accept_responses, answered.responses, accept_responses, List.append_assoc]
  rfl

/-! ### What the second command reads -/

/-- R46: what the bank keeps of a word written to a register. -/
def keptWord (c : Config) (v : Word) : Word := if c.rsvdStored then v else v &&& 0x1FFF

theorem keptWord_toNat (c : Config) (v : Word) :
    (keptWord c v).toNat = if c.rsvdStored then v.toNat else v.toNat % 8192 := by
  unfold keptWord
  split
  · rfl
  · exact Nat.and_two_pow_sub_one_eq_mod v.toNat 13

section Written

variable {s t : State} {vs : List Word}

theorem reg_eq_keptWord (hc : s.config.wf) (hcfg : t.config = s.config) (hlen : vs.length = 32)
    (hb : t.bank = storeBytes s.config s.bank s.config.chBase (wordBytes vs)) {n : Nat} (hn : n < 16) {k : Kind}
    {v : Word} (hv : vs[slotOf n k]? = some v) : t.reg n k = keptWord s.config v :=
  BitVec.eq_of_toNat_eq ((reg_of_words hc hcfg hlen hb hn hv).trans (keptWord_toNat _ v).symm)

/-- R143: after WRALL the registers, in slot order, are the words as the bank keeps them. -/
theorem registers_eq_keptWords (hc : s.config.wf) (hcfg : t.config = s.config) (hlen : vs.length = 32)
    (hb : t.bank = storeBytes s.config s.bank s.config.chBase (wordBytes vs)) :
    t.registers = vs.map (keptWord s.config) := by
  refine List.ext_getElem (by simp [hlen]) fun i hi _ => ?_
  have hlt : i < vs.length := by simpa [hlen] using hi
  have hslot : vs[slotOf (i / 2) (slotKind i)]? = some vs[i] := by
    rw [slotOf_slotKind]
    exact List.getElem?_eq_getElem hlt
  rw [List.getElem_map, ← reg_eq_keptWord hc hcfg hlen hb (by omega) hslot]
  simp [State.registers]

end Written

/-- R105 (c): the bytes of one channel are none of another channel's. -/
theorem reg_of_onlyChannel {s t : State} {n n' : Nat} (hc : s.config.wf) (hcfg : t.config = s.config) (hn : n < 16)
    (hn' : n' < 16) (honly : OnlyChannel (.one n) s t) (hne : n' ≠ n) (k : Kind) : t.reg n' k = s.reg n' k := by
  obtain ⟨hlow', hhigh'⟩ := addrOf_offset hc hn' k
  have hk' := kindIndex_le k
  have hkept : ∀ x : Address, x.toNat = (addrOf s.config (.one n') k).toNat ∨
      x.toNat = (highAddrOf s.config (.one n') k).toNat → t.byteAt x = s.byteAt x := by
    refine fun x hx => honly x fun m hm l => ?_
    obtain rfl : m = n := by simpa [channelsOf] using hm
    obtain ⟨hlow, hhigh⟩ := addrOf_offset hc hn l
    have hl := kindIndex_le l
    constructor
    · rintro rfl
      omega
    · rintro rfl
      omega
  rw [State.reg, State.reg, hcfg, hkept _ (.inl rfl), hkept _ (.inr rfl)]

/-- R116: a SETONOFF of two counters whose write is answered ok. -/
theorem setonoff_ok {s : State} {ch : Channel} {v w : Word} (h : ch.wf = true) (hc : s.config.wf)
    (hr : s.resetAfter = none) (hok : AnswersOk 1 s) (hai : s.ai = true) (hv : v.toNat ≤ 4095) (hw : w.toNat ≤ 4095) :
    Completes (exec (.setonoff ch v w) s) (Answered (.ok []) [.write (addrOf s.config ch .on) (wordBytes [v, w])]
      (storeBytes s.config s.bank (addrOf s.config ch .on) (wordBytes [v, w])) s.slotDraws s) := by
  rw [exec, execSetonoff, if_pos (by simp [counterInRange_iff, hv, hw])]
  exact tryWrite_ok hr (reaches_channel hc h) (.inr hai) hok

/-- Settles O38: each round trip is a command of one write and then one of one read (`step_write_then_read`), and the
read answers the registers of the bank the write left. -/
theorem bulkWriteThenReadRoundTrips : Obligations.BulkWriteThenReadRoundTrips := by
  intro s rest hc hp hai hok
  have hok1 : AnswersOk 1 s := answersOk_mono (by omega) hok
  refine ⟨fun vs hlen hin => ?_, fun vs n v w hlen hn hv hw hin => ?_, fun n v w hn hv hw hin => ?_⟩
  · obtain ⟨t, u, r, ht, hu, hcfg, hbank, hresponses⟩ := step_write_then_read (i := .wrall vs) rfl rfl hc hp hai hok hin
      (wrall_ok (s := accept none _ s) hlen rfl hok1 hai) rdall_readsBack
    rw [registers_eq_keptWords hc hcfg hlen hbank] at hresponses
    exact ⟨t, u, ht, hu, hresponses⟩
  · obtain ⟨t, u, r, ht, hu, hcfg, hbank, hresponses⟩ := step_write_then_read (i := .wrall vs) rfl
      (by simpa [Instr.wf, Channel.wf] using hn) hc hp hai hok hin (wrall_ok (s := accept none _ s) hlen rfl hok1 hai)
      (getonoff_readsBack hn)
    rw [reg_eq_keptWord hc hcfg hlen hbank hn (k := .on) hv,
      reg_eq_keptWord hc hcfg hlen hbank hn (k := .off) hw] at hresponses
    exact ⟨t, u, ht, hu, hresponses⟩
  · have hch : (Channel.one n).wf = true := by simpa [Channel.wf] using hn
    have hmem : n ∈ channelsOf (.one n) := by simp [channelsOf]
    obtain ⟨t, u, r, ht, hu, hcfg, hbank, hresponses⟩ := step_write_then_read (i := .setonoff (.one n) v w) hch rfl hc hp
      hai hok hin (setonoff_ok (s := accept none _ s) hch hc rfl hok1 hai hv hw) rdall_readsBack
    have hon : r.reg n .on = v := reg_of_fourBytes hc hcfg hch hbank hmem rfl hv
    have hoff : r.reg n .off = w := reg_of_fourBytes hc hcfg hch hbank hmem rfl hw
    refine ⟨t, u, r.registers, ht, hu, hresponses, registers_length r, hon ▸ registers_slot r hn .on,
      hoff ▸ registers_slot r hn .off, fun n' hn' hne => ?_⟩
    have hother := reg_of_onlyChannel hc hcfg hn hn' (onlyChannel_of_stored hc hcfg hch (by simp) hbank) hne
    exact ⟨hother .on ▸ registers_slot r hn' .on, hother .off ▸ registers_slot r hn' .off⟩

end Sys2Proof.Machine
end

section
/-! PROOFS. The calculator: PLENPLAIN (O39), PLEN (O40) and GETPULSE (O41). -/

namespace Sys2Proof.Machine

/-! ### The pulse as a number -/

/-- R162 without subtraction: `r` plus the ON counter is the OFF counter, or 4095 more where the pulse wraps. -/
abbrev CountedPulse (v w : Word) (r : Nat) : Prop :=
  (v.toNat % 4096 ≤ w.toNat % 4096 → r + v.toNat % 4096 = w.toNat % 4096) ∧
    (w.toNat % 4096 < v.toNat % 4096 → r + v.toNat % 4096 = 4095 + w.toNat % 4096)

theorem plain_counted (v w : Word) : CountedPulse v w (plain v w) := by
  simp only [CountedPulse, plain, counter_toNat]
  split <;> omega

/-- The rows of R165, by bit 12 of the OFF word and of the ON word. -/
structure PulseRows (v w : Word) (r : Nat) : Prop where
  fullOff : w.toNat / 4096 % 2 = 1 → r = 0
  fullOn  : w.toNat / 4096 % 2 = 0 → v.toNat / 4096 % 2 = 1 → r = 4095
  counted : w.toNat / 4096 % 2 = 0 → v.toNat / 4096 % 2 = 0 → CountedPulse v w r

theorem full_eq_false_iff (v : Word) : full v = false ↔ v.toNat / 4096 % 2 = 0 := by
  rw [← Bool.not_eq_true, full_iff]
  omega

theorem pulse_rows (v w : Word) : PulseRows v w (pulse v w) where
  fullOff hw := by simp [pulse, (full_iff w).2 hw]
  fullOn hw hv := by simp [pulse, (full_eq_false_iff w).2 hw, (full_iff v).2 hv, fullOnLength]
  counted hw hv := by
    have hplain : pulse v w = plain v w := by
      simp [pulse, (full_eq_false_iff w).2 hw, (full_eq_false_iff v).2 hv]
    exact hplain ▸ plain_counted v w

/-- R163: the answer's word holds the pulse whole. -/
theorem lengthWord_pulse_toNat (v w : Word) : (lengthWord (pulse v w)).toNat = pulse v w :=
  lengthWord_toNat (pulse_le v w)

theorem lengthWord_pulse_rows (v w : Word) : PulseRows v w (lengthWord (pulse v w)).toNat := by
  rw [lengthWord_pulse_toNat]
  exact pulse_rows v w

/-! ### The commands -/

/-- R48: four bytes read of All are the next four draws, two to a word. -/
theorem BytesRead.words_eq_draws {p : Address} {s : State} {bs left ds : List Byte} {d0 d1 d2 d3 : Byte}
    (h : BytesRead .all p 4 s bs left) (hds : s.slotDraws = d0 :: d1 :: d2 :: d3 :: ds) :
    (wordAt bs 0).toNat = d0.toNat + 256 * d1.toNat ∧ (wordAt bs 1).toNat = d2.toNat + 256 * d3.toNat ∧ left = ds := by
  obtain ⟨rfl, rfl⟩ := h.all rfl (by simp [hds])
  simp [hds, wordAt]

/-- Settles O39: PLENPLAIN answers alone, and its word is the counted pulse (`plain_counted`), which a wrap leaves below
4095. -/
theorem plenplainAnswersTheCountedPulse : Obligations.PlenplainAnswersTheCountedPulse := by
  intro s v w hr
  obtain ⟨hforward, hwrap⟩ := plain_counted v w
  refine ⟨_, rfl, lengthWord (plain v w), answeredAlone_respond hr _, ?_⟩
  rw [lengthWord_toNat (plain_le v w)]
  exact ⟨hforward, fun h => ⟨hwrap h, by have := hwrap h; omega⟩, plain_le v w⟩

/-- Settles O40: PLEN answers alone, and its word meets the rows of R165 (`pulse_rows`). -/
theorem plenAppliesTheFlagPrecedence : Obligations.PlenAppliesTheFlagPrecedence := by
  intro s v w hr
  obtain ⟨hoff, hon, hcounted⟩ := lengthWord_pulse_rows v w
  exact ⟨_, rfl, lengthWord (pulse v w), answeredAlone_respond hr _, hoff, hon, hcounted⟩

/-- Settles O41: the words of the four bytes read are both registers, or the four draws, and GETPULSE answers what PLEN
answers of them. -/
theorem getpulseAnswersThePulseOfWhatIsRead : Obligations.GetpulseAnswersThePulseOfWhatIsRead := by
  intro s ch h hc hr hai
  refine ⟨fun hok => ?_, fun e m as hf => tryRead_fail hr (reaches_channel hc h) (.inr hai) hf _⟩
  have hp : PointsAt s.config ch 0 (addrOf s.config ch .on) := addrOf_pointsAt hc h .on
  obtain ⟨bs, left, hread, t, ht, answered⟩ := tryRead_ok hc h hp (n := 4) (by omega) hr hai hok
    fun bs => [lengthWord (pulse (wordAt bs 0) (wordAt bs 1))]
  obtain ⟨hoff, hon, hcounted⟩ := lengthWord_pulse_rows (wordAt bs 0) (wordAt bs 1)
  have hle := (lengthWord_pulse_toNat (wordAt bs 0) (wordAt bs 1)).trans_le (pulse_le _ _)
  refine ⟨t, ht, wordAt bs 0, wordAt bs 1, _, answered.responses, ?_, ?_, answered.answers_tail, hoff, hon, hcounted,
    hle, answered.trace, answered.bank, answered.frame⟩
  · rintro n rfl
    obtain ⟨hregOn, hregOff⟩ := hread.words_eq_regs
    exact ⟨hregOn, hregOff, answered.slotDraws.trans (hread.one n rfl).2⟩
  · rintro rfl d0 d1 d2 d3 ds hds
    obtain ⟨hdrawnOn, hdrawnOff, hleft⟩ := hread.words_eq_draws hds
    exact ⟨hdrawnOn, hdrawnOff, answered.slotDraws.trans hleft⟩

end Sys2Proof.Machine
end

section
/-! PROOFS. The exceptions' statements: InvalidInput has exactly its three causes (O19), and the reading commands keep the
bank however they end (O21). -/

namespace Sys2Proof

/-- The three causes of R181. -/
def Instr.Rejected (i : Instr) : Prop :=
  (∃ ch k v, i = .setc ch k v ∧ 4095 < v.toNat) ∨
    (∃ ch v w, i = .setonoff ch v w ∧ (4095 < v.toNat ∨ 4095 < w.toNat)) ∨
    ∃ vs, i = .wrall vs ∧ vs.length ≠ 32

namespace Machine

/-! ### InvalidInput -/

/-- R181: validation comes before the first transaction, so that a rejected command does nothing but answer. -/
theorem exec_rejected {i : Instr} (h : i.Rejected) (s : State) : exec i s = raise .invalidInput s := by
  obtain ⟨ch, k, v, rfl, hv⟩ | ⟨ch, v, w, rfl, hvw⟩ | ⟨vs, rfl, hlen⟩ := h
  · exact if_neg (by rw [counterInRange_iff]; omega)
  · exact if_neg (by rw [Bool.and_eq_true, counterInRange_iff, counterInRange_iff]; omega)
  · exact if_neg hlen

/-- R196: a command that is not rejected ends as some command that validates nothing ends; SETC, SETONOFF and WRALL end
as SETF, which writes after its read or fails. -/
theorem exec_answersOnce_of_not_rejected {i : Instr} (hi : ¬ i.Rejected) {s : State} (hr : s.resetAfter = none) :
    ∃ j : Instr, ¬ j.Validates ∧ AnswersOnce j s (exec i s) := by
  by_cases hvalidates : i.Validates
  · refine ⟨.setf .all .on false, nofun, ?_⟩
    cases hvalidates with
    | setc ch k v =>
      have hv : v.toNat ≤ 4095 := not_lt.1 fun h => hi (.inl ⟨ch, k, v, rfl, h⟩)
      rw [exec, execSetc, if_pos ((counterInRange_iff v).2 hv)]
      exact tryRead_answersOnce nofun hr fun _ _ hu => tryWrite_answersOnce nofun rfl hu
    | setonoff ch v w =>
      have hvw : ¬ (4095 < v.toNat ∨ 4095 < w.toNat) := fun h => hi (.inr (.inl ⟨ch, v, w, rfl, h⟩))
      rw [exec, execSetonoff, if_pos (by rw [Bool.and_eq_true, counterInRange_iff, counterInRange_iff]; omega)]
      exact tryWrite_answersOnce nofun rfl hr
    | wrall vs =>
      have hlen : vs.length = ndr := not_not.1 fun h => hi (.inr (.inr ⟨vs, rfl, h⟩))
      rw [exec, execWrall, if_pos hlen]
      exact tryWrite_answersOnce nofun rfl hr
  · exact ⟨i, hvalidates, exec_answersOnce i hr⟩

/-- Settles O19: a rejected command only answers (`exec_rejected`), and one that is not rejected ends as a command that
has no InvalidInput to answer. -/
theorem invalidInputHasExactlyItsThreeCauses : Obligations.InvalidInputHasExactlyItsThreeCauses := by
  intro i s _ hr
  refine ⟨rfl, fun hcause => ⟨_, exec_rejected hcause s, answeredAlone_respond hr _⟩, fun t ht hresp => ?_⟩
  by_contra hcause
  obtain ⟨j, hj, hanswers⟩ := exec_answersOnce_of_not_rejected hcause hr
  obtain ⟨r, hr', hmay⟩ := hanswers t ht
  obtain rfl : Response.invalidInput = r := by simpa [hresp] using hr'
  cases hmay with
  | invalidInput hvalidates => exact hj hvalidates

/-! ### The reading commands -/

theorem Ended.frame {s t : State} (h : Ended s t) : Frame s t := ⟨h.config, h.ai, h.inbox, h.phase, h.resetAfter⟩

/-- The outcome, if it is a state, has the bank of `s` and leaves alone what every command leaves alone (`Frame`). -/
def KeepsBank (s : State) (o : Host.Outcome State Fault Refusal) : Prop :=
  ∀ t, o = .next t → t.bank = s.bank ∧ Frame s t

theorem During.respond_keepsBank {s u : State} (h : During s u) (hbank : u.bank = s.bank) (r : Response) :
    KeepsBank s (.next (respond r u)) := by
  rintro _ ⟨⟩
  exact ⟨(respond_bank r u).trans hbank, (h.ended (respond_ended r u)).frame⟩

/-- A command that only answers. -/
theorem respondOk_keepsBank (data : List Word) (s : State) : KeepsBank s (respondOk data s) :=
  (During.refl s).respond_keepsBank rfl _

/-- R43, R186: a command of one read, answered ok, failed or cut off by a reset of the block. -/
theorem tryRead_keepsBank (p : Address) (n : Nat) (s : State) (f : List Byte → List Word) :
    KeepsBank s (tryBus (busWriteRead p n s) fun bs u => respondOk (f bs) u) := by
  have hspec := busWriteRead_spec p n s
  have hbank := busWriteRead_bank p n s
  generalize busWriteRead p n s = r at hspec hbank ⊢
  cases r with
  | done bs u => exact hspec.1.respond_keepsBank hbank _
  | failed e u => exact hspec.1.respond_keepsBank hbank _
  | abandoned u =>
    obtain ⟨-, rfl⟩ := hspec
    rintro _ ⟨⟩
    exact ⟨rfl, (resetBlock_ended s).frame⟩
  | faulted f => exact fun t ht => nomatch ht
  | refused x => exact fun t ht => nomatch ht

/-- Settles O21: ADDR, PLEN and PLENPLAIN only answer, and the other four are one read and an answer. -/
theorem readingCommandsNeverChangeTheBank : Obligations.ReadingCommandsNeverChangeTheBank := by
  rintro s t ch k v w (haddr | hgetc | hgetonoff | hgetpulse | hrdall | hplen | hplenplain)
  · exact respondOk_keepsBank _ s t haddr
  · exact tryRead_keepsBank _ _ s _ t hgetc
  · exact tryRead_keepsBank _ _ s _ t hgetonoff
  · exact tryRead_keepsBank _ _ s _ t hgetpulse
  · exact tryRead_keepsBank _ _ s _ t hrdall
  · exact respondOk_keepsBank _ s t hplen
  · exact respondOk_keepsBank _ s t hplenplain

end Machine

end Sys2Proof
end

section
/-! PROOFS. The reset's and the hazards' statements: a reset of the block between commands leaves the bus target alone
(O10), and auto-increment off refuses what would move more than one byte (O15). -/

namespace Sys2Proof.Machine

/-- Settles O10: the step is the reset itself (`stepWith_resetBlock`), which leaves every field but the block's own. -/
theorem blockResetTouchesNothingOfTheBusTarget : Obligations.BlockResetTouchesNothingOfTheBusTarget := by
  intro s rest hp hi
  exact ⟨_, stepWith_resetBlock hp hi, rfl, rfl, rfl, rfl, rfl, rfl, rfl, rfl, rfl, rfl, rfl⟩

/-! ### Auto-increment off -/

section AutoIncrementOff

variable {s : State} (hr : s.resetAfter = none) (hai : s.ai = false)

include hr hai

/-- R49: the read a command begins with is refused, and the command with it. -/
theorem tryRead_refused {p : Address} {n : Nat} (hw : reaches s.config p n = true) (hn : 1 < n)
    (go : List Byte → State → Host.Outcome State Fault Refusal) :
    tryBus (busWriteRead p n s) go = .refused .autoIncrementOff := by
  rw [busWriteRead_refused (resetDue_of_none hr) hw hn hai, tryBus_refused]

/-- R49: the write of words a command comes to is refused, and the command with it. -/
theorem tryWriteWords_refused {p : Address} {vs : List Word} {n : Nat} (hw : reaches s.config p n = true)
    (hlen : 2 * vs.length = n) (hn : 1 < n) (go : Unit → State → Host.Outcome State Fault Refusal) :
    tryBus (busWrite p (wordBytes vs) s) go = .refused .autoIncrementOff := by
  rw [← hlen, ← wordBytes_length] at hw hn
  rw [busWrite_refused (resetDue_of_none hr) hw hn hai, tryBus_refused]

/-- R213: SETC's one-byte read goes out and is answered; its two-byte write is refused. -/
theorem setc_refused {ch : Channel} {k : Kind} {v : Word} (hc : s.config.wf) (h : ch.wf = true) (hok : AnswersOk 1 s)
    (hv : v.toNat ≤ 4095) : exec (.setc ch k v) s = .refused .autoIncrementOff := by
  obtain ⟨b, u, hdone, -, hafter⟩ := readHigh_ok hc h k hr hok
  have hreach : reaches u.config (addrOf u.config ch k) 2 = true := by
    rw [hafter.config]
    exact reaches_pair hc h k
  rw [exec, execSetc, if_pos ((counterInRange_iff v).2 hv), hdone, tryBus_done]
  exact tryWriteWords_refused (hafter.resetAfter hr) (hafter.ai.trans hai) hreach rfl (by omega) _

theorem setonoff_refused {ch : Channel} {v w : Word} (hc : s.config.wf) (h : ch.wf = true) (hv : v.toNat ≤ 4095)
    (hw : w.toNat ≤ 4095) : exec (.setonoff ch v w) s = .refused .autoIncrementOff := by
  rw [exec, execSetonoff, if_pos (by simp [counterInRange_iff, hv, hw])]
  exact tryWriteWords_refused hr hai (reaches_channel hc h) rfl (by omega) _

theorem wrall_refused {vs : List Word} (hlen : vs.length = 32) :
    exec (.wrall vs) s = .refused .autoIncrementOff := by
  rw [exec, execWrall, if_pos hlen]
  exact tryWriteWords_refused hr hai (reaches_bulk _) (by omega) (by omega) _

end AutoIncrementOff

/-- R213: SETF's transactions move one byte each, so that it answers OK whatever auto-increment is. -/
theorem setf_answersOk {s : State} {ch : Channel} {k : Kind} {f : Bool} (hc : s.config.wf) (h : ch.wf = true)
    (hr : s.resetAfter = none) (hok : AnswersOk 2 s) :
    ∃ t, exec (.setf ch k f) s = .next t ∧ t.responses = s.responses ++ [.ok []] := by
  obtain ⟨hcompletes, -⟩ := setfWritesTheFlagOnlyIfItDiffers s ch k f h hc hr
  obtain ⟨t, ht, _, -, -, -, -, hresponses, -⟩ := hcompletes hok
  exact ⟨t, ht, hresponses⟩

/-- Settles O15: the four reading commands are refused at their read (`tryRead_refused`), SETC, SETONOFF and WRALL at their
write; SETF moves single bytes and the other three only answer. -/
theorem multiByteCommandsNeedAutoIncrement : Obligations.MultiByteCommandsNeedAutoIncrement := by
  rintro s ch k h ⟨hc, hr, hok⟩ hai
  have hchannel : reaches s.config (addrOf s.config ch .on) 4 = true := reaches_channel hc h
  refine ⟨?getc, ?getonoff, ?getpulse, ?rdall, ?setc, ?setonoff, ?wrall, ?setf, ⟨_, rfl⟩, fun v w => ⟨⟨_, rfl⟩, _, rfl⟩⟩
  case getc => exact tryRead_refused hr hai (reaches_pair hc h k) (by omega) _
  case getonoff => exact tryRead_refused hr hai hchannel (by omega) _
  case getpulse => exact tryRead_refused hr hai hchannel (by omega) _
  case rdall => exact tryRead_refused hr hai (reaches_bulk s.config) (by omega) _
  case setc => exact fun v hv => setc_refused hr hai hc h (answersOk_mono (by omega) hok) hv
  case setonoff => exact fun v w hv hw => setonoff_refused hr hai hc h hv hw
  case wrall => exact fun vs hlen => wrall_refused hr hai hlen
  case setf => exact fun f => setf_answersOk hc h hr hok

end Sys2Proof.Machine
end
